-- ==== Sys2Proof/Word.lean ====
section
/-! DEFINITION. The widths of the BPTE: 64-bit data words (00_scope.md R8), bytes (20_memory.md R65), window
offsets (20_memory.md R61) and the 7-bit length registers (00_scope.md R9). -/

namespace Sys2Proof

/-- A data word, register or buffer entry: 64 bits, unsigned (00_scope.md R8, R11, R12). -/
abbrev Word := BitVec 64

/-- One byte lane of an access (20_memory.md R65). -/
abbrev Byte := BitVec 8

/-- A byte offset in the 4096-byte window, 0 to 0xFFF (20_memory.md R61). -/
abbrev Offset := BitVec 12

/-- The value of IN_LEN, OUT_LEN or FWV_WIDTH: 7 bits (00_scope.md R9). -/
abbrev Len := BitVec 7

end Sys2Proof
end

