-- ==== Sys2Proof/Syntax.lean ====
section
/-! DEFINITION. The twelve commands of BPTE-CS version 1, one constructor per row of spec/opcode_table.json
(30_encoding.md R93), and the pseudo-instruction BPT.INV (R99). -/

namespace Sys2Proof

/-- A command with its used fields. A field is the unsigned number its 7 bits hold (30_encoding.md R92); that it
fits in 7 bits is checked by `Instr.wellFormed`. Fields that must be 0 are not part of the command (R98). -/
inductive Instr where
  /-- NOP (44_control.md R200). -/
  | nop
  /-- CLR (44_control.md R201). -/
  | clr
  /-- XFER (44_control.md R202). -/
  | xfer
  /-- FWV.INIT w: P1 is the declared width (40_fwv.md R120). -/
  | fwvInit (w : Nat)
  /-- FWV.GET i: P2 is the bit index (40_fwv.md R121). -/
  | fwvGet (i : Nat)
  /-- FWV.SET i: P2 is the bit index (40_fwv.md R122). -/
  | fwvSet (i : Nat)
  /-- FWV.SHIN (40_fwv.md R123). -/
  | fwvShin
  /-- BPT.FWD n, w: P1 is the element count, P2 the number of planes (41_bpt.md R140). -/
  | bptFwd (n w : Nat)
  /-- SMP.PACK m: P1 is the element count (42_smp.md R160). -/
  | smpPack (m : Nat)
  /-- SMP.UNPACK m: P1 is the element count (42_smp.md R161). -/
  | smpUnpack (m : Nat)
  /-- BLK.ENC n, b: P1 is pixels_per_block, P2 bits_per_pixel (43_blk.md R180). -/
  | blkEnc (n b : Nat)
  /-- BLK.DEC n, b: P1 is pixels_per_block, P2 bits_per_pixel (43_blk.md R181). -/
  | blkDec (n b : Nat)
  deriving DecidableEq, Repr

/-- BPT.INV n, b, the inverse bit-plane transpose, expands to BPT.FWD b, n (30_encoding.md R99). -/
def Instr.bptInv (n b : Nat) : Instr := .bptFwd b n

end Sys2Proof
end

