-- ==== Sys2Proof/WellFormed.lean ====
section
/-! DEFINITION. Which command terms have an encoding: every used field fits its 7 bits. Values 0 and 65 to 127 are
well-formed, because their errors are raised at execution (30_encoding.md R92, R98). -/

namespace Sys2Proof

/-- A parameter field holds 0 to 127 (30_encoding.md R92). -/
def fitsField (v : Nat) : Bool := decide (v < 128)

/-- Every used field fits; an assembler rejects the rest (30_encoding.md R98). -/
def Instr.wellFormed : Instr → Bool
  | .nop => true
  | .clr => true
  | .xfer => true
  | .fwvInit w => fitsField w
  | .fwvGet i => fitsField i
  | .fwvSet i => fitsField i
  | .fwvShin => true
  | .bptFwd n w => fitsField n && fitsField w
  | .smpPack m => fitsField m
  | .smpUnpack m => fitsField m
  | .blkEnc n b => fitsField n && fitsField b
  | .blkDec n b => fitsField n && fitsField b

end Sys2Proof
end

