-- ==== Sys2Proof/Decode.lean ====
section
/-! DEFINITION. Decoding a CMD value (30_encoding.md R90 to R97), and after it the encoder (R91), the match and mask
table (R94) and the host's entry point decodeTableWord. -/

namespace Sys2Proof

/-- Why a CMD value encodes no command, in the order the checks are taken (30_encoding.md R95, R96). -/
inductive DecodeError where
  /-- One of bits [63:22] is set: cause 0x30. -/
  | rsvBits
  /-- The OPC value is unassigned: cause 0x31. -/
  | badOpc
  /-- A P1 or P2 that must be 0 is not: cause 0x32. -/
  | badField
  deriving DecidableEq, Repr

/-- OPC, bits [7:0] (30_encoding.md R91). -/
def opcField (v : Word) : Nat := (v.extractLsb' 0 8).toNat

/-- P1, bits [14:8], zero-extended (30_encoding.md R91, R92). -/
def p1Field (v : Word) : Nat := (v.extractLsb' 8 7).toNat

/-- P2, bits [21:15], zero-extended (30_encoding.md R91, R92). -/
def p2Field (v : Word) : Nat := (v.extractLsb' 15 7).toNat

/-- RSV and RSVH together, bits [63:22] (30_encoding.md R91). -/
def rsvField (v : Word) : Nat := (v.extractLsb' 22 42).toNat

/-- A command both of whose fields must be 0 (30_encoding.md R93). -/
def decodeNone (p1 p2 : Nat) (i : Instr) : Except DecodeError Instr :=
  if p1 ≠ 0 then .error .badField else if p2 ≠ 0 then .error .badField else .ok i

/-- A command that uses P1 only (30_encoding.md R93). -/
def decodeP1 (p1 p2 : Nat) (make : Nat → Instr) : Except DecodeError Instr :=
  if p2 ≠ 0 then .error .badField else .ok (make p1)

/-- A command that uses P2 only (30_encoding.md R93). -/
def decodeP2 (p1 p2 : Nat) (make : Nat → Instr) : Except DecodeError Instr :=
  if p1 ≠ 0 then .error .badField else .ok (make p2)

/-- The opcode map (30_encoding.md R93): what each OPC value selects, given P1 and P2. Every other OPC value is
unassigned. -/
def decodeFields (opc p1 p2 : Nat) : Except DecodeError Instr :=
  if opc = 0x00 then decodeNone p1 p2 .nop
  else if opc = 0x01 then decodeNone p1 p2 .clr
  else if opc = 0x02 then decodeNone p1 p2 .xfer
  else if opc = 0x10 then decodeP1 p1 p2 .fwvInit
  else if opc = 0x11 then decodeP2 p1 p2 .fwvGet
  else if opc = 0x12 then decodeP2 p1 p2 .fwvSet
  else if opc = 0x13 then decodeNone p1 p2 .fwvShin
  else if opc = 0x20 then .ok (.bptFwd p1 p2)
  else if opc = 0x30 then decodeP1 p1 p2 .smpPack
  else if opc = 0x31 then decodeP1 p1 p2 .smpUnpack
  else if opc = 0x40 then .ok (.blkEnc p1 p2)
  else if opc = 0x41 then .ok (.blkDec p1 p2)
  else .error .badOpc

/-- Decode the 64-bit value written to CMD (30_encoding.md R95): total, the reserved bits checked first. -/
def decode (v : Word) : Except DecodeError Instr :=
  if rsvField v ≠ 0 then .error .rsvBits else decodeFields (opcField v) (p1Field v) (p2Field v)

/-- The encoding formula of 30_encoding.md R91: CMD = zext_64(OPC) | (zext_64(P1) << 8) | (zext_64(P2) << 15). -/
def encodeFields (opc p1 p2 : Nat) : Word :=
  BitVec.ofNat 64 opc ||| (BitVec.ofNat 64 p1 <<< 8) ||| (BitVec.ofNat 64 p2 <<< 15)

/-- The CMD value of a command; fields that must be 0 are 0 (30_encoding.md R91, R93). It is meant for well-formed
commands: a field above 127 has no encoding (R98). -/
def encode : Instr → Word
  | .nop => encodeFields 0x00 0 0
  | .clr => encodeFields 0x01 0 0
  | .xfer => encodeFields 0x02 0 0
  | .fwvInit w => encodeFields 0x10 w 0
  | .fwvGet i => encodeFields 0x11 0 i
  | .fwvSet i => encodeFields 0x12 0 i
  | .fwvShin => encodeFields 0x13 0 0
  | .bptFwd n w => encodeFields 0x20 n w
  | .smpPack m => encodeFields 0x30 m 0
  | .smpUnpack m => encodeFields 0x31 m 0
  | .blkEnc n b => encodeFields 0x40 n b
  | .blkDec n b => encodeFields 0x41 n b

/-- The mnemonic of a command, as the opcode map spells it (30_encoding.md R93). Every word with OPC 0x20 is BPT.FWD
(R99). -/
def Instr.mnemonic : Instr → String
  | .nop => "NOP"
  | .clr => "CLR"
  | .xfer => "XFER"
  | .fwvInit _ => "FWV.INIT"
  | .fwvGet _ => "FWV.GET"
  | .fwvSet _ => "FWV.SET"
  | .fwvShin => "FWV.SHIN"
  | .bptFwd _ _ => "BPT.FWD"
  | .smpPack _ => "SMP.PACK"
  | .smpUnpack _ => "SMP.UNPACK"
  | .blkEnc _ _ => "BLK.ENC"
  | .blkDec _ _ => "BLK.DEC"

/-- One row of the match and mask table: the row selects a CMD value whose masked bits are the pattern
(30_encoding.md R94). -/
structure MatchRow where
  mnemonic : String
  pattern  : Word
  mask     : Word
  deriving DecidableEq, Repr

/-- (CMD & mask) = match (30_encoding.md R94). -/
def MatchRow.selects (r : MatchRow) (v : Word) : Bool := v &&& r.mask == r.pattern

/-- The twelve (match, mask) pairs of 30_encoding.md R93 and R94. -/
def matchTable : List MatchRow :=
  [ ⟨"NOP", 0x00#64, 0xFFFFFFFFFFFFFFFF#64⟩,
    ⟨"CLR", 0x01#64, 0xFFFFFFFFFFFFFFFF#64⟩,
    ⟨"XFER", 0x02#64, 0xFFFFFFFFFFFFFFFF#64⟩,
    ⟨"FWV.INIT", 0x10#64, 0xFFFFFFFFFFFF80FF#64⟩,
    ⟨"FWV.GET", 0x11#64, 0xFFFFFFFFFFC07FFF#64⟩,
    ⟨"FWV.SET", 0x12#64, 0xFFFFFFFFFFC07FFF#64⟩,
    ⟨"FWV.SHIN", 0x13#64, 0xFFFFFFFFFFFFFFFF#64⟩,
    ⟨"BPT.FWD", 0x20#64, 0xFFFFFFFFFFC000FF#64⟩,
    ⟨"SMP.PACK", 0x30#64, 0xFFFFFFFFFFFF80FF#64⟩,
    ⟨"SMP.UNPACK", 0x31#64, 0xFFFFFFFFFFFF80FF#64⟩,
    ⟨"BLK.ENC", 0x40#64, 0xFFFFFFFFFFC000FF#64⟩,
    ⟨"BLK.DEC", 0x41#64, 0xFFFFFFFFFFC000FF#64⟩ ]

/-- The CMD value whose low `nbits` bits are those of `w` and whose other bits are 0. A command is one CMD value and
is not laid out in bytes (30_encoding.md R97). -/
def tableWord (nbits w : Nat) : Word := BitVec.ofNat 64 (w % 2 ^ nbits)

/-- The command this decoder reads from a CMD value given as the opcode table numbers its bits; none where the
decoder refuses the value, or where it has a bit above bit 63. -/
def decodeTableWord (nbits w : Nat) : Option Instr :=
  if w % 2 ^ nbits < 2 ^ 64 then (decode (tableWord nbits w)).toOption else none

end Sys2Proof
end

