-- ==== Sys2Proof/Config.lean ====
section
/-! DEFINITION. What the spec leaves open (00_scope.md R10), each an uninterpreted constant, and the free values a
read of an unwritten buffer word gives. -/

namespace Sys2Proof

/-- Which read of a command's pseudocode a free value belongs to. An unwritten word may give another value at each
read (93_implementation_defined.md U2), so a word that the pseudocode reads twice is read under two passes. -/
inductive ReadPass where
  /-- The read made by a check: the pixel check of BLK.ENC, the popcount of SMP.UNPACK and BLK.DEC. -/
  | check
  /-- The read that fetches the data, and a host read. -/
  | operand
  /-- A word past the compressed block's length, which an unwritten mask word can make Unpack ask for (log 3). -/
  | past
  deriving DecidableEq, Repr

/-- UNINIT_WORD (00_scope.md R10): the value a read of an unwritten IN or OUT word returns. It is a FREE VALUE: it
may differ per word and per read (93_implementation_defined.md U2), and nothing constrains it. `access` is how many
accesses have read an unwritten word before this one, `index` the word's index. Log 2, log 3. -/
opaque Config.uninitWord (access : Nat) (pass : ReadPass) (index : Nat) : Word

/-- Which 4096-byte page of the host's address space holds the window: OPEN (92_eei_decisions.md D3). Log 5. -/
opaque Config.basePage : Nat

/-- BPTE_BASE: any 4096-aligned address (00_scope.md R10, 93_implementation_defined.md U4). -/
def Config.bpteBase : Nat := 4096 * Config.basePage

/-- CMD_LATENCY: the time from a CMD write to its completion, per command word. OPEN, and observed by no rule
(70_reset_and_hazards.md R275), so no definition of the model reads it. Log 7. -/
opaque Config.cmdLatency (command : Word) : Nat

end Sys2Proof
end

