-- ==== Sys2Proof/Machine/State.lean ====
section
/-! DEFINITION. The state of the BPTE (10_state.md R22 to R40), the events the host sends it (20_memory.md R78), and
the state after reset (70_reset_and_hazards.md R260). -/

namespace Sys2Proof.Machine

/-- Reasons a step stops with a fault. -/
inductive Fault where
  /-- A read of an IN or OUT word not written since reset (60_exceptions.md R229). Raised by `strictStep` only, the
  spec's fault reading; `step` goes on with a free value and counts the read in `State.uninitReads` (log 2). Safe. -/
  | uninitRead
  deriving DecidableEq, Repr

/-- Reasons a step has no meaning. -/
inductive Refusal where
  /-- An instruction that has no meaning yet. Raised by no arm of exec. Safe. -/
  | notModelled (mnemonic : String)
  /-- A host access that is not 8 bytes wide at an offset that is a multiple of 8 (20_memory.md R64,
  60_exceptions.md R229, 93_implementation_defined.md U1). Raised by `perform`. Safe (log 4). -/
  | unsupportedAccess (width : Nat) (offset : Offset)
  deriving DecidableEq, Repr

/-- What the outside world does to the BPTE (20_memory.md R78): an access that reaches its port, named by its offset
in the window (R61), or reset. -/
inductive HostEvent where
  /-- A read of `width` bytes at `offset`. -/
  | read (width : Nat) (offset : Offset)
  /-- A write of `width` bytes at `offset`. -/
  | write (width : Nat) (offset : Offset) (data : Word)
  /-- Reset is asserted and released (70_reset_and_hazards.md R260). -/
  | reset
  deriving DecidableEq, Repr

/-- A buffer: the written words as (index, word) pairs, indexes strictly rising. An index that is not listed is an
unwritten word (10_state.md R36). The unit is the 64-bit word, the only one the port reads or writes (20_memory.md
R64, R65). Log 6. -/
abbrev Memory := List (Nat × Word)

/-- The complete state (10_state.md R40): the spec's record, then three fields of the model's own. ID is a constant
and no field. -/
structure State where
  /-- CMD (10_state.md R23). -/
  cmd : Word
  /-- STATUS.ERR (10_state.md R24, 60_exceptions.md R220). -/
  err : BitVec 4
  /-- STATUS.CAUSE (10_state.md R24, 60_exceptions.md R221). -/
  cause : BitVec 8
  /-- STATUS.STICKY (10_state.md R24, R25). -/
  sticky : BitVec 1
  /-- ERRINFO (10_state.md R26). -/
  errInfo : Word
  /-- ARG0 (10_state.md R27). -/
  arg0 : Word
  /-- RESULT (10_state.md R28). -/
  result : Word
  /-- IN_LEN (10_state.md R29). -/
  inLen : Len
  /-- OUT_LEN (10_state.md R30). -/
  outLen : Len
  /-- FWV_VALUE (10_state.md R31). -/
  fwvValue : Word
  /-- FWV_WIDTH (10_state.md R32). -/
  fwvWidth : Len
  /-- IN[0..64] (10_state.md R34, R36). -/
  inBuf : Memory
  /-- OUT[0..64] (10_state.md R35, R36). -/
  outBuf : Memory
  /-- The model's own: how many accesses have read an unwritten word. Nonzero is the UninitRead mark of
  60_exceptions.md R229; it also tells the free values of one access from those of another. Log 2. -/
  uninitReads : Nat
  /-- The model's own: the host's accesses not yet performed, next first (20_memory.md R70). Log 1. -/
  pending : List HostEvent
  /-- The model's own: the values the reads have returned, oldest first (70_reset_and_hazards.md R277). Log 13. -/
  returned : List Word
  deriving DecidableEq, Repr

/-- The state when reset is released (70_reset_and_hazards.md R260, the reset column of 10_state.md R40): every
register 0, every buffer word unwritten. The model's own fields start empty (log 11). -/
def State.reset : State where
  cmd := 0
  err := 0
  cause := 0
  sticky := 0
  errInfo := 0
  arg0 := 0
  result := 0
  inLen := 0
  outLen := 0
  fwvValue := 0
  fwvWidth := 0
  inBuf := []
  outBuf := []
  uninitReads := 0
  pending := []
  returned := []

end Sys2Proof.Machine
end

