-- ==== Sys2Proof/Machine/Flags.lean ====
section
/-! DEFINITION. The STATUS register and the error causes: the codes of 60_exceptions.md R220 and R221, and every
write of STATUS (10_state.md R24, R25; 30_encoding.md R95; 60_exceptions.md R224). -/

namespace Sys2Proof.Machine

/-- The fourteen causes of 60_exceptions.md R221, by their names there. No other is ever produced. -/
inductive Cause where
  /-- P1 of FWV.INIT is not in [1,64]. -/
  | fwvWidth
  /-- ARG0 does not fit the declared width. -/
  | fwvValue
  /-- ARG0 is not 0 or 1. -/
  | bitValue
  /-- No FixedWidthValue has been constructed. -/
  | fwvUninit
  /-- A count P1 is not in [1,64]. -/
  | count
  /-- A width P2 is not in [1,64]. -/
  | width
  /-- A pixel does not fit bits_per_pixel. -/
  | pixel
  /-- A bit index is not below FWV_WIDTH. -/
  | bitIndex
  /-- IN_LEN is over 65. -/
  | inLen
  /-- IN_LEN is 0: the block has no mask word. -/
  | noMask
  /-- The mask counts more elements than the block holds. -/
  | maskCount
  /-- CMD[63:22] is not 0. -/
  | rsvBits
  /-- CMD[7:0] is unassigned. -/
  | badOpc
  /-- A field that must be 0 is not. -/
  | badField
  deriving DecidableEq, Repr

/-- The CAUSE value of each cause (60_exceptions.md R221). -/
def Cause.code : Cause → BitVec 8
  | .fwvWidth => 0x01
  | .fwvValue => 0x02
  | .bitValue => 0x03
  | .fwvUninit => 0x04
  | .count => 0x05
  | .width => 0x06
  | .pixel => 0x07
  | .bitIndex => 0x10
  | .inLen => 0x11
  | .noMask => 0x20
  | .maskCount => 0x21
  | .rsvBits => 0x30
  | .badOpc => 0x31
  | .badField => 0x32

/-- The ERR value of each cause: 1 RANGE, 2 INDEX, 3 CORRUPTION, 4 ILLEGAL (60_exceptions.md R220, R221). -/
def Cause.kind : Cause → BitVec 4
  | .fwvWidth => 1
  | .fwvValue => 1
  | .bitValue => 1
  | .fwvUninit => 1
  | .count => 1
  | .width => 1
  | .pixel => 1
  | .bitIndex => 2
  | .inLen => 2
  | .noMask => 3
  | .maskCount => 3
  | .rsvBits => 4
  | .badOpc => 4
  | .badField => 4

/-- STATUS as the host reads it: STICKY in bit 16, CAUSE in [15:8], ERR in [3:0], the reserved bits 0
(10_state.md R24). -/
def State.statusWord (s : State) : Word :=
  s.sticky.setWidth 64 <<< 16 ||| s.cause.setWidth 64 <<< 8 ||| s.err.setWidth 64

/-- The STATUS writes of a command that completes without a raise (30_encoding.md R95). -/
def State.markOk (s : State) : State := { s with err := 0, cause := 0 }

/-- The STATUS writes of a command that raises (60_exceptions.md R224). -/
def State.markError (c : Cause) (s : State) : State := { s with err := c.kind, cause := c.code, sticky := 1 }

/-- A host write of STATUS: bit 16 set clears STICKY, and nothing else happens (10_state.md R25). -/
def State.writeStatus (v : Word) (s : State) : State := if v.getLsbD 16 then { s with sticky := 0 } else s

end Sys2Proof.Machine
end

