-- ==== Sys2Proof/Machine/Ops.lean ====
section
/-! DEFINITION. The named operations over the buffers and registers, error entry (60_exceptions.md R224), and the
shared functions Transpose, Pack and Unpack (00_scope.md R18). -/

namespace Sys2Proof.Machine

/-! ### Buffers -/

/-- Word `i` of a buffer; none where it is unwritten (10_state.md R36). -/
def Memory.read (m : Memory) (i : Nat) : Option Word :=
  match m with
  | [] => none
  | (k, x) :: t => if i = k then some x else Memory.read t i

/-- Put word `i` into the list at its place. -/
def Memory.insert (m : Memory) (i : Nat) (v : Word) : Memory :=
  match m with
  | [] => [(i, v)]
  | (k, x) :: t =>
    if i < k then (i, v) :: (k, x) :: t else if i = k then (i, v) :: t else (k, x) :: Memory.insert t i v

/-- Write word `i`, which becomes written (10_state.md R36). A buffer has the words 0 to 64 (R34, R35); a write past
them reaches nothing (log 10). -/
def Memory.write (m : Memory) (i : Nat) (v : Word) : Memory := if i < 65 then Memory.insert m i v else m

/-- Write the words of an array from index `i` on (20_memory.md R66). -/
def Memory.writeAll (m : Memory) (i : Nat) (d : List Word) : Memory :=
  match d with
  | [] => m
  | x :: t => Memory.writeAll (Memory.write m i x) (i + 1) t

/-- The indexes are strictly rising, from `lo` on, and below 65. -/
def Memory.wfFrom (lo : Nat) (m : Memory) : Bool :=
  match m with
  | [] => true
  | (i, _) :: t => decide (lo ≤ i) && decide (i < 65) && Memory.wfFrom (i + 1) t

/-- The canonical form of a buffer (log 6). -/
def Memory.wf (m : Memory) : Bool := Memory.wfFrom 0 m

/-! ### Numbers -/

/-- A number of width at most 64 in a word, the other bits 0 (00_scope.md R12). -/
def zext64 (n : Nat) : Word := BitVec.ofNat 64 n

/-- The range [1,64] of every count and width (00_scope.md R8). -/
abbrev InRange (v : Nat) : Prop := 1 ≤ v ∧ v ≤ 64

/-- Shift one bit into a value of width `w`: ((value << 1) | bit) mod 2^w (00_scope.md R19). Exact on unbounded
numbers before the reduction (40_fwv.md R126). -/
def shiftIn (w value bit : Nat) : Nat := (value <<< 1 ||| bit) % 2 ^ w

/-- The number of 1 bits among the low `m` bits of `v` (00_scope.md R12). -/
def popcount (m v : Nat) : Nat :=
  match m with
  | 0 => 0
  | m + 1 => (v.testBit m).toNat + popcount m v

/-! ### Transpose, Pack and Unpack (00_scope.md R18) -/

/-- One output plane: bit `i` of each source word shifted in, from the last word to the first. -/
def plane (src : List Word) (i : Nat) : Nat :=
  src.foldr (fun x acc => shiftIn src.length acc (x.getLsbD i).toNat) 0

/-- Transpose: `w` planes, plane `i` gathering bit `i` of every source word. -/
def transpose (src : List Word) (w : Nat) : List Word := (List.range w).map fun i => zext64 (plane src i)

/-- The presence mask: one shift-in per element, 1 where the element is not 0. -/
def presenceMask (src : List Word) : Nat :=
  src.foldl (fun acc x => shiftIn src.length acc (decide (x ≠ 0#64)).toNat) 0

/-- Pack: the presence mask, then the nonzero elements in index order. Its test and its copy of an element see one value
(log 17). -/
def pack (src : List Word) : List Word := zext64 (presenceMask src) :: src.filter fun x => decide (x ≠ 0#64)

/-- Unpack's loop over the low `m` mask bits from the highest down; `c r` is the next unread element. -/
def unpackFrom (mask : Word) (c : Nat → Word) (m r : Nat) : List Word :=
  match m with
  | 0 => []
  | m + 1 => if mask.getLsbD m then c r :: unpackFrom mask c m (r + 1) else 0#64 :: unpackFrom mask c m r

/-- Unpack: element n is the next stored element where mask bit m-1-n is set, and 0 elsewhere. -/
def unpack (m : Nat) (c : Nat → Word) : List Word := unpackFrom (c 0) c m 1

/-! ### Ending a command -/

/-- ERROR ENTRY, the BPTE's trap entry (60_exceptions.md R224): STATUS and ERRINFO are written and nothing else. There
is no handler, no saved state and no return (R228). -/
def raise (c : Cause) (info : Word) (s : State) : State := { s.markError c with errInfo := info }

/-- Completion without a raise (30_encoding.md R95). ERRINFO and STICKY keep their values (10_state.md R26, R37). -/
def succeed (s : State) : State := s.markOk

/-- An array result: OUT[0..] and OUT_LEN (20_memory.md R66). The words past the result stay (10_state.md R35). -/
def storeOut (d : List Word) (s : State) : State :=
  { s with outBuf := Memory.writeAll s.outBuf 0 d, outLen := BitVec.ofNat 7 d.length }

/-- The cause a decode error raises (30_encoding.md R95). -/
def decodeCause : DecodeError → Cause
  | .rsvBits => .rsvBits
  | .badOpc => .badOpc
  | .badField => .badField

end Sys2Proof.Machine
end

