-- ==== Sys2Proof/Machine/Operands.lean ====
section
/-! DEFINITION. How a command reads its array operands (20_memory.md R66), and what a read of an unwritten word does
(10_state.md R36, 60_exceptions.md R229, 93_implementation_defined.md U2). P1 and P2 are the command's own numbers, and
the scalar operand is ARG0 (30_encoding.md R92). -/

namespace Sys2Proof.Machine

/-- The value a read of IN[i] gives: the word's, or a free value where it is unwritten (93_implementation_defined.md
U2, log 2). -/
def State.inAt (s : State) (pass : ReadPass) (i : Nat) : Word :=
  (Memory.read s.inBuf i).getD (Config.uninitWord s.uninitReads pass i)

/-- The value a read of OUT[i] gives, likewise. -/
def State.outAt (s : State) (i : Nat) : Word :=
  (Memory.read s.outBuf i).getD (Config.uninitWord s.uninitReads .operand i)

/-- The array operand IN[0..n-1] (20_memory.md R66), as one pass reads it. DESIGN CHOICE, log 17: handing the array to
Transpose or Pack reads each word once. -/
def State.inArray (s : State) (pass : ReadPass) (n : Nat) : List Word := (List.range n).map (s.inAt pass)

/-- The array OUT[0..n-1]. -/
def State.outArray (s : State) (n : Nat) : List Word := (List.range n).map s.outAt

/-- Word `r` of a compressed block of length `len` in IN. Past its end there is no word: only an unwritten mask word
can make Unpack ask for one, and the answer is a free value (log 3). -/
def State.blockWord (s : State) (len r : Nat) : Word :=
  if r < len then s.inAt .operand r else Config.uninitWord s.uninitReads .past r

/-- Some word among the first `n` of a buffer is unwritten. -/
def Memory.someUnwritten (m : Memory) (n : Nat) : Bool := (List.range n).any fun i => (Memory.read m i).isNone

/-- Record the UninitRead mark (60_exceptions.md R229) when the access has read an unwritten word. Log 2. -/
def State.noteReads (s : State) (unwritten : Bool) : State :=
  if unwritten then { s with uninitReads := s.uninitReads + 1 } else s

/-- The command has read IN[0..n-1]. -/
def State.noteIn (s : State) (n : Nat) : State := s.noteReads (Memory.someUnwritten s.inBuf n)

/-- The command has read OUT[0..n-1]. -/
def State.noteOut (s : State) (n : Nat) : State := s.noteReads (Memory.someUnwritten s.outBuf n)

/-- The checks SMP.UNPACK and BLK.DEC share, in order, on the compressed block in IN with `m` mask bits, and then the
result `out` makes of the unpacked elements (42_smp.md R161, 43_blk.md R181): IN_LEN over 65, IN_LEN 0, then more mask
bits than elements. L - 1 is evaluated only where L is not 0 (40_fwv.md R126). -/
def decodeBlock (m : Nat) (out : List Word → List Word) (s : State) : State :=
  if 65 < s.inLen.toNat then raise .inLen (zext64 s.inLen.toNat) s
  else if s.inLen.toNat = 0 then raise .noMask 0 s
  else if s.inLen.toNat - 1 < popcount m (s.inAt .check 0).toNat then
    raise .maskCount (zext64 (popcount m (s.inAt .check 0).toNat)) (s.noteIn 1)
  else succeed (storeOut (out (unpack m (s.blockWord s.inLen.toNat)))
    (s.noteIn (1 + popcount m (s.inAt .check 0).toNat)))

end Sys2Proof.Machine
end

