-- ==== Sys2Proof/Machine/Blk.lean ====
section
/-! DEFINITION. The block-codec pipeline commands (43_blk.md R180, R181). The plane array between the two stages is a
temporary of one command. -/

namespace Sys2Proof.Machine

/-- The least index of a pixel that is not below 2^b, if any (43_blk.md R180). Exact on numbers (40_fwv.md R126). -/
def firstWide (b : Nat) (px : List Word) : Option Nat := px.findIdx? fun x => decide (2 ^ b ≤ x.toNat)

/-- BLK.ENC n, b: transpose IN[0..n-1] into b planes and pack them, once every pixel is known to be below 2^b
(43_blk.md R180). The pixel check reads IN[0] up to the first wide pixel, the transpose reads all n words again. -/
def execBlkEnc (n b : Nat) (s : State) : Host.Outcome State Fault Refusal :=
  .next <|
    if ¬ InRange n then raise .count (zext64 n) s
    else if ¬ InRange b then raise .width (zext64 b) s
    else match firstWide b (s.inArray .check n) with
      | some j => raise .pixel (zext64 j) (s.noteIn (j + 1))
      | none => succeed (storeOut (pack (transpose (s.inArray .operand n) b)) (s.noteIn n))

/-- BLK.DEC n, b: unpack the compressed block into b planes and transpose them into n pixels (43_blk.md R181). -/
def execBlkDec (n b : Nat) (s : State) : Host.Outcome State Fault Refusal :=
  .next <|
    if ¬ InRange n then raise .count (zext64 n) s
    else if ¬ InRange b then raise .width (zext64 b) s
    else decodeBlock b (fun planes => transpose planes n) s

end Sys2Proof.Machine
end

