-- ==== Sys2Proof/Machine/Bpt.lean ====
section
/-! DEFINITION. The bit-plane transpose command (41_bpt.md R140). BPT.INV is the same command (30_encoding.md R99). -/

namespace Sys2Proof.Machine

/-- BPT.FWD n, w: the w planes of IN[0..n-1]; input bits at or above w are ignored (41_bpt.md R140). IN_LEN is neither
read nor written. -/
def execBptFwd (n w : Nat) (s : State) : Host.Outcome State Fault Refusal :=
  .next <|
    if ¬ InRange n then raise .count (zext64 n) s
    else if ¬ InRange w then raise .width (zext64 w) s
    else succeed (storeOut (transpose (s.inArray .operand n) w) (s.noteIn n))

end Sys2Proof.Machine
end

