-- ==== Sys2Proof/Machine/Control.lean ====
section
/-! DEFINITION. The housekeeping commands NOP, CLR and XFER (44_control.md R200 to R202). -/

namespace Sys2Proof.Machine

/-- NOP: ERR and CAUSE are cleared, nothing else changes (44_control.md R200). -/
def execNop (s : State) : Host.Outcome State Fault Refusal := .next (succeed s)

/-- CLR: every buffer word is written with 0, and IN_LEN, OUT_LEN and RESULT become 0 (44_control.md R201). -/
def execClr (s : State) : Host.Outcome State Fault Refusal :=
  .next (succeed
    { s with
      inBuf := Memory.writeAll s.inBuf 0 (List.replicate 65 0)
      outBuf := Memory.writeAll s.outBuf 0 (List.replicate 65 0)
      inLen := 0
      outLen := 0
      result := 0 })

/-- XFER: IN[0..OUT_LEN-1] from OUT, and IN_LEN from OUT_LEN (44_control.md R202). -/
def execXfer (s : State) : Host.Outcome State Fault Refusal :=
  .next (succeed
    { s.noteOut s.outLen.toNat with
      inBuf := Memory.writeAll s.inBuf 0 (s.outArray s.outLen.toNat)
      inLen := s.outLen })

end Sys2Proof.Machine
end

