-- ==== Sys2Proof/Machine/Fwv.lean ====
section
/-! DEFINITION. The FixedWidthValue commands (40_fwv.md R120 to R123). They touch no buffer (R124). -/

namespace Sys2Proof.Machine

/-- FWV.INIT w: construct the value ARG0 of width w (40_fwv.md R120). The comparison with 2^w is exact (R126). -/
def execFwvInit (w : Nat) (s : State) : Host.Outcome State Fault Refusal :=
  .next <|
    if ¬ InRange w then raise .fwvWidth (zext64 w) s
    else if 2 ^ w ≤ s.arg0.toNat then raise .fwvValue s.arg0 s
    else succeed { s with fwvWidth := BitVec.ofNat 7 w, fwvValue := s.arg0, result := s.arg0 }

/-- FWV.GET i: RESULT becomes bit i of FWV_VALUE (40_fwv.md R121). -/
def execFwvGet (i : Nat) (s : State) : Host.Outcome State Fault Refusal :=
  .next <|
    if s.fwvWidth = 0 then raise .fwvUninit 0 s
    else if s.fwvWidth.toNat ≤ i then raise .bitIndex (zext64 i) s
    else succeed { s with result := zext64 (s.fwvValue.getLsbD i).toNat }

/-- FWV.SET's new value: bit i replaced by the bit ARG0, the others kept (40_fwv.md R122). -/
def replaceBit (value : Word) (i : Nat) (bit : Word) : Word := value &&& ~~~(1#64 <<< i) ||| bit <<< i

/-- FWV.SET i: bit i of FWV_VALUE becomes ARG0, and RESULT the new value (40_fwv.md R122). -/
def execFwvSet (i : Nat) (s : State) : Host.Outcome State Fault Refusal :=
  .next <|
    if s.fwvWidth = 0 then raise .fwvUninit 0 s
    else if s.fwvWidth.toNat ≤ i then raise .bitIndex (zext64 i) s
    else if 1 < s.arg0.toNat then raise .bitValue s.arg0 s
    else succeed
      { s with fwvValue := replaceBit s.fwvValue i s.arg0, result := replaceBit s.fwvValue i s.arg0 }

/-- FWV.SHIN: ARG0 is shifted in as the lowest bit and the value reduced mod 2^w (40_fwv.md R123). -/
def execFwvShin (s : State) : Host.Outcome State Fault Refusal :=
  .next <|
    if s.fwvWidth = 0 then raise .fwvUninit 0 s
    else if 1 < s.arg0.toNat then raise .bitValue s.arg0 s
    else succeed
      { s with
        fwvValue := zext64 (shiftIn s.fwvWidth.toNat s.fwvValue.toNat s.arg0.toNat)
        result := zext64 (shiftIn s.fwvWidth.toNat s.fwvValue.toNat s.arg0.toNat) }

end Sys2Proof.Machine
end

