-- ==== Sys2Proof/Machine/Smp.lean ====
section
/-! DEFINITION. The sparse-mask packer commands (42_smp.md R160, R161). -/

namespace Sys2Proof.Machine

/-- SMP.PACK m: the presence mask of IN[0..m-1] and its nonzero words (42_smp.md R160). IN_LEN is neither read nor
written. DESIGN CHOICE, log 17: each word is read once, when the array is handed to Pack, so an unwritten word has one
value for Pack's test and Pack's copy. -/
def execSmpPack (m : Nat) (s : State) : Host.Outcome State Fault Refusal :=
  .next <|
    if ¬ InRange m then raise .count (zext64 m) s
    else succeed (storeOut (pack (s.inArray .operand m)) (s.noteIn m))

/-- SMP.UNPACK m: the m elements of the compressed block IN[0..IN_LEN-1] (42_smp.md R161). -/
def execSmpUnpack (m : Nat) (s : State) : Host.Outcome State Fault Refusal :=
  .next <| if ¬ InRange m then raise .count (zext64 m) s else decodeBlock m id s

end Sys2Proof.Machine
end

