-- ==== Sys2Proof/Machine/Dispatch.lean ====
section
/-! DEFINITION. Which meaning each command has (30_encoding.md R93), one arm per constructor of Instr. -/

namespace Sys2Proof.Machine

def exec (i : Instr) (s : State) : Host.Outcome State Fault Refusal :=
  match i with
  | .nop => Sys2Proof.Machine.execNop s
  | .clr => Sys2Proof.Machine.execClr s
  | .xfer => Sys2Proof.Machine.execXfer s
  | .fwvInit w => Sys2Proof.Machine.execFwvInit w s
  | .fwvGet idx => Sys2Proof.Machine.execFwvGet idx s
  | .fwvSet idx => Sys2Proof.Machine.execFwvSet idx s
  | .fwvShin => Sys2Proof.Machine.execFwvShin s
  | .bptFwd n w => Sys2Proof.Machine.execBptFwd n w s
  | .smpPack m => Sys2Proof.Machine.execSmpPack m s
  | .smpUnpack m => Sys2Proof.Machine.execSmpUnpack m s
  | .blkEnc n b => Sys2Proof.Machine.execBlkEnc n b s
  | .blkDec n b => Sys2Proof.Machine.execBlkDec n b s

end Sys2Proof.Machine
end

