-- ==== Sys2Proof/Machine/Port.lean ====
section
/-! DEFINITION. The host port: the address map (20_memory.md R62), reads and writes of the window (R63 to R71), command
execution (30_encoding.md R95), reset (70_reset_and_hazards.md R260), and the host's bus accesses and program lines
(20_memory.md R61, 30_encoding.md R100). -/

namespace Sys2Proof.Machine

/-! ### Address map -/

/-- What stands at an aligned offset of the window (20_memory.md R62). -/
inductive Target where
  | id | cmd | status | errInfo | arg0 | result | inLenReg | outLenReg | fwvValue | fwvWidth
  | inWord (i : Nat)
  | outWord (i : Nat)
  | reserved
  deriving DecidableEq, Repr

/-- The address map (20_memory.md R62). -/
def targetAt (off : Nat) : Target :=
  if off = 0x000 then .id
  else if off = 0x008 then .cmd
  else if off = 0x010 then .status
  else if off = 0x018 then .errInfo
  else if off = 0x020 then .arg0
  else if off = 0x028 then .result
  else if off = 0x030 then .inLenReg
  else if off = 0x038 then .outLenReg
  else if off = 0x040 then .fwvValue
  else if off = 0x048 then .fwvWidth
  else if 0x400 ≤ off ∧ off ≤ 0x600 then .inWord ((off - 0x400) / 8)
  else if 0x800 ≤ off ∧ off ≤ 0xA00 then .outWord ((off - 0x800) / 8)
  else .reserved

/-- The constant ID: "BPTE", version 1, MAXN 64, MAXB 64 (10_state.md R22). -/
def idValue : Word := 0x0040400142505445#64

/-- The only access the BPTE defines: 8 bytes at an offset that is a multiple of 8 (20_memory.md R64). -/
def supported (width : Nat) (off : Offset) : Bool := width == 8 && off.toNat % 8 == 0

/-- Byte lane `k` of a word: bits [8k+7:8k], little-endian (20_memory.md R65). -/
def byteLane (v : Word) (k : Nat) : Byte := v.extractLsb' (8 * k) 8

/-! ### Reads -/

/-- The value at a target; none where it is an unwritten buffer word. Registers narrower than 64 bits read
zero-extended and a reserved offset reads 0 (10_state.md R22 to R35, 20_memory.md R63). -/
def State.peek (s : State) : Target → Option Word
  | .id => some idValue
  | .cmd => some s.cmd
  | .status => some s.statusWord
  | .errInfo => some s.errInfo
  | .arg0 => some s.arg0
  | .result => some s.result
  | .inLenReg => some (s.inLen.setWidth 64)
  | .outLenReg => some (s.outLen.setWidth 64)
  | .fwvValue => some s.fwvValue
  | .fwvWidth => some (s.fwvWidth.setWidth 64)
  | .inWord i => Memory.read s.inBuf i
  | .outWord i => Memory.read s.outBuf i
  | .reserved => some 0

/-- The byte of the window at offset `a`; none where its word is unwritten (20_memory.md R65). -/
def State.peekByte (s : State) (a : Nat) : Option Byte :=
  (s.peek (targetAt (8 * (a / 8)))).map fun v => byteLane v (a % 8)

/-- A host read: the value goes back to the host and nothing else changes (20_memory.md R70, R71). Of an unwritten
word it is a free value, and the UninitRead mark is recorded (60_exceptions.md R229, log 2). -/
def State.readWord (s : State) (off : Offset) : State :=
  { s.noteReads (s.peek (targetAt off.toNat)).isNone with
    returned := s.returned ++
      [(s.peek (targetAt off.toNat)).getD (Config.uninitWord s.uninitReads .operand off.toNat)] }

/-! ### Writes -/

/-- Execute a CMD value (30_encoding.md R95): the command it encodes, or IllegalCommand with the value as info. -/
def execute (v : Word) (s : State) : Host.Outcome State Fault Refusal :=
  match decode v with
  | .ok i => exec i s
  | .error e => .next (raise (decodeCause e) v s)

/-- A host write of CMD: CMD takes the value, then the command runs to completion (10_state.md R23). -/
def State.writeCmd (s : State) (v : Word) : Host.Outcome State Fault Refusal := execute v { s with cmd := v }

/-- A host write at a target. A read-only or reserved target ignores it (20_memory.md R63). -/
def State.writeTarget (s : State) (v : Word) : Target → Host.Outcome State Fault Refusal
  | .cmd => s.writeCmd v
  | .status => .next (s.writeStatus v)
  | .arg0 => .next { s with arg0 := v }
  | .inLenReg => .next { s with inLen := v.extractLsb' 0 7 }
  | .inWord i => .next { s with inBuf := Memory.write s.inBuf i v }
  | .id => .next s
  | .errInfo => .next s
  | .result => .next s
  | .outLenReg => .next s
  | .fwvValue => .next s
  | .fwvWidth => .next s
  | .outWord _ => .next s
  | .reserved => .next s

/-! ### Events -/

/-- Reset: every field of the spec's record takes its reset value (70_reset_and_hazards.md R260). The model's own
fields stay: the UninitRead mark is kept for the rest of the run (93_implementation_defined.md U2). Log 8. -/
def State.doReset (s : State) : State :=
  { State.reset with uninitReads := s.uninitReads, pending := s.pending, returned := s.returned }

/-- Perform one event of the host (20_memory.md R78). An access the BPTE does not define has no step (R64). -/
def perform (e : HostEvent) (s : State) : Host.Outcome State Fault Refusal :=
  match e with
  | .read width off =>
    if supported width off then .next (s.readWord off) else .refused (.unsupportedAccess width off)
  | .write width off data =>
    if supported width off then s.writeTarget data (targetAt off.toNat) else .refused (.unsupportedAccess width off)
  | .reset => .next s.doReset

/-- One step: the port performs the next access (20_memory.md R70). With none pending the BPTE waits, keeping all its
state (60_exceptions.md R247; log 1). -/
def advance (s : State) : Host.Outcome State Fault Refusal :=
  match s.pending with
  | [] => .next s
  | e :: rest => perform e { s with pending := rest }

/-- The spec's fault reading of an unwritten word (60_exceptions.md R229): stop where the step reads one. -/
def strictAdvance (s : State) : Host.Outcome State Fault Refusal :=
  match advance s with
  | .next t => if t.uninitReads = s.uninitReads then .next t else .fault .uninitRead
  | .fault r => .fault r
  | .refused r => .refused r

/-- The next step performs a host write of the given CMD value (30_encoding.md R95). -/
def State.withCommand (s : State) (v : Word) : State := { s with pending := .write 8 0x008 v :: s.pending }

/-! ### The host's side -/

/-- A host access by physical address: MemRead where `data` is none, MemWrite otherwise (00_scope.md R15). -/
structure BusAccess where
  addr  : Nat
  width : Nat
  data  : Option Word
  deriving DecidableEq, Repr

/-- The port event an access makes, by its offset from BPTE_BASE; none for an address outside the window, which is
no BPTE access (20_memory.md R61). Log 5. -/
def BusAccess.toEvent (a : BusAccess) : Option HostEvent :=
  if Config.bpteBase ≤ a.addr ∧ a.addr < Config.bpteBase + 0x1000 then
    match a.data with
    | none => some (.read a.width (BitVec.ofNat 12 (a.addr - Config.bpteBase)))
    | some v => some (.write a.width (BitVec.ofNat 12 (a.addr - Config.bpteBase)) v)
  else none

/-- The register names of a host program (30_encoding.md R100, 20_memory.md R62). -/
inductive RegName where
  | id | cmd | status | errInfo | arg0 | result | inLen | outLen | fwvValue | fwvWidth
  | inWord (i : Fin 65)
  | outWord (i : Fin 65)
  deriving DecidableEq, Repr

/-- The offset of a register or buffer word (20_memory.md R62). -/
def RegName.offset : RegName → Nat
  | .id => 0x000
  | .cmd => 0x008
  | .status => 0x010
  | .errInfo => 0x018
  | .arg0 => 0x020
  | .result => 0x028
  | .inLen => 0x030
  | .outLen => 0x038
  | .fwvValue => 0x040
  | .fwvWidth => 0x048
  | .inWord i => 0x400 + 8 * i.val
  | .outWord i => 0x800 + 8 * i.val

/-- A line of a host program that reaches the BPTE (30_encoding.md R100). -/
inductive HostLine where
  /-- WR REG, v. -/
  | wr (r : RegName) (v : Word)
  /-- WR IN, v0, ..., vk. -/
  | wrIn (vs : List Word)
  /-- RD REG. -/
  | rd (r : RegName)
  /-- CMD mnemonic operands. -/
  | cmd (i : Instr)
  deriving DecidableEq, Repr

/-- The writes of WR IN from index `i` on. -/
def inWrites (i : Nat) (vs : List Word) : List BusAccess :=
  match vs with
  | [] => []
  | v :: t => ⟨Config.bpteBase + (0x400 + 8 * i), 8, some v⟩ :: inWrites (i + 1) t

/-- The accesses of a line, in order (30_encoding.md R100). -/
def HostLine.accesses : HostLine → List BusAccess
  | .wr r v => [⟨Config.bpteBase + r.offset, 8, some v⟩]
  | .wrIn vs => inWrites 0 vs
  | .rd r => [⟨Config.bpteBase + r.offset, 8, none⟩]
  | .cmd i => [⟨Config.bpteBase + RegName.cmd.offset, 8, some (encode i)⟩]

/-- Load a host program: the state with its accesses pending after those already there (70_reset_and_hazards.md
R277). -/
def State.issue (s : State) (p : List HostLine) : State :=
  { s with pending := s.pending ++ (p.flatMap HostLine.accesses).filterMap BusAccess.toEvent }

end Sys2Proof.Machine
end

