-- ==== Sys2Proof/Machine/Step.lean ====
section
/-! DEFINITION. One step of the machine, and the state whose next step runs a given command. -/

namespace Sys2Proof.Machine

/-- One step: the next host event is performed (20_memory.md R70). -/
def step (s : State) : Host.Outcome State Fault Refusal := advance s

/-- One step under the spec's fault reading of unwritten words (60_exceptions.md R229). Log 2. -/
def strictStep (s : State) : Host.Outcome State Fault Refusal := strictAdvance s

/-- The state whose next step is the host's write of the command word `w` of `nbits` bits to CMD. The BPTE fetches
nothing (10_state.md R21), so the write stands for the fetch. Log 1. -/
def State.withFetchWord (s : State) (nbits w : Nat) : State := s.withCommand (tableWord nbits w)

end Sys2Proof.Machine
end

