-- ==== Sys2Proof/Machine/Asm.lean ====
section
/-! DEFINITION. The command syntax of 30_encoding.md R98 and R99: an assembler and a disassembler of one command. -/

namespace Sys2Proof.Machine

/-- Drop leading blanks. -/
def skipBlanks (t : List Char) : List Char :=
  match t with
  | [] => []
  | c :: r => if c = ' ' then skipBlanks r else c :: r

/-- Drop blanks at both ends. -/
def trimBlanks (t : List Char) : List Char := (skipBlanks (skipBlanks t).reverse).reverse

/-- The text up to the first occurrence of a separator, and the text after it. -/
def cutAt (sep : Char) (t : List Char) : List Char × List Char :=
  match t with
  | [] => ([], [])
  | c :: r => if c = sep then ([], r) else ((c :: (cutAt sep r).1), (cutAt sep r).2)

/-- The value of a digit in a base of at most 16. -/
def digitValue (base : Nat) (c : Char) : Option Nat :=
  let v :=
    if '0' ≤ c ∧ c ≤ '9' then c.toNat - '0'.toNat
    else if 'a' ≤ c ∧ c ≤ 'f' then c.toNat - 'a'.toNat + 10
    else if 'A' ≤ c ∧ c ≤ 'F' then c.toNat - 'A'.toNat + 10
    else base
  if v < base then some v else none

/-- Read digits after those read as `acc`. -/
def digitsValue (base acc : Nat) (t : List Char) : Option Nat :=
  match t with
  | [] => some acc
  | c :: r => match digitValue base c with
    | none => none
    | some d => digitsValue base (base * acc + d) r

/-- A number: decimal, or hexadecimal with a 0x prefix (30_encoding.md R98). -/
def parseNumber (t : List Char) : Option Nat :=
  match t with
  | [] => none
  | '0' :: 'x' :: [] => none
  | '0' :: 'x' :: d => digitsValue 16 0 d
  | d => digitsValue 10 0 d

/-- The command a mnemonic and its fields spell (30_encoding.md R98); BPT.INV n, b spells BPT.FWD b, n (R99). -/
def spelled (mnemonic : List Char) (fields : List Nat) : Option Instr :=
  match fields with
  | [] =>
    if mnemonic = "NOP".toList then some .nop
    else if mnemonic = "CLR".toList then some .clr
    else if mnemonic = "XFER".toList then some .xfer
    else if mnemonic = "FWV.SHIN".toList then some .fwvShin
    else none
  | [a] =>
    if mnemonic = "FWV.INIT".toList then some (.fwvInit a)
    else if mnemonic = "FWV.GET".toList then some (.fwvGet a)
    else if mnemonic = "FWV.SET".toList then some (.fwvSet a)
    else if mnemonic = "SMP.PACK".toList then some (.smpPack a)
    else if mnemonic = "SMP.UNPACK".toList then some (.smpUnpack a)
    else none
  | [a, b] =>
    if mnemonic = "BPT.FWD".toList then some (.bptFwd a b)
    else if mnemonic = "BPT.INV".toList then some (.bptInv a b)
    else if mnemonic = "BLK.ENC".toList then some (.blkEnc a b)
    else if mnemonic = "BLK.DEC".toList then some (.blkDec a b)
    else none
  | _ => none

/-- The fields after the mnemonic: none, or one or two numbers separated by commas. -/
def parseFields (t : List Char) : Option (List Nat) :=
  if trimBlanks t = [] then some []
  else if t.contains ',' then
    match parseNumber (trimBlanks (cutAt ',' t).1), parseNumber (trimBlanks (cutAt ',' t).2) with
    | some a, some b => some [a, b]
    | _, _ => none
  else (parseNumber (trimBlanks t)).map fun a => [a]

/-- The command a line of text spells; none where it spells none or a field is above 127 (30_encoding.md R98). -/
def parseCommand (t : List Char) : Option Instr :=
  match parseFields (cutAt ' ' (skipBlanks t)).2 with
  | none => none
  | some fields => match spelled (cutAt ' ' (skipBlanks t)).1 fields with
    | none => none
    | some i => if i.wellFormed then some i else none

/-- The assembler: the CMD value of a line of text (30_encoding.md R98). Log 16. -/
def assemble (text : String) : Option Word := (parseCommand text.toList).map encode

/-- The fields a command writes, P1 first (30_encoding.md R98). -/
def fieldsOf : Instr → List Nat
  | .nop => []
  | .clr => []
  | .xfer => []
  | .fwvInit w => [w]
  | .fwvGet i => [i]
  | .fwvSet i => [i]
  | .fwvShin => []
  | .bptFwd n w => [n, w]
  | .smpPack m => [m]
  | .smpUnpack m => [m]
  | .blkEnc n b => [n, b]
  | .blkDec n b => [n, b]

/-- A command in the syntax of 30_encoding.md R98. -/
def printCommand (i : Instr) : String :=
  match fieldsOf i with
  | [] => i.mnemonic
  | a :: r => r.foldl (fun acc b => acc ++ ", " ++ toString b) (i.mnemonic ++ " " ++ toString a)

/-- The disassembler; it prints every word with OPC 0x20 as BPT.FWD (30_encoding.md R99). -/
def disassemble (v : Word) : Option String := (decode v).toOption.map printCommand

end Sys2Proof.Machine
end

