-- ==== Sys2Proof/Safety.lean ====
section
/-! DEFINITION. The terms claims are stated in: the host's duty on buffer words (70_reset_and_hazards.md R271), the
legal values of the registers (10_state.md R24, R30, R32, R33), and what an error leaves (60_exceptions.md R224). -/

namespace Sys2Proof.Machine

/-- Words 0 to n-1 of a buffer are written (10_state.md R36). -/
def Memory.Written (m : Memory) (n : Nat) : Prop := ∀ i, i < n → Memory.read m i ≠ none

/-- The words a compressed block's decoding reads are written (70_reset_and_hazards.md R271): where the length checks
pass IN[0], and where the mask's popcount passes its check too IN[1..c], with c that popcount. -/
def BlockDuty (m : Nat) (s : State) : Prop :=
  1 ≤ s.inLen.toNat → s.inLen.toNat ≤ 65 → Memory.Written s.inBuf 1 ∧
    (popcount m (s.inAt .check 0).toNat ≤ s.inLen.toNat - 1 →
      Memory.Written s.inBuf (1 + popcount m (s.inAt .check 0).toNat))

/-- The host's duty before a command: every IN word the command reads is written (70_reset_and_hazards.md R271). A command
that raises by a range or length check reads no IN word (42_smp.md R161, 43_blk.md R180). -/
def DutyMet (i : Instr) (s : State) : Prop :=
  match i with
  | .nop => True
  | .clr => True
  | .xfer => True
  | .fwvInit _ => True
  | .fwvGet _ => True
  | .fwvSet _ => True
  | .fwvShin => True
  | .bptFwd n w => InRange n → InRange w → Memory.Written s.inBuf n
  | .smpPack m => InRange m → Memory.Written s.inBuf m
  | .smpUnpack m => InRange m → BlockDuty m s
  | .blkEnc n b => InRange n → InRange b → Memory.Written s.inBuf n
  | .blkDec n b => InRange n → InRange b → BlockDuty b s

/-- No access of the run has read an unwritten word: the UninitRead mark of 60_exceptions.md R229 is not set. A run
that sets it has no meaningful end state (70_reset_and_hazards.md R277). -/
def State.Clean (s : State) : Prop := s.uninitReads = 0

/-- A run has ended: the host's sequence is exhausted (70_reset_and_hazards.md R277). -/
def State.Ended (s : State) : Prop := s.pending = []

/-- A STATUS or ERRINFO record of an error by its numbers (60_exceptions.md R224). -/
def recorded (kind : BitVec 4) (code : BitVec 8) (info : Word) (s : State) : State :=
  { s with err := kind, cause := code, sticky := 1, errInfo := info }

/-- The legal (ERR, CAUSE) pairs (10_state.md R24, 60_exceptions.md R220, R221). -/
def legalStatus : List (BitVec 4 × BitVec 8) :=
  [(0, 0x00), (1, 0x01), (1, 0x02), (1, 0x03), (1, 0x04), (1, 0x05), (1, 0x06), (1, 0x07), (2, 0x10), (2, 0x11),
    (3, 0x20), (3, 0x21), (4, 0x30), (4, 0x31), (4, 0x32)]

/-- ERR and CAUSE hold a legal pair. -/
def State.StatusLegal (s : State) : Prop := (s.err, s.cause) ∈ legalStatus

/-- FWV_VALUE < 2^FWV_WIDTH (10_state.md R33). -/
abbrev State.FwvBound (s : State) : Prop := s.fwvValue.toNat < 2 ^ s.fwvWidth.toNat

/-- FWV_WIDTH is 0 to 64 (10_state.md R32). -/
abbrev State.WidthLegal (s : State) : Prop := s.fwvWidth.toNat ≤ 64

/-- OUT_LEN is 0 to 65 (10_state.md R30), and the words OUT[0..OUT_LEN-1] are written (44_control.md R202). -/
def State.OutLegal (s : State) : Prop := s.outLen.toNat ≤ 65 ∧ Memory.Written s.outBuf s.outLen.toNat

/-- Both buffers are in canonical form (log 6). -/
def State.BuffersWf (s : State) : Prop := Memory.wf s.inBuf = true ∧ Memory.wf s.outBuf = true

/-- The invariant of the machine: every register holds a legal value and the buffers are canonical. -/
def State.Inv (s : State) : Prop :=
  s.StatusLegal ∧ s.FwvBound ∧ s.WidthLegal ∧ s.OutLegal ∧ s.BuffersWf

end Sys2Proof.Machine
end

