-- ==== Sys2Proof/Certificates/Slice0/Obligations.lean ====
section
/-! DEFINITION. The statements for the provers: what the numbered rules of spec/ say, about the model's machine. -/

open Sys2Proof Sys2Proof.Machine

/-! ### Reset and registers -/

/-- Every field of the record has its reset value, and ID is a constant (10_state.md R40). The model's own three fields
start empty (log 11). -/
def Obligations.ResetHoldsTheResetColumn : Prop :=
  core.reset = State.reset ∧
  State.reset.cmd = 0 ∧ State.reset.err = 0 ∧ State.reset.cause = 0 ∧ State.reset.sticky = 0 ∧
  State.reset.errInfo = 0 ∧ State.reset.arg0 = 0 ∧ State.reset.result = 0 ∧ State.reset.inLen = 0 ∧
  State.reset.outLen = 0 ∧ State.reset.fwvValue = 0 ∧ State.reset.fwvWidth = 0 ∧
  (∀ i, Memory.read State.reset.inBuf i = none ∧ Memory.read State.reset.outBuf i = none) ∧
  (∀ s : State, s.peek (targetAt 0x000) = some 0x0040400142505445#64) ∧
  State.reset.uninitReads = 0 ∧ State.reset.pending = [] ∧ State.reset.returned = []

/-- A reset event restores every field of the record from any state, executes no command, and leaves the model's own
fields (70_reset_and_hazards.md R260; log 8). -/
def Obligations.ResetEventRestoresTheRecord : Prop :=
  ∀ (s : State) (rest : List HostEvent), s.pending = .reset :: rest →
    step s = .next
      { State.reset with uninitReads := s.uninitReads, pending := rest, returned := s.returned }

/-- ID: its value, its fields, and that no state changes what it reads (10_state.md R22). -/
def Obligations.IdReadsItsConstant : Prop :=
  ∃ v : Word, (∀ s : State, s.peek (targetAt 0x000) = some v) ∧ v = 0x0040400142505445#64 ∧
    v.extractLsb' 0 32 = 0x42505445#32 ∧ v.extractLsb' 32 8 = 0x01#8 ∧ v.extractLsb' 40 8 = 0x40#8 ∧
    v.extractLsb' 48 8 = 0x40#8 ∧ v.extractLsb' 56 8 = 0x00#8 ∧
    (∀ (s : State) (x : Word) (rest : List HostEvent), s.pending = .write 8 0x000 x :: rest →
      step s = .next { s with pending := rest })

/-- STATUS as the host reads it: ERR in [3:0], CAUSE in [15:8], STICKY in [16], the reserved bits 0 (10_state.md
R24). -/
def Obligations.StatusWordShowsItsFields : Prop :=
  ∀ s : State, ∃ v : Word, s.peek (targetAt 0x010) = some v ∧ v.extractLsb' 0 4 = s.err ∧
    v.extractLsb' 4 4 = 0#4 ∧ v.extractLsb' 8 8 = s.cause ∧ v.extractLsb' 16 1 = s.sticky ∧
    v.extractLsb' 17 47 = 0#47

/-- A STATUS write clears STICKY where bit 16 of the value is 1, and does nothing else (10_state.md R25). -/
def Obligations.StatusWriteClearsStickyOnly : Prop :=
  ∀ (s : State) (v : Word) (rest : List HostEvent), s.pending = .write 8 0x010 v :: rest →
    step s = .next
      { s with pending := rest, sticky := if v.getLsbD 16 = true then 0 else s.sticky }

/-- ERRINFO changes only at reset and when a command raises, and after a raise it holds the info of the cause: the CMD
value where that encodes no command, and else the field, register, popcount or least wide pixel the cause names (where a
word is unwritten, of the value read, log 2); a read returns it, a host write of it is ignored, and reset makes it 0
(10_state.md R26). -/
def Obligations.ErrInfoChangesOnlyOnErrors : Prop :=
  (∀ (i : Instr) (s t : State), exec i s = .next t → t.err = 0 → t.errInfo = s.errInfo) ∧
  (∀ (s t : State) (e : HostEvent) (rest : List HostEvent), s.pending = e :: rest → e ≠ .reset → step s = .next t →
    t.errInfo ≠ s.errInfo → (∃ v, e = .write 8 0x008 v) ∧ t.err ≠ 0) ∧
  (∀ (v : Word) (s t : State) (e : DecodeError), decode v = .error e → execute v s = .next t → t.errInfo = v) ∧
  (∀ (i : Instr) (s t : State), exec i s = .next t → t.err ≠ 0 → match i with
    | .nop | .clr | .xfer => False
    | .fwvInit w => t.errInfo = if t.cause = 0x01 then BitVec.ofNat 64 w else s.arg0
    | .fwvGet idx => t.errInfo = if t.cause = 0x04 then 0 else BitVec.ofNat 64 idx
    | .fwvSet idx =>
      t.errInfo = if t.cause = 0x04 then 0 else if t.cause = 0x10 then BitVec.ofNat 64 idx else s.arg0
    | .fwvShin => t.errInfo = if t.cause = 0x04 then 0 else s.arg0
    | .bptFwd n w => t.errInfo = BitVec.ofNat 64 (if t.cause = 0x05 then n else w)
    | .smpPack m => t.errInfo = BitVec.ofNat 64 m
    | .smpUnpack m => ∃ mask : Word, (∀ x, Memory.read s.inBuf 0 = some x → mask = x) ∧
      t.errInfo = BitVec.ofNat 64 (if t.cause = 0x05 then m else if t.cause = 0x11 then s.inLen.toNat
        else if t.cause = 0x20 then 0 else popcount m mask.toNat)
    | .blkEnc n b => ∃ j, (t.cause = 0x07 → j < n ∧ (∀ x, Memory.read s.inBuf j = some x → 2 ^ b ≤ x.toNat) ∧
        ∀ j' x, j' < j → Memory.read s.inBuf j' = some x → x.toNat < 2 ^ b) ∧
      t.errInfo = BitVec.ofNat 64 (if t.cause = 0x05 then n else if t.cause = 0x06 then b else j)
    | .blkDec n b => ∃ mask : Word, (∀ x, Memory.read s.inBuf 0 = some x → mask = x) ∧
      t.errInfo = BitVec.ofNat 64 (if t.cause = 0x05 then n else if t.cause = 0x06 then b
        else if t.cause = 0x11 then s.inLen.toNat else if t.cause = 0x20 then 0 else popcount b mask.toNat)) ∧
  (∀ (s : State) (v : Word) (rest : List HostEvent), s.pending = .write 8 0x018 v :: rest →
    step s = .next { s with pending := rest }) ∧
  State.reset.errInfo = 0 ∧ (∀ s : State, s.peek (targetAt 0x018) = some s.errInfo)

/-- ARG0: a host write sets it, a read returns it, no command writes it, and reset makes it 0 (10_state.md R27). -/
def Obligations.Arg0IsTheHosts : Prop :=
  (∀ (s : State) (v : Word) (rest : List HostEvent), s.pending = .write 8 0x020 v :: rest →
    step s = .next { s with pending := rest, arg0 := v }) ∧
  (∀ (i : Instr) (s t : State), exec i s = .next t → t.arg0 = s.arg0) ∧
  (∀ s : State, s.peek (targetAt 0x020) = some s.arg0) ∧ State.reset.arg0 = 0

/-- RESULT: which commands write it and with what; a raise leaves it; the host cannot write it (10_state.md R28). -/
def Obligations.ResultWriters : Prop :=
  (∀ (i : Instr) (s t : State), exec i s = .next t →
    (t.err ≠ 0 → t.result = s.result) ∧
    (t.err = 0 → match i with
      | .fwvInit _ => t.result = t.fwvValue
      | .fwvGet idx => t.result = if s.fwvValue.getLsbD idx = true then 1 else 0
      | .fwvSet _ => t.result = t.fwvValue
      | .fwvShin => t.result = t.fwvValue
      | .clr => t.result = 0
      | _ => t.result = s.result)) ∧
  (∀ (s : State) (v : Word) (rest : List HostEvent), s.pending = .write 8 0x028 v :: rest →
    step s = .next { s with pending := rest }) ∧
  (∀ s : State, s.peek (targetAt 0x028) = some s.result) ∧ State.reset.result = 0

/-- IN_LEN: a host write keeps bits [6:0] of the value; XFER and CLR write it; no command other than SMP.UNPACK and
BLK.DEC reads it and no other command than XFER and CLR writes it (10_state.md R29). -/
def Obligations.InLenReadersAndWriters : Prop :=
  (∀ (s : State) (v : Word) (rest : List HostEvent), s.pending = .write 8 0x030 v :: rest →
    step s = .next { s with pending := rest, inLen := BitVec.ofNat 7 (v.toNat % 128) }) ∧
  (∀ s : State, s.peek (targetAt 0x030) = some (BitVec.ofNat 64 s.inLen.toNat)) ∧
  (∀ (i : Instr) (s t : State), exec i s = .next t → i ≠ .xfer → i ≠ .clr → t.inLen = s.inLen) ∧
  (∀ s t : State, exec .xfer s = .next t → t.inLen = s.outLen) ∧
  (∀ s t : State, exec .clr s = .next t → t.inLen = 0) ∧
  (∀ (i : Instr) (s : State) (l : Len), (∀ m, i ≠ .smpUnpack m) → (∀ n b, i ≠ .blkDec n b) →
    ∃ t, exec i s = .next t ∧
      exec i { s with inLen := l } = .next { t with inLen := if i = .xfer ∨ i = .clr then t.inLen else l }) ∧
  State.reset.inLen = 0

/-- OUT_LEN: after a successful array command the number of words of its result (for SMP.PACK and BLK.ENC the mask and
one word for each bit of it, which are the nonzero elements, or the planes with a set bit, of written operands); CLR and
reset make it 0; no other command, no command that raises, and no access but a CMD write changes it; it stays at most 65
(10_state.md R30). -/
def Obligations.OutLenWriters : Prop :=
  (∀ (i : Instr) (s t : State), exec i s = .next t →
    (t.err ≠ 0 → t.outLen = s.outLen) ∧
    (t.err = 0 → match i with
      | .bptFwd _ w => t.outLen.toNat = w
      | .smpPack m => (∃ mask, Memory.read t.outBuf 0 = some mask ∧ t.outLen.toNat = 1 + popcount 64 mask.toNat) ∧
        t.outLen.toNat ≤ 1 + m ∧
        (∀ x : Nat → Word, (∀ p, p < m → Memory.read s.inBuf p = some (x p)) →
          t.outLen.toNat = 1 + (List.range m).countP fun p => decide (x p ≠ 0))
      | .smpUnpack m => t.outLen.toNat = m
      | .blkEnc n b => (∃ mask, Memory.read t.outBuf 0 = some mask ∧ t.outLen.toNat = 1 + popcount 64 mask.toNat) ∧
        t.outLen.toNat ≤ 1 + b ∧
        (∀ x : Nat → Word, (∀ p, p < n → Memory.read s.inBuf p = some (x p)) →
          t.outLen.toNat = 1 + (List.range b).countP fun i => (List.range n).any fun p => (x p).getLsbD i)
      | .blkDec n _ => t.outLen.toNat = n
      | .clr => t.outLen = 0
      | _ => t.outLen = s.outLen)) ∧
  (∀ s t : State, step s = .next t → s.outLen.toNat ≤ 65 → t.outLen.toNat ≤ 65) ∧
  (∀ (s t : State) (e : HostEvent) (rest : List HostEvent), s.pending = e :: rest → e ≠ .reset →
    (∀ v, e ≠ .write 8 0x008 v) → step s = .next t → t.outLen = s.outLen) ∧
  (∀ (s : State) (v : Word) (rest : List HostEvent), s.pending = .write 8 0x038 v :: rest →
    step s = .next { s with pending := rest }) ∧
  (∀ s : State, s.peek (targetAt 0x038) = some (BitVec.ofNat 64 s.outLen.toNat)) ∧ State.reset.outLen = 0

/-- FWV_VALUE and FWV_WIDTH: which commands write them, that a successful FWV.INIT leaves a width of 1 to 64 and
nothing but reset a width of 0 again, and that the host cannot write them (10_state.md R31, R32). -/
def Obligations.FwvRegisterWriters : Prop :=
  (∀ (i : Instr) (s t : State), exec i s = .next t →
    ((∀ w, i ≠ .fwvInit w) → t.fwvWidth = s.fwvWidth) ∧
    ((∀ w, i ≠ .fwvInit w) → (∀ j, i ≠ .fwvSet j) → i ≠ .fwvShin → t.fwvValue = s.fwvValue)) ∧
  (∀ (w : Nat) (s t : State), exec (.fwvInit w) s = .next t → t.err = 0 →
    t.fwvWidth.toNat = w ∧ 1 ≤ w ∧ w ≤ 64) ∧
  (∀ (s t : State) (e : HostEvent) (rest : List HostEvent), s.pending = e :: rest → e ≠ .reset → step s = .next t →
    s.fwvWidth ≠ 0 → t.fwvWidth ≠ 0) ∧
  (∀ (s : State) (v : Word) (off : Offset) (rest : List HostEvent), off = 0x040 ∨ off = 0x048 →
    s.pending = .write 8 off v :: rest → step s = .next { s with pending := rest }) ∧
  (∀ s : State, s.peek (targetAt 0x040) = some s.fwvValue ∧
    s.peek (targetAt 0x048) = some (BitVec.ofNat 64 s.fwvWidth.toNat)) ∧
  State.reset.fwvValue = 0 ∧ State.reset.fwvWidth = 0

/-- FWV_VALUE < 2^FWV_WIDTH at reset, after every step from a state where it holds, and so in every state a host's
accesses reach from reset; a width of 0 means a value of 0 (10_state.md R33). -/
def Obligations.FwvBoundIsKept : Prop :=
  State.reset.FwvBound ∧
  (∀ s : State, s.FwvBound → s.fwvWidth = 0 → s.fwvValue = 0) ∧
  (∀ s t : State, s.FwvBound → step s = .next t → t.FwvBound) ∧
  (∀ (p : List HostEvent) (k : Nat) (t : State), core.run k { State.reset with pending := p } = .next t → t.FwvBound)

/-- The machine's invariant: legal STATUS, FWV bound and width, OUT_LEN at most 65 with OUT[0..OUT_LEN-1] written, and
both buffers canonical (the last is the model's own form, log 6), is kept by every step. -/
def Obligations.EveryStepKeepsTheMachineLegal : Prop :=
  ∀ s t : State, s.Inv → step s = .next t → t.Inv

/-- The invariant holds at reset. -/
def Obligations.ResetIsLegal : Prop := State.reset.Inv

/-! ### The buffers and the port -/

/-- IN[i] at offset 0x400 + 8i: a host write sets that word and no other, a read returns it; of the commands only XFER
and CLR write IN; reset leaves every word unwritten (10_state.md R34). -/
def Obligations.InBufferWriters : Prop :=
  (∀ (s : State) (i : Nat) (v : Word) (rest : List HostEvent), i ≤ 64 →
    s.pending = .write 8 (BitVec.ofNat 12 (0x400 + 8 * i)) v :: rest →
    ∃ m : Memory, step s = .next { s with pending := rest, inBuf := m } ∧
      ∀ j, Memory.read m j = if j = i then some v else Memory.read s.inBuf j) ∧
  (∀ (s : State) (i : Nat), i ≤ 64 → s.peek (targetAt (0x400 + 8 * i)) = Memory.read s.inBuf i) ∧
  (∀ (i : Instr) (s t : State), exec i s = .next t → i ≠ .xfer → i ≠ .clr → t.inBuf = s.inBuf) ∧
  (∀ i, Memory.read State.reset.inBuf i = none)

/-- OUT[i] at offset 0x800 + 8i: the host cannot write it; a successful array command writes OUT[0..OUT_LEN-1] and
leaves the words past them; CLR writes every word; no other command, and no command that raises, writes OUT; an array
command does not write IN (10_state.md R35). -/
def Obligations.OutBufferWriters : Prop :=
  (∀ (s : State) (i : Nat) (v : Word) (rest : List HostEvent), i ≤ 64 →
    s.pending = .write 8 (BitVec.ofNat 12 (0x800 + 8 * i)) v :: rest → step s = .next { s with pending := rest }) ∧
  (∀ (s : State) (i : Nat), i ≤ 64 → s.peek (targetAt (0x800 + 8 * i)) = Memory.read s.outBuf i) ∧
  (∀ (i : Instr) (s t : State), exec i s = .next t →
    (t.err ≠ 0 → t.outBuf = s.outBuf) ∧
    (t.err = 0 → match i with
      | .bptFwd _ _ | .smpPack _ | .smpUnpack _ | .blkEnc _ _ | .blkDec _ _ =>
        (∀ j, j < t.outLen.toNat → Memory.read t.outBuf j ≠ none) ∧
        (∀ j, t.outLen.toNat ≤ j → Memory.read t.outBuf j = Memory.read s.outBuf j) ∧ t.inBuf = s.inBuf
      | .clr => ∀ j, j ≤ 64 → Memory.read t.outBuf j = some 0
      | _ => t.outBuf = s.outBuf)) ∧
  (∀ i, Memory.read State.reset.outBuf i = none)

/-- An aligned 64-bit read of a reserved offset returns 0, and an aligned 64-bit write to a reserved offset or to a
read-only register or buffer word changes no state; both leave every field but the host's list and the returned values;
STATUS is read-only but for its bit 16 (20_memory.md R63). -/
def Obligations.ReservedAndReadOnlyOffsets : Prop :=
  (∀ (s : State) (off : Offset) (rest : List HostEvent), off.toNat % 8 = 0 →
    (0x050 ≤ off.toNat ∧ off.toNat ≤ 0x3F8) ∨ (0x608 ≤ off.toNat ∧ off.toNat ≤ 0x7F8) ∨
      (0xA08 ≤ off.toNat ∧ off.toNat ≤ 0xFF8) →
    s.pending = .read 8 off :: rest → step s = .next { s with pending := rest, returned := s.returned ++ [0] }) ∧
  (∀ (s : State) (off : Offset) (v : Word) (rest : List HostEvent), off.toNat % 8 = 0 →
    (0x050 ≤ off.toNat ∧ off.toNat ≤ 0x3F8) ∨ (0x608 ≤ off.toNat ∧ off.toNat ≤ 0x7F8) ∨
      (0xA08 ≤ off.toNat ∧ off.toNat ≤ 0xFF8) ∨ (0x800 ≤ off.toNat ∧ off.toNat ≤ 0xA00) ∨
      off.toNat ∈ [0x000, 0x018, 0x028, 0x038, 0x040, 0x048] →
    s.pending = .write 8 off v :: rest → step s = .next { s with pending := rest }) ∧
  (∀ (s : State) (v : Word) (rest : List HostEvent), v.getLsbD 16 = false →
    s.pending = .write 8 0x010 v :: rest → step s = .next { s with pending := rest })

/-- The accesses that have a step are exactly those that are 8 bytes wide at an offset that is a multiple of 8
(20_memory.md R64). -/
def Obligations.UnsupportedAccessHasNoStep : Prop :=
  ∀ (s : State) (width : Nat) (off : Offset) (v : Word) (rest : List HostEvent),
    (width ≠ 8 ∨ off.toNat % 8 ≠ 0 →
      (s.pending = .read width off :: rest → step s = .refused (.unsupportedAccess width off)) ∧
      (s.pending = .write width off v :: rest → step s = .refused (.unsupportedAccess width off))) ∧
    (width = 8 ∧ off.toNat % 8 = 0 →
      s.pending = .read width off :: rest ∨ s.pending = .write width off v :: rest → ∃ t, step s = .next t)

/-- Byte k of an access carries bits [8k+7:8k] of the word, and the eight lanes are the word, lowest first
(20_memory.md R65). -/
def Obligations.ByteLanesAreLittleEndian : Prop :=
  (∀ (v : Word) (k j : Nat), k < 8 → j < 8 → (byteLane v k).getLsbD j = v.getLsbD (8 * k + j)) ∧
  (∀ v : Word, v.toNat = ((List.range 8).map fun k => (byteLane v k).toNat * 256 ^ k).sum) ∧
  (∀ (s : State) (a : Nat), s.peekByte a = (s.peek (targetAt (8 * (a / 8)))).map fun v => byteLane v (a % 8))

/-- A read of a written word or a register, whatever the host does next, returns the value the state holds and changes
nothing else; a second read with no write between returns the same value (20_memory.md R70, R71). -/
def Obligations.ReadsAreIdempotent : Prop :=
  ∀ (s : State) (off : Offset) (v : Word) (rest : List HostEvent), off.toNat % 8 = 0 →
    s.peek (targetAt off.toNat) = some v →
    (s.pending = .read 8 off :: rest → step s = .next { s with pending := rest, returned := s.returned ++ [v] }) ∧
    (s.pending = .read 8 off :: .read 8 off :: rest →
      core.run 2 s = .next { s with pending := rest, returned := s.returned ++ [v, v] })

/-- A host read of an unwritten word goes on with some value and sets the UninitRead mark, where the spec's fault
reading stops (60_exceptions.md R229; that the step goes on is the model's choice, log 2). -/
def Obligations.UnwrittenHostReadIsMarked : Prop :=
  ∀ (s : State) (off : Offset) (rest : List HostEvent), off.toNat % 8 = 0 →
    s.peek (targetAt off.toNat) = none → s.pending = .read 8 off :: rest →
    strictStep s = .fault .uninitRead ∧
    ∃ v : Word, step s = .next
      { s with pending := rest, returned := s.returned ++ [v], uninitReads := s.uninitReads + 1 }

/-- The spec's fault reading stops at exactly the steps that set the mark, and agrees with the step elsewhere
(60_exceptions.md R229; log 2). -/
def Obligations.StrictStepStopsAtUninitReads : Prop :=
  ∀ s t : State, step s = .next t → s.uninitReads ≤ t.uninitReads ∧
    (t.uninitReads = s.uninitReads → strictStep s = .next t) ∧
    (t.uninitReads ≠ s.uninitReads → strictStep s = .fault .uninitRead)

/-- Where the host has done its duty on IN words, and OUT[0..OUT_LEN-1] is written, no command reads an unwritten
word (70_reset_and_hazards.md R271, 44_control.md R202). -/
def Obligations.DutyKeepsRunsClean : Prop :=
  ∀ (i : Instr) (s t : State), DutyMet i s → s.OutLegal → exec i s = .next t → t.uninitReads = s.uninitReads

/-- Only reset makes a written word unwritten; ARG0 changes only by a host write of it; CLR is no reset
(70_reset_and_hazards.md R261, 10_state.md R36). -/
def Obligations.OnlyResetUnwrites : Prop :=
  (∀ (s t : State) (e : HostEvent) (rest : List HostEvent), s.pending = e :: rest → e ≠ .reset → step s = .next t →
    (∀ j, Memory.read s.inBuf j ≠ none → Memory.read t.inBuf j ≠ none) ∧
    (∀ j, Memory.read s.outBuf j ≠ none → Memory.read t.outBuf j ≠ none) ∧
    (t.arg0 ≠ s.arg0 → e = .write 8 0x020 t.arg0)) ∧
  (∀ s t : State, exec .clr s = .next t →
    t.arg0 = s.arg0 ∧ t.fwvValue = s.fwvValue ∧ t.fwvWidth = s.fwvWidth ∧ t.errInfo = s.errInfo ∧
    t.sticky = s.sticky ∧ ∀ j, j ≤ 64 → Memory.read t.inBuf j = some 0 ∧ Memory.read t.outBuf j = some 0)

/-- An access names an offset from BPTE_BASE; one outside the 4096 bytes is no BPTE access; every register and buffer
word has 8 bytes of its own at an offset that is a multiple of 8 (20_memory.md R61). -/
def Obligations.BusAccessesReachTheWindow : Prop :=
  (∀ r : RegName, r.offset % 8 = 0 ∧ r.offset + 8 ≤ 0x1000 ∧ ∀ r' : RegName, r'.offset = r.offset → r' = r) ∧
  ∀ a : BusAccess,
    (a.addr < Config.bpteBase ∨ Config.bpteBase + 0x1000 ≤ a.addr → a.toEvent = none) ∧
    (∀ k, k ≤ 0xFFF → a.addr = Config.bpteBase + k → ∃ off : Offset, off.toNat = k ∧
      a.toEvent = some (match a.data with
        | none => .read a.width off
        | some v => .write a.width off v)) ∧
    Config.bpteBase % 4096 = 0

/-- What a host-program line makes the port receive, and the offsets of the register names (30_encoding.md R100). -/
def Obligations.HostLinesMakeTheirAccesses : Prop :=
  [RegName.id, .cmd, .status, .errInfo, .arg0, .result, .inLen, .outLen, .fwvValue, .fwvWidth].map RegName.offset =
    [0x000, 0x008, 0x010, 0x018, 0x020, 0x028, 0x030, 0x038, 0x040, 0x048] ∧
  (∀ i : Fin 65, (RegName.inWord i).offset = 0x400 + 8 * i.val ∧ (RegName.outWord i).offset = 0x800 + 8 * i.val) ∧
  (∀ (s : State) (r : RegName) (v : Word), (s.issue [.wr r v]).pending =
    s.pending ++ [.write 8 (BitVec.ofNat 12 r.offset) v]) ∧
  (∀ (s : State) (r : RegName), (s.issue [.rd r]).pending = s.pending ++ [.read 8 (BitVec.ofNat 12 r.offset)]) ∧
  (∀ (s : State) (i : Instr), (s.issue [.cmd i]).pending = s.pending ++ [.write 8 0x008 (encode i)]) ∧
  (∀ (s : State) (vs : List Word), vs.length ≤ 65 → (s.issue [.wrIn vs]).pending =
    s.pending ++ vs.zipIdx.map fun e => .write 8 (BitVec.ofNat 12 (0x400 + 8 * e.2)) e.1) ∧
  (∀ (s : State) (p q : List HostLine), (s.issue (p ++ q)).pending = ((s.issue p).issue q).pending)

/-- A step performs the next access. A CMD write sets CMD and runs the command the value encodes, or raises
IllegalCommand with the value as info; with nothing pending the machine waits (10_state.md R23, 30_encoding.md R95;
the wait is log 1). -/
def Obligations.StepRunsTheDecodedCommand : Prop :=
  (∀ (s : State) (v : Word) (rest : List HostEvent), s.pending = .write 8 0x008 v :: rest →
    (∀ i, decode v = .ok i → i.wellFormed = true ∧ step s = exec i { s with pending := rest, cmd := v }) ∧
    (∀ e, decode v = .error e → ∃ c, c ∈ [(0x30 : BitVec 8), 0x31, 0x32] ∧
      step s = .next (recorded 4 c v { s with pending := rest, cmd := v }))) ∧
  (∀ s : State, s.peek (targetAt 0x008) = some s.cmd) ∧
  (∀ s : State, s.pending = [] → step s = .next s)

/-! ### Encoding -/

/-- The worked encodings of 30_encoding.md R101, and that each decodes to its command. -/
def Obligations.WorkedEncodings : Prop :=
  ∀ e ∈ [ (Instr.nop, 0x0#64), (.clr, 0x1#64), (.xfer, 0x2#64), (.fwvInit 4, 0x410#64), (.fwvGet 3, 0x18011#64),
      (.fwvSet 1, 0x8012#64), (.fwvShin, 0x13#64), (.bptFwd 6 3, 0x18620#64), (.bptInv 6 3, 0x30320#64),
      (.bptFwd 3 6, 0x30320#64), (.smpPack 4, 0x430#64), (.smpPack 65, 0x4130#64), (.smpUnpack 4, 0x431#64),
      (.blkEnc 6 3, 0x18640#64), (.blkDec 6 3, 0x18641#64), (.blkEnc 64 64, 0x204040#64) ],
    encode e.1 = e.2 ∧ decode e.2 = .ok e.1

/-- Decoding the encoding of a well-formed command gives the command back, with every field at every value. -/
def Obligations.DecodeEncodeRoundTrip : Prop :=
  ∀ i : Instr, i.wellFormed = true → decode (encode i) = .ok i

/-- Every CMD value that decodes is the one encoding of a well-formed command, so no bit of it is dropped. -/
def Obligations.DecodedValuesAreEncodings : Prop :=
  ∀ (v : Word) (i : Instr), decode v = .ok i → i.wellFormed = true ∧ encode i = v

/-- The match and mask table: its twelve rows, that a CMD value decodes to a command exactly where some row selects it,
that the row is the command's, and that no value is selected by two rows (30_encoding.md R94). -/
def Obligations.MatchTableSelectsTheCommand : Prop :=
  (∀ v : Word, (∃ i, decode v = .ok i) ↔ ∃ r ∈ matchTable, v &&& r.mask = r.pattern) ∧
  (∀ (v : Word) (i : Instr) (r : MatchRow), r ∈ matchTable → decode v = .ok i → v &&& r.mask = r.pattern →
    r.mnemonic = i.mnemonic) ∧
  (∀ (v : Word) (r r' : MatchRow), r ∈ matchTable → r' ∈ matchTable → v &&& r.mask = r.pattern →
    v &&& r'.mask = r'.pattern → r = r') ∧
  (matchTable.map fun r => (r.mnemonic, r.pattern, r.mask)) =
    [ ("NOP", 0x00#64, 0xFFFFFFFFFFFFFFFF#64), ("CLR", 0x01#64, 0xFFFFFFFFFFFFFFFF#64),
      ("XFER", 0x02#64, 0xFFFFFFFFFFFFFFFF#64), ("FWV.INIT", 0x10#64, 0xFFFFFFFFFFFF80FF#64),
      ("FWV.GET", 0x11#64, 0xFFFFFFFFFFC07FFF#64), ("FWV.SET", 0x12#64, 0xFFFFFFFFFFC07FFF#64),
      ("FWV.SHIN", 0x13#64, 0xFFFFFFFFFFFFFFFF#64), ("BPT.FWD", 0x20#64, 0xFFFFFFFFFFC000FF#64),
      ("SMP.PACK", 0x30#64, 0xFFFFFFFFFFFF80FF#64), ("SMP.UNPACK", 0x31#64, 0xFFFFFFFFFFFF80FF#64),
      ("BLK.ENC", 0x40#64, 0xFFFFFFFFFFC000FF#64), ("BLK.DEC", 0x41#64, 0xFFFFFFFFFFC000FF#64) ]

/-- Execute: the three illegality checks in order, each recorded with the value as info and nothing else changed, and
otherwise one command, which clears ERR and CAUSE when it completes without a raise (30_encoding.md R95). -/
def Obligations.ExecuteChecksThenPerforms : Prop :=
  ∀ (v : Word) (s : State),
    if v.toNat / 2 ^ 22 ≠ 0 then execute v s = .next (recorded 4 0x30 v s)
    else if v.toNat % 2 ^ 8 ∉ [0x00, 0x01, 0x02, 0x10, 0x11, 0x12, 0x13, 0x20, 0x30, 0x31, 0x40, 0x41] then
      execute v s = .next (recorded 4 0x31 v s)
    else if (v.toNat / 2 ^ 8 % 2 ^ 7 ≠ 0 ∧ v.toNat % 2 ^ 8 ∈ [0x00, 0x01, 0x02, 0x11, 0x12, 0x13]) ∨
        (v.toNat / 2 ^ 15 % 2 ^ 7 ≠ 0 ∧ v.toNat % 2 ^ 8 ∈ [0x00, 0x01, 0x02, 0x10, 0x13, 0x30, 0x31]) then
      execute v s = .next (recorded 4 0x32 v s)
    else ∃ (i : Instr) (t : State), decode v = .ok i ∧ encode i = v ∧ execute v s = exec i s ∧
      exec i s = .next t ∧ (t.sticky = s.sticky ∧ t.err = 0 ∧ t.cause = 0 ∨ t.sticky = 1 ∧ t.err ≠ 0 ∧ t.cause ≠ 0)

/-- BPT.INV n, b assembles to the word with OPC 0x20, P1 = b and P2 = n, with BPT.FWD's meaning: it reads the planes
IN[0..b-1] and writes the n pixels OUT[0..n-1]; and a disassembler prints every word with OPC 0x20 as BPT.FWD
(30_encoding.md R99). -/
def Obligations.InverseIsForwardSwapped : Prop :=
  (∀ n b, n < 128 → b < 128 →
    assemble ("BPT.INV " ++ toString n ++ ", " ++ toString b) = some (BitVec.ofNat 64 (0x20 + b * 2 ^ 8 + n * 2 ^ 15)) ∧
    encode (.bptInv n b) = BitVec.ofNat 64 (0x20 + b * 2 ^ 8 + n * 2 ^ 15)) ∧
  (∀ n b (s : State), exec (.bptInv n b) s = exec (.bptFwd b n) s) ∧
  (∀ (n b : Nat) (s : State) (pl : Nat → Word), 1 ≤ n → n ≤ 64 → 1 ≤ b → b ≤ 64 →
    (∀ i, i < b → Memory.read s.inBuf i = some (pl i)) →
    ∃ t, exec (.bptInv n b) s = .next t ∧ t.err = 0 ∧ t.outLen.toNat = n ∧
      ∀ p, p < n → ∃ d, Memory.read t.outBuf p = some d ∧
        ∀ i, d.getLsbD i = (decide (i < b) && (pl i).getLsbD p)) ∧
  (∀ (v : Word) (i : Instr), decode v = .ok i → v.toNat % 2 ^ 8 = 0x20 →
    ∃ n w, i = .bptFwd n w ∧ disassemble v = some ("BPT.FWD " ++ toString n ++ ", " ++ toString w))

/-- The assembler reads what the disassembler prints: every well-formed command's text assembles to its encoding
(30_encoding.md R98). -/
def Obligations.PrintedCommandsAssemble : Prop :=
  ∀ i : Instr, i.wellFormed = true → assemble (printCommand i) = some (encode i)

/-! ### The commands -/

/-- NOP: the one value that encodes it; it clears ERR and CAUSE and changes nothing else (44_control.md R200). -/
def Obligations.NopClearsErrOnly : Prop :=
  (∀ v : Word, decode v = .ok .nop ↔ v = 0x00) ∧ ∀ s : State, exec .nop s = .next { s with err := 0, cause := 0 }

/-- CLR: the one value that encodes it; all 130 buffer words hold 0, IN_LEN, OUT_LEN and RESULT are 0, ERR and CAUSE
are cleared, and nothing else changes (44_control.md R201). -/
def Obligations.ClrClearsBuffersAndLengths : Prop :=
  (∀ v : Word, decode v = .ok .clr ↔ v = 0x01) ∧
  ∀ s : State, ∃ m m' : Memory,
    exec .clr s = .next
      { s with inBuf := m, outBuf := m', inLen := 0, outLen := 0, result := 0, err := 0, cause := 0 } ∧
    (∀ i, i ≤ 64 → Memory.read m i = some 0 ∧ Memory.read m' i = some 0)

/-- XFER: the one value that encodes it; where OUT_LEN is at most 65 and OUT[0..OUT_LEN-1] is written (an invariant):
IN[0..OUT_LEN-1] take OUT's words, the other IN words stay, IN_LEN takes OUT_LEN, ERR and CAUSE are cleared, and
nothing else changes, the mark included; twice in a row gives the same state as once (44_control.md R202). -/
def Obligations.XferMovesOutToIn : Prop :=
  (∀ v : Word, decode v = .ok .xfer ↔ v = 0x02) ∧
  (∀ s : State, s.OutLegal → ∃ m : Memory,
    exec .xfer s = .next { s with inBuf := m, inLen := s.outLen, err := 0, cause := 0 } ∧
    (∀ i, i < s.outLen.toNat → Memory.read m i = Memory.read s.outBuf i ∧ Memory.read m i ≠ none) ∧
    (∀ i, s.outLen.toNat ≤ i → Memory.read m i = Memory.read s.inBuf i)) ∧
  (∀ s t u : State, s.Inv → exec .xfer s = .next t → exec .xfer t = .next u → u = t)

/-- FWV.INIT: the one value that encodes it, its two errors in order, and its result; every ARG0 fits a width of 64
(40_fwv.md R120). -/
def Obligations.FwvInitConstructs : Prop :=
  ∀ (w : Nat) (s : State), w < 128 →
    (∀ v : Word, decode v = .ok (.fwvInit w) ↔ v = BitVec.ofNat 64 (0x10 + w * 2 ^ 8)) ∧
    (¬ (1 ≤ w ∧ w ≤ 64) → exec (.fwvInit w) s = .next (recorded 1 0x01 (BitVec.ofNat 64 w) s)) ∧
    (1 ≤ w ∧ w ≤ 64 → 2 ^ w ≤ s.arg0.toNat → exec (.fwvInit w) s = .next (recorded 1 0x02 s.arg0 s)) ∧
    (1 ≤ w ∧ w ≤ 64 → s.arg0.toNat < 2 ^ w → ∃ v : Len, v.toNat = w ∧
      exec (.fwvInit w) s = .next
        { s with fwvWidth := v, fwvValue := s.arg0, result := s.arg0, err := 0, cause := 0 }) ∧
    s.arg0.toNat < 2 ^ 64

/-- FWV.GET: the one value that encodes it, its two errors in order, and the bit it reads (40_fwv.md R121). -/
def Obligations.FwvGetReadsOneBit : Prop :=
  ∀ (i : Nat) (s : State), i < 128 →
    (∀ v : Word, decode v = .ok (.fwvGet i) ↔ v = BitVec.ofNat 64 (0x11 + i * 2 ^ 15)) ∧
    (s.fwvWidth.toNat = 0 → exec (.fwvGet i) s = .next (recorded 1 0x04 0 s)) ∧
    (s.fwvWidth.toNat ≠ 0 → s.fwvWidth.toNat ≤ i →
      exec (.fwvGet i) s = .next (recorded 2 0x10 (BitVec.ofNat 64 i) s)) ∧
    (i < s.fwvWidth.toNat → ∃ r : Word, r.toNat = s.fwvValue.toNat / 2 ^ i % 2 ∧
      exec (.fwvGet i) s = .next { s with result := r, err := 0, cause := 0 })

/-- FWV.SET: the one value that encodes it, its three errors in order, and, with FWV_WIDTH at most 64 (an invariant),
the new value: bit i is ARG0 and every other bit is kept (40_fwv.md R122). -/
def Obligations.FwvSetReplacesOneBit : Prop :=
  ∀ (i : Nat) (s : State), i < 128 → s.WidthLegal →
    (∀ v : Word, decode v = .ok (.fwvSet i) ↔ v = BitVec.ofNat 64 (0x12 + i * 2 ^ 15)) ∧
    (s.fwvWidth.toNat = 0 → exec (.fwvSet i) s = .next (recorded 1 0x04 0 s)) ∧
    (s.fwvWidth.toNat ≠ 0 → s.fwvWidth.toNat ≤ i →
      exec (.fwvSet i) s = .next (recorded 2 0x10 (BitVec.ofNat 64 i) s)) ∧
    (i < s.fwvWidth.toNat → 1 < s.arg0.toNat → exec (.fwvSet i) s = .next (recorded 1 0x03 s.arg0 s)) ∧
    (i < s.fwvWidth.toNat → s.arg0.toNat ≤ 1 → ∃ v : Word,
      exec (.fwvSet i) s = .next { s with fwvValue := v, result := v, err := 0, cause := 0 } ∧
      (∀ j, v.getLsbD j = if j = i then decide (s.arg0 = 1) else s.fwvValue.getLsbD j) ∧
      (s.FwvBound → v.toNat < 2 ^ s.fwvWidth.toNat))

/-- FWV.SHIN: the one value that encodes it, its two errors in order, and, with FWV_WIDTH at most 64 (an invariant),
the new value (2 * value + bit) mod 2^w; and w shift-ins of bits c_0, ..., c_(w-1) leave the number they spell,
whatever the old value (40_fwv.md R123). -/
def Obligations.FwvShinShiftsIn : Prop :=
  (∀ s : State, s.WidthLegal →
    (∀ v : Word, decode v = .ok .fwvShin ↔ v = 0x13) ∧
    (s.fwvWidth.toNat = 0 → exec .fwvShin s = .next (recorded 1 0x04 0 s)) ∧
    (s.fwvWidth.toNat ≠ 0 → 1 < s.arg0.toNat → exec .fwvShin s = .next (recorded 1 0x03 s.arg0 s)) ∧
    (s.fwvWidth.toNat ≠ 0 → s.arg0.toNat ≤ 1 → ∃ v : Word,
      v.toNat = (2 * s.fwvValue.toNat + s.arg0.toNat) % 2 ^ s.fwvWidth.toNat ∧
      exec .fwvShin s = .next { s with fwvValue := v, result := v, err := 0, cause := 0 })) ∧
  (∀ (st : Nat → State) (c : Nat → Word) (w : Nat), (st 0).fwvWidth.toNat = w → 1 ≤ w → w ≤ 64 →
    (∀ k, k < w → (c k).toNat ≤ 1 ∧ exec .fwvShin { st k with arg0 := c k } = .next (st (k + 1))) →
    (st w).fwvValue.toNat = ((List.range w).map fun k => (c k).toNat * 2 ^ (w - 1 - k)).sum)

/-- The laws of the FWV unit: what GET returns after SET, the bound, and the boundary rejection of FWV.INIT (40_fwv.md
R125). -/
def Obligations.FwvLaws : Prop :=
  (∀ (i : Nat) (s t : State), 1 ≤ s.fwvWidth.toNat → s.WidthLegal → exec (.fwvSet i) s = .next t → t.err = 0 →
    (∃ u, exec (.fwvGet i) t = .next u ∧ u.err = 0 ∧ u.result = s.arg0) ∧
    (∀ j, j ≠ i → j < s.fwvWidth.toNat → ∃ u u', exec (.fwvGet j) s = .next u ∧ exec (.fwvGet j) t = .next u' ∧
      u.err = 0 ∧ u'.err = 0 ∧ u'.result = u.result)) ∧
  (∀ (i : Instr) (s t : State), s.FwvBound → exec i s = .next t → t.FwvBound) ∧
  (∀ (w : Nat) (s : State), 1 ≤ w → w ≤ 63 → s.arg0 = BitVec.ofNat 64 (2 ^ w) →
    exec (.fwvInit w) s = .next (recorded 1 0x02 s.arg0 s))

/-- No command but FWV.INIT, FWV.GET, FWV.SET and FWV.SHIN reads or writes FWV_VALUE, FWV_WIDTH or RESULT, save that CLR
writes RESULT (40_fwv.md R124). -/
def Obligations.FwvUnitIsIndependent : Prop :=
  ∀ (i : Instr) (s : State) (x r : Word) (w : Len),
    (∀ a, i ≠ .fwvInit a) → (∀ a, i ≠ .fwvGet a) → (∀ a, i ≠ .fwvSet a) → i ≠ .fwvShin →
    ∃ t, exec i s = .next t ∧ t.fwvValue = s.fwvValue ∧ t.fwvWidth = s.fwvWidth ∧
      (i ≠ .clr → t.result = s.result) ∧
      exec i { s with fwvValue := x, fwvWidth := w, result := r } =
        .next { t with fwvValue := x, fwvWidth := w, result := if i = .clr then 0 else r }

/-- BPT.FWD: the one value that encodes it, its two errors in order, and its result on written words: OUT[i][p] =
IN[p][i] for i < w and p < n, OUT[i][63:n] = 0, OUT_LEN = w, the OUT words from w on kept, and nothing else changed;
input bits at or above w are ignored and raise nothing (41_bpt.md R140). -/
def Obligations.BptFwdTransposes : Prop :=
  ∀ (n w : Nat) (s : State), n < 128 → w < 128 →
    (∀ v : Word, decode v = .ok (.bptFwd n w) ↔ v = BitVec.ofNat 64 (0x20 + n * 2 ^ 8 + w * 2 ^ 15)) ∧
    (¬ (1 ≤ n ∧ n ≤ 64) → exec (.bptFwd n w) s = .next (recorded 1 0x05 (BitVec.ofNat 64 n) s)) ∧
    (1 ≤ n ∧ n ≤ 64 → ¬ (1 ≤ w ∧ w ≤ 64) →
      exec (.bptFwd n w) s = .next (recorded 1 0x06 (BitVec.ofNat 64 w) s)) ∧
    (∀ x : Nat → Word, 1 ≤ n ∧ n ≤ 64 → 1 ≤ w ∧ w ≤ 64 → (∀ p, p < n → Memory.read s.inBuf p = some (x p)) →
      ∃ (out : Memory) (len : Len), len.toNat = w ∧
        exec (.bptFwd n w) s = .next { s with outBuf := out, outLen := len, err := 0, cause := 0 } ∧
        (∀ i, i < w → ∃ d, Memory.read out i = some d ∧
          ∀ p, d.getLsbD p = (decide (p < n) && (x p).getLsbD i)) ∧
        (∀ i, w ≤ i → Memory.read out i = Memory.read s.outBuf i))

/-- The inverse law: from written IN words, BPT.FWD n, w; XFER; BPT.INV n, w gives every word back reduced to its low w
bits, so the original words where they are below 2^w (41_bpt.md R141). -/
def Obligations.TransposeInvolution : Prop :=
  ∀ (n w : Nat) (s : State), 1 ≤ n → n ≤ 64 → 1 ≤ w → w ≤ 64 → Memory.Written s.inBuf n →
    ∃ t₁ t₂ t₃ : State, exec (.bptFwd n w) s = .next t₁ ∧ exec .xfer t₁ = .next t₂ ∧
      exec (.bptInv n w) t₂ = .next t₃ ∧ t₁.err = 0 ∧ t₃.err = 0 ∧ t₃.outLen.toNat = n ∧
      t₃.uninitReads = s.uninitReads ∧
      (∀ p x, p < n → Memory.read s.inBuf p = some x →
        Memory.read t₃.outBuf p = some (BitVec.ofNat 64 (x.toNat % 2 ^ w)) ∧
        (x.toNat < 2 ^ w → Memory.read t₃.outBuf p = some x))

/-- SMP.PACK: the one value that encodes it, its error, and its result on written words: OUT[0][m-1-i] tells whether
IN[i] is not 0, OUT[0][63:m] = 0, OUT[1..k] are the nonzero IN words in increasing order, k = popcount(OUT[0]), OUT_LEN
= 1 + k, the OUT words past them kept, and nothing else changed (42_smp.md R160). -/
def Obligations.SmpPackDropsZeros : Prop :=
  ∀ (m : Nat) (s : State), m < 128 →
    (∀ v : Word, decode v = .ok (.smpPack m) ↔ v = BitVec.ofNat 64 (0x30 + m * 2 ^ 8)) ∧
    (¬ (1 ≤ m ∧ m ≤ 64) → exec (.smpPack m) s = .next (recorded 1 0x05 (BitVec.ofNat 64 m) s)) ∧
    (∀ x : Nat → Word, 1 ≤ m ∧ m ≤ 64 → (∀ p, p < m → Memory.read s.inBuf p = some (x p)) →
      ∃ (out : Memory) (len : Len) (mask : Word) (nz : List Word),
        nz = ((List.range m).map x).filter (fun e => decide (e ≠ 0)) ∧ len.toNat = 1 + nz.length ∧
        exec (.smpPack m) s = .next { s with outBuf := out, outLen := len, err := 0, cause := 0 } ∧
        Memory.read out 0 = some mask ∧
        (∀ i, i < m → mask.getLsbD (m - 1 - i) = decide (x i ≠ 0)) ∧
        (∀ j, m ≤ j → mask.getLsbD j = false) ∧
        nz.length = popcount 64 mask.toNat ∧
        (∀ q, q < nz.length → Memory.read out (1 + q) = nz[q]?) ∧
        (∀ i, 1 + nz.length ≤ i → Memory.read out i = Memory.read s.outBuf i))

/-- SMP.UNPACK: the one value that encodes it, its four errors in order, and its result on a written block: element q
is 0 where mask bit m-1-q is 0, and else the next stored word, OUT_LEN = m, the OUT words from m on kept, and nothing
else changed; mask bits at or above m and words past the last element play no part (42_smp.md R161). -/
def Obligations.SmpUnpackRestores : Prop :=
  ∀ (m : Nat) (s : State), m < 128 →
    (∀ v : Word, decode v = .ok (.smpUnpack m) ↔ v = BitVec.ofNat 64 (0x31 + m * 2 ^ 8)) ∧
    (¬ (1 ≤ m ∧ m ≤ 64) → exec (.smpUnpack m) s = .next (recorded 1 0x05 (BitVec.ofNat 64 m) s)) ∧
    (1 ≤ m ∧ m ≤ 64 → 65 < s.inLen.toNat →
      exec (.smpUnpack m) s = .next (recorded 2 0x11 (BitVec.ofNat 64 s.inLen.toNat) s)) ∧
    (1 ≤ m ∧ m ≤ 64 → s.inLen.toNat = 0 → exec (.smpUnpack m) s = .next (recorded 3 0x20 0 s)) ∧
    (∀ mask : Word, 1 ≤ m ∧ m ≤ 64 → 1 ≤ s.inLen.toNat ∧ s.inLen.toNat ≤ 65 → Memory.read s.inBuf 0 = some mask →
      s.inLen.toNat - 1 < popcount m mask.toNat →
      exec (.smpUnpack m) s = .next (recorded 3 0x21 (BitVec.ofNat 64 (popcount m mask.toNat)) s)) ∧
    (∀ (mask : Word) (x : Nat → Word), 1 ≤ m ∧ m ≤ 64 → 1 ≤ s.inLen.toNat ∧ s.inLen.toNat ≤ 65 →
      Memory.read s.inBuf 0 = some mask → popcount m mask.toNat ≤ s.inLen.toNat - 1 →
      (∀ r, 1 ≤ r → r ≤ popcount m mask.toNat → Memory.read s.inBuf r = some (x r)) →
      ∃ (out : Memory) (len : Len), len.toNat = m ∧
        exec (.smpUnpack m) s = .next { s with outBuf := out, outLen := len, err := 0, cause := 0 } ∧
        (∀ q, q < m → Memory.read out q = some
          (if mask.getLsbD (m - 1 - q) = true then
            x (1 + (List.range q).countP fun j => mask.getLsbD (m - 1 - j))
          else 0)) ∧
        (∀ i, m ≤ i → Memory.read out i = Memory.read s.outBuf i))

/-- The round trip: from any written IN words, SMP.PACK m; XFER; SMP.UNPACK m raises nothing and gives the words back
(42_smp.md R162). -/
def Obligations.PackUnpackRoundTrip : Prop :=
  ∀ (m : Nat) (s : State), 1 ≤ m → m ≤ 64 → Memory.Written s.inBuf m →
    ∃ t₁ t₂ t₃ : State, exec (.smpPack m) s = .next t₁ ∧ exec .xfer t₁ = .next t₂ ∧
      exec (.smpUnpack m) t₂ = .next t₃ ∧ t₁.err = 0 ∧ t₂.inLen = t₁.outLen ∧ t₃.err = 0 ∧ t₃.outLen.toNat = m ∧
      t₃.uninitReads = s.uninitReads ∧
      (∀ p, p < m → Memory.read t₃.outBuf p = Memory.read s.inBuf p)

/-- The compressed length: after a successful SMP.PACK m, OUT_LEN = 1 + popcount(OUT[0]), at most 1 + m, at most 65
(42_smp.md R163). -/
def Obligations.PackedLength : Prop :=
  ∀ (m : Nat) (s t : State), exec (.smpPack m) s = .next t → t.err = 0 →
    ∃ mask, Memory.read t.outBuf 0 = some mask ∧ t.outLen.toNat = 1 + popcount 64 mask.toNat ∧
      t.outLen.toNat ≤ 1 + m ∧ 1 + m ≤ 65

/-- BLK.ENC: the one value that encodes it, its three errors in order, the third with the least wide pixel, and its
result on written pixels: the mask of the b planes and the nonzero planes in order, OUT_LEN = 1 + k, the OUT words past
them kept, and nothing else changed (43_blk.md R180). -/
def Obligations.BlkEncEncodes : Prop :=
  ∀ (n b : Nat) (s : State), n < 128 → b < 128 →
    (∀ v : Word, decode v = .ok (.blkEnc n b) ↔ v = BitVec.ofNat 64 (0x40 + n * 2 ^ 8 + b * 2 ^ 15)) ∧
    (¬ (1 ≤ n ∧ n ≤ 64) → exec (.blkEnc n b) s = .next (recorded 1 0x05 (BitVec.ofNat 64 n) s)) ∧
    (1 ≤ n ∧ n ≤ 64 → ¬ (1 ≤ b ∧ b ≤ 64) →
      exec (.blkEnc n b) s = .next (recorded 1 0x06 (BitVec.ofNat 64 b) s)) ∧
    (∀ (x : Nat → Word) (j : Nat), 1 ≤ n ∧ n ≤ 64 → 1 ≤ b ∧ b ≤ 64 → j < n →
      (∀ p, p ≤ j → Memory.read s.inBuf p = some (x p)) → 2 ^ b ≤ (x j).toNat →
      (∀ p, p < j → (x p).toNat < 2 ^ b) →
      exec (.blkEnc n b) s = .next (recorded 1 0x07 (BitVec.ofNat 64 j) s)) ∧
    (∀ x : Nat → Word, 1 ≤ n ∧ n ≤ 64 → 1 ≤ b ∧ b ≤ 64 →
      (∀ p, p < n → Memory.read s.inBuf p = some (x p) ∧ (x p).toNat < 2 ^ b) →
      ∃ (out : Memory) (len : Len) (mask : Word) (planes nz : List Word),
        planes.length = b ∧
        (∀ i, i < b → ∀ p, (planes.getD i 0).getLsbD p = (decide (p < n) && (x p).getLsbD i)) ∧
        nz = planes.filter (fun e => decide (e ≠ 0)) ∧ len.toNat = 1 + nz.length ∧
        exec (.blkEnc n b) s = .next { s with outBuf := out, outLen := len, err := 0, cause := 0 } ∧
        Memory.read out 0 = some mask ∧
        (∀ i, i < b → mask.getLsbD (b - 1 - i) = decide (planes.getD i 0 ≠ 0)) ∧
        (∀ j, b ≤ j → mask.getLsbD j = false) ∧
        (∀ q, q < nz.length → Memory.read out (1 + q) = nz[q]?) ∧
        (∀ i, 1 + nz.length ≤ i → Memory.read out i = Memory.read s.outBuf i))

/-- BLK.DEC: the one value that encodes it, its five errors in order, and its result on a written block: plane q is 0
or the next stored word by the mask, pixel p gathers bit p of every plane and is below 2^b, OUT_LEN = n, the OUT words
from n on kept, and nothing else changed; mask bits at or above b, words past the last plane and plane bits at or above
n play no part (43_blk.md R181). -/
def Obligations.BlkDecDecodes : Prop :=
  ∀ (n b : Nat) (s : State), n < 128 → b < 128 →
    (∀ v : Word, decode v = .ok (.blkDec n b) ↔ v = BitVec.ofNat 64 (0x41 + n * 2 ^ 8 + b * 2 ^ 15)) ∧
    (¬ (1 ≤ n ∧ n ≤ 64) → exec (.blkDec n b) s = .next (recorded 1 0x05 (BitVec.ofNat 64 n) s)) ∧
    (1 ≤ n ∧ n ≤ 64 → ¬ (1 ≤ b ∧ b ≤ 64) →
      exec (.blkDec n b) s = .next (recorded 1 0x06 (BitVec.ofNat 64 b) s)) ∧
    (1 ≤ n ∧ n ≤ 64 → 1 ≤ b ∧ b ≤ 64 → 65 < s.inLen.toNat →
      exec (.blkDec n b) s = .next (recorded 2 0x11 (BitVec.ofNat 64 s.inLen.toNat) s)) ∧
    (1 ≤ n ∧ n ≤ 64 → 1 ≤ b ∧ b ≤ 64 → s.inLen.toNat = 0 →
      exec (.blkDec n b) s = .next (recorded 3 0x20 0 s)) ∧
    (∀ mask : Word, 1 ≤ n ∧ n ≤ 64 → 1 ≤ b ∧ b ≤ 64 → 1 ≤ s.inLen.toNat ∧ s.inLen.toNat ≤ 65 →
      Memory.read s.inBuf 0 = some mask → s.inLen.toNat - 1 < popcount b mask.toNat →
      exec (.blkDec n b) s = .next (recorded 3 0x21 (BitVec.ofNat 64 (popcount b mask.toNat)) s)) ∧
    (∀ (mask : Word) (x : Nat → Word), 1 ≤ n ∧ n ≤ 64 → 1 ≤ b ∧ b ≤ 64 →
      1 ≤ s.inLen.toNat ∧ s.inLen.toNat ≤ 65 →
      Memory.read s.inBuf 0 = some mask → popcount b mask.toNat ≤ s.inLen.toNat - 1 →
      (∀ r, 1 ≤ r → r ≤ popcount b mask.toNat → Memory.read s.inBuf r = some (x r)) →
      ∃ (out : Memory) (len : Len) (plane : Nat → Word), len.toNat = n ∧
        exec (.blkDec n b) s = .next { s with outBuf := out, outLen := len, err := 0, cause := 0 } ∧
        (∀ q, plane q =
          if mask.getLsbD (b - 1 - q) = true then
            x (1 + (List.range q).countP fun j => mask.getLsbD (b - 1 - j))
          else 0) ∧
        (∀ p, p < n → ∃ d, Memory.read out p = some d ∧ d.toNat < 2 ^ b ∧
          ∀ i, d.getLsbD i = (decide (i < b) && (plane i).getLsbD p)) ∧
        (∀ i, n ≤ i → Memory.read out i = Memory.read s.outBuf i))

/-- Composition of the encoder: from written pixels below 2^b, BLK.ENC leaves the OUT_LEN and the OUT[0..OUT_LEN-1] that
BPT.FWD; XFER; SMP.PACK leave; the sequence also writes IN and IN_LEN and leaves planes in OUT, BLK.ENC does neither
(43_blk.md R182, first half). -/
def Obligations.EncodeIsTransposeThenPack : Prop :=
  ∀ (n b : Nat) (s : State), 1 ≤ n → n ≤ 64 → 1 ≤ b → b ≤ 64 →
    (∀ p, p < n → ∃ x, Memory.read s.inBuf p = some x ∧ x.toNat < 2 ^ b) →
    ∃ e t₁ t₂ t₃ : State, exec (.blkEnc n b) s = .next e ∧ exec (.bptFwd n b) s = .next t₁ ∧
      exec .xfer t₁ = .next t₂ ∧ exec (.smpPack b) t₂ = .next t₃ ∧ e.err = 0 ∧ t₁.err = 0 ∧ t₃.err = 0 ∧
      e.outLen = t₃.outLen ∧
      (∀ i, i < e.outLen.toNat → Memory.read e.outBuf i = Memory.read t₃.outBuf i) ∧
      (∀ i, e.outLen.toNat ≤ i → Memory.read e.outBuf i = Memory.read s.outBuf i) ∧
      (∀ i, t₃.outLen.toNat ≤ i → i < b → Memory.read t₃.outBuf i = Memory.read t₁.outBuf i) ∧
      e.inBuf = s.inBuf ∧ e.inLen = s.inLen ∧ t₃.inLen.toNat = b ∧
      (∀ i, i < b → Memory.read t₃.inBuf i = Memory.read t₁.outBuf i)

/-- Composition of the decoder: where BLK.DEC raises nothing and the words it reads are written, it leaves the OUT_LEN
and OUT[0..OUT_LEN-1] that SMP.UNPACK; XFER; BPT.INV leave; the sequence also writes IN and IN_LEN, BLK.DEC does neither
(43_blk.md R182, second half). -/
def Obligations.DecodeIsUnpackThenTranspose : Prop :=
  ∀ (n b : Nat) (s e : State), exec (.blkDec n b) s = .next e → e.err = 0 → DutyMet (.blkDec n b) s →
    ∃ t₁ t₂ t₃ : State, exec (.smpUnpack b) s = .next t₁ ∧ exec .xfer t₁ = .next t₂ ∧
      exec (.bptInv n b) t₂ = .next t₃ ∧ t₁.err = 0 ∧ t₃.err = 0 ∧ e.outLen = t₃.outLen ∧ e.outLen.toNat = n ∧
      (∀ i, i < n → Memory.read e.outBuf i = Memory.read t₃.outBuf i) ∧
      (∀ i, n ≤ i → i < b → Memory.read t₃.outBuf i = Memory.read t₁.outBuf i) ∧
      (∀ i, n ≤ i → Memory.read e.outBuf i = Memory.read s.outBuf i) ∧
      e.inBuf = s.inBuf ∧ e.inLen = s.inLen ∧ t₃.inLen.toNat = b ∧
      (∀ i, i < b → Memory.read t₃.inBuf i = Memory.read t₁.outBuf i)

/-- The end-to-end round trip: from written pixels below 2^b, BLK.ENC n, b; XFER; BLK.DEC n, b raises nothing and gives
the pixels back; and a block with a pixel of 2^b or more makes BLK.ENC raise 0x07 (43_blk.md R183). -/
def Obligations.EncodeDecodeRoundTrip : Prop :=
  (∀ (n b : Nat) (s : State), 1 ≤ n → n ≤ 64 → 1 ≤ b → b ≤ 64 →
    (∀ p, p < n → ∃ x, Memory.read s.inBuf p = some x ∧ x.toNat < 2 ^ b) →
    ∃ t₁ t₂ t₃ : State, exec (.blkEnc n b) s = .next t₁ ∧ exec .xfer t₁ = .next t₂ ∧
      exec (.blkDec n b) t₂ = .next t₃ ∧ t₁.err = 0 ∧ t₃.err = 0 ∧ t₃.outLen.toNat = n ∧
      t₃.uninitReads = s.uninitReads ∧
      (∀ p, p < n → Memory.read t₃.outBuf p = Memory.read s.inBuf p)) ∧
  (∀ (n b : Nat) (s : State), 1 ≤ n → n ≤ 64 → 1 ≤ b → b ≤ 64 → Memory.Written s.inBuf n →
    (∃ p x, p < n ∧ Memory.read s.inBuf p = some x ∧ 2 ^ b ≤ x.toNat) →
    ∃ t, exec (.blkEnc n b) s = .next t ∧ t.err = 1 ∧ t.cause = 0x07)

/-- The output size: after a successful BLK.ENC n, b on written pixels, OUT_LEN = 1 + k with k the number of planes that
have a set bit, so 1 to 1 + b; 1 with a zero mask for an all-zero block, and 1 + b where every plane has a set bit
(43_blk.md R184). -/
def Obligations.EncodedLength : Prop :=
  ∀ (n b : Nat) (s t : State) (x : Nat → Word), (∀ p, p < n → Memory.read s.inBuf p = some (x p)) →
    exec (.blkEnc n b) s = .next t → t.err = 0 →
    t.outLen.toNat = 1 + (List.range b).countP (fun i => (List.range n).any fun p => (x p).getLsbD i) ∧
    1 ≤ t.outLen.toNat ∧ t.outLen.toNat ≤ 1 + b ∧
    ((∀ p, p < n → x p = 0) → t.outLen.toNat = 1 ∧ Memory.read t.outBuf 0 = some 0) ∧
    ((∀ i, i < b → ∃ p, p < n ∧ (x p).getLsbD i = true) → t.outLen.toNat = 1 + b)

/-! ### Errors -/

/-- Error recording: every CMD value's execution completes; one that raises, its host having done its duty on the IN words it
reads, leaves exactly the state before it with the kind, the cause, STICKY and the info written; one that does not raise clears
CAUSE and keeps STICKY and ERRINFO (60_exceptions.md R224). -/
def Obligations.ErrorsArePrecise : Prop :=
  (∀ (v : Word) (s : State), ∃ t, execute v s = .next t) ∧
  (∀ (v : Word) (s t : State), (∀ i, decode v = .ok i → DutyMet i s) → execute v s = .next t → t.err ≠ 0 →
    t = { s with err := t.err, cause := t.cause, sticky := 1, errInfo := t.errInfo }) ∧
  (∀ (v : Word) (s t : State), execute v s = .next t → t.err = 0 →
    t.cause = 0 ∧ t.sticky = s.sticky ∧ t.errInfo = s.errInfo)

/-- Where a command reads unwritten words it still completes, on free values (the model's choice, log 2): BPT.FWD and
SMP.PACK run as they do from a state whose unwritten IN words hold some values (each word read once: the model's choice,
log 17), and every array command changes nothing but OUT, OUT_LEN and STATUS, or STATUS and ERRINFO where it raises. It
adds one to the mark exactly where a word it reads is unwritten: a BLK.ENC that raises 0x07 for pixel j reads IN[0..j] (the
model's choice, log 14), XFER reads OUT[0..OUT_LEN-1], and any other command reads the IN words of the host's duty. -/
def Obligations.UnwrittenOperandsAreFreeValues : Prop :=
  (∀ (i : Instr) (s : State), ((∃ n w, i = .bptFwd n w) ∨ ∃ m, i = .smpPack m) →
    ∃ (m : Memory) (t t' : State) (k : Nat), (∀ j x, Memory.read s.inBuf j = some x → Memory.read m j = some x) ∧
      (∀ j, j ≤ 64 → Memory.read m j ≠ none) ∧ exec i { s with inBuf := m } = .next t' ∧ exec i s = .next t ∧
      t = { t' with inBuf := s.inBuf, uninitReads := s.uninitReads + k } ∧ k ≤ 1 ∧
      (t.err = 0 → (k = 0 ↔ DutyMet i s))) ∧
  (∀ (i : Instr) (s : State), i ≠ .nop → i ≠ .clr → i ≠ .xfer → (∀ w, i ≠ .fwvInit w) → (∀ j, i ≠ .fwvGet j) →
    (∀ j, i ≠ .fwvSet j) → i ≠ .fwvShin → ∃ (t : State) (k : Nat), exec i s = .next t ∧ k ≤ 1 ∧
      (t.err ≠ 0 → t = { recorded t.err t.cause t.errInfo s with uninitReads := s.uninitReads + k }) ∧
      (t.err = 0 → t = { s with
        outBuf := t.outBuf, outLen := t.outLen, err := 0, cause := 0, uninitReads := s.uninitReads + k } ∧
        ∀ j, t.outLen.toNat ≤ j → Memory.read t.outBuf j = Memory.read s.outBuf j) ∧
      (t.cause ≠ 0x07 → (k = 0 ↔ DutyMet i s)) ∧
      (t.cause = 0x07 → (k = 0 ↔ Memory.Written s.inBuf (t.errInfo.toNat + 1)))) ∧
  (∀ s : State, ∃ (t : State) (k : Nat), exec .xfer s = .next t ∧ t.uninitReads = s.uninitReads + k ∧ k ≤ 1 ∧
    (k = 0 ↔ Memory.Written s.outBuf s.outLen.toNat))

/-- The cause table: whenever a CMD value's execution raises, one of the fourteen rows gives its kind, its cause, its
condition, the commands that raise it, and its info, the host having done its duty on the IN words it reads; and CAUSE is 0
exactly where ERR is 0 (60_exceptions.md R221). -/
def Obligations.CauseTableIsComplete : Prop :=
  (∀ (v : Word) (s t : State), execute v s = .next t → (t.err = 0 ↔ t.cause = 0)) ∧
  (∀ (v : Word) (s t : State), (∀ i, decode v = .ok i → DutyMet i s) → execute v s = .next t → t.err ≠ 0 →
    (∃ w, decode v = .ok (.fwvInit w) ∧ ¬ (1 ≤ w ∧ w ≤ 64) ∧
      (t.err, t.cause, t.errInfo) = (1, 0x01, BitVec.ofNat 64 w)) ∨
    (∃ w, decode v = .ok (.fwvInit w) ∧ 2 ^ w ≤ s.arg0.toNat ∧ (t.err, t.cause, t.errInfo) = (1, 0x02, s.arg0)) ∨
    (((∃ i, decode v = .ok (.fwvSet i)) ∨ decode v = .ok .fwvShin) ∧ 1 < s.arg0.toNat ∧
      (t.err, t.cause, t.errInfo) = (1, 0x03, s.arg0)) ∨
    (((∃ i, decode v = .ok (.fwvGet i) ∨ decode v = .ok (.fwvSet i)) ∨ decode v = .ok .fwvShin) ∧ s.fwvWidth = 0 ∧
      (t.err, t.cause, t.errInfo) = (1, 0x04, 0)) ∨
    (∃ n, ((∃ w, decode v = .ok (.bptFwd n w) ∨ decode v = .ok (.blkEnc n w) ∨ decode v = .ok (.blkDec n w)) ∨
        decode v = .ok (.smpPack n) ∨ decode v = .ok (.smpUnpack n)) ∧ ¬ (1 ≤ n ∧ n ≤ 64) ∧
      (t.err, t.cause, t.errInfo) = (1, 0x05, BitVec.ofNat 64 n)) ∨
    (∃ n w, (decode v = .ok (.bptFwd n w) ∨ decode v = .ok (.blkEnc n w) ∨ decode v = .ok (.blkDec n w)) ∧
      ¬ (1 ≤ w ∧ w ≤ 64) ∧ (t.err, t.cause, t.errInfo) = (1, 0x06, BitVec.ofNat 64 w)) ∨
    (∃ n b j x, decode v = .ok (.blkEnc n b) ∧ j < n ∧ Memory.read s.inBuf j = some x ∧ 2 ^ b ≤ x.toNat ∧
      (∀ j' y, j' < j → Memory.read s.inBuf j' = some y → y.toNat < 2 ^ b) ∧
      (t.err, t.cause, t.errInfo) = (1, 0x07, BitVec.ofNat 64 j)) ∨
    (∃ i, (decode v = .ok (.fwvGet i) ∨ decode v = .ok (.fwvSet i)) ∧ s.fwvWidth.toNat ≤ i ∧
      (t.err, t.cause, t.errInfo) = (2, 0x10, BitVec.ofNat 64 i)) ∨
    (((∃ m, decode v = .ok (.smpUnpack m)) ∨ ∃ n b, decode v = .ok (.blkDec n b)) ∧ 65 < s.inLen.toNat ∧
      (t.err, t.cause, t.errInfo) = (2, 0x11, BitVec.ofNat 64 s.inLen.toNat)) ∨
    (((∃ m, decode v = .ok (.smpUnpack m)) ∨ ∃ n b, decode v = .ok (.blkDec n b)) ∧ s.inLen.toNat = 0 ∧
      (t.err, t.cause, t.errInfo) = (3, 0x20, 0)) ∨
    (∃ m mask, (decode v = .ok (.smpUnpack m) ∨ ∃ n, decode v = .ok (.blkDec n m)) ∧
      Memory.read s.inBuf 0 = some mask ∧ s.inLen.toNat - 1 < popcount m mask.toNat ∧
      (t.err, t.cause, t.errInfo) = (3, 0x21, BitVec.ofNat 64 (popcount m mask.toNat))) ∨
    (v.toNat / 2 ^ 22 ≠ 0 ∧ (t.err, t.cause, t.errInfo) = (4, 0x30, v)) ∨
    (v.toNat % 2 ^ 8 ∉ [0x00, 0x01, 0x02, 0x10, 0x11, 0x12, 0x13, 0x20, 0x30, 0x31, 0x40, 0x41] ∧
      (t.err, t.cause, t.errInfo) = (4, 0x31, v)) ∨
    (((v.toNat / 2 ^ 8 % 2 ^ 7 ≠ 0 ∧ v.toNat % 2 ^ 8 ∈ [0x00, 0x01, 0x02, 0x11, 0x12, 0x13]) ∨
        (v.toNat / 2 ^ 15 % 2 ^ 7 ≠ 0 ∧ v.toNat % 2 ^ 8 ∈ [0x00, 0x01, 0x02, 0x10, 0x13, 0x30, 0x31])) ∧
      (t.err, t.cause, t.errInfo) = (4, 0x32, v)))

/-- Which causes each command raises, once decoded, and that it does raise each of them; 0 is completion without a raise
(60_exceptions.md R222). -/
def Obligations.CausesByCommand : Prop :=
  (∀ (i : Instr) (s t : State), exec i s = .next t →
    match i with
    | .nop | .clr | .xfer => t.cause = 0
    | .fwvInit _ => t.cause ∈ [0x00, 0x01, 0x02]
    | .fwvGet _ => t.cause ∈ [0x00, 0x04, 0x10]
    | .fwvSet _ => t.cause ∈ [0x00, 0x04, 0x10, 0x03]
    | .fwvShin => t.cause ∈ [0x00, 0x04, 0x03]
    | .bptFwd _ _ => t.cause ∈ [0x00, 0x05, 0x06]
    | .smpPack _ => t.cause ∈ [0x00, 0x05]
    | .smpUnpack _ => t.cause ∈ [0x00, 0x05, 0x11, 0x20, 0x21]
    | .blkEnc _ _ => t.cause ∈ [0x00, 0x05, 0x06, 0x07]
    | .blkDec _ _ => t.cause ∈ [0x00, 0x05, 0x06, 0x11, 0x20, 0x21]) ∧
  (∀ (v : Word) (s t : State) (e : DecodeError), decode v = .error e → execute v s = .next t →
    t.cause ∈ [0x30, 0x31, 0x32]) ∧
  (∀ c ∈ [(0x01 : BitVec 8), 0x02], ∃ w s t, exec (.fwvInit w) s = .next t ∧ t.cause = c) ∧
  (∀ c ∈ [(0x04 : BitVec 8), 0x10], ∃ i s t, exec (.fwvGet i) s = .next t ∧ t.cause = c) ∧
  (∀ c ∈ [(0x04 : BitVec 8), 0x10, 0x03], ∃ i s t, exec (.fwvSet i) s = .next t ∧ t.cause = c) ∧
  (∀ c ∈ [(0x04 : BitVec 8), 0x03], ∃ s t, exec .fwvShin s = .next t ∧ t.cause = c) ∧
  (∀ c ∈ [(0x05 : BitVec 8), 0x06], ∃ n w s t, exec (.bptFwd n w) s = .next t ∧ t.cause = c) ∧
  (∃ m s t, exec (.smpPack m) s = .next t ∧ t.cause = 0x05) ∧
  (∀ c ∈ [(0x05 : BitVec 8), 0x11, 0x20, 0x21], ∃ m s t, exec (.smpUnpack m) s = .next t ∧ t.cause = c) ∧
  (∀ c ∈ [(0x05 : BitVec 8), 0x06, 0x07], ∃ n b s t, exec (.blkEnc n b) s = .next t ∧ t.cause = c) ∧
  (∀ c ∈ [(0x05 : BitVec 8), 0x06, 0x11, 0x20, 0x21], ∃ n b s t, exec (.blkDec n b) s = .next t ∧ t.cause = c) ∧
  (∀ c ∈ [(0x30 : BitVec 8), 0x31, 0x32], ∃ v e s t, decode v = .error e ∧ execute v s = .next t ∧ t.cause = c)

/-- STATUS as flags: every command writes ERR and CAUSE whatever they held; only a raise sets STICKY and only the host,
by a STATUS write or by reset, clears it; no command reads STATUS (10_state.md R37). -/
def Obligations.StatusIsWrittenNeverRead : Prop :=
  (∀ (i : Instr) (s : State) (e : BitVec 4) (c : BitVec 8) (k : BitVec 1), ∃ t, exec i s = .next t ∧
    exec i { s with err := e, cause := c, sticky := k } = .next { t with sticky := if t.err = 0 then k else 1 } ∧
    (t.err = 0 → t.sticky = s.sticky) ∧ (t.err ≠ 0 → t.sticky = 1)) ∧
  (∀ (s t : State) (e : HostEvent) (rest : List HostEvent), s.pending = e :: rest → step s = .next t →
    (s.sticky ≠ 1 → t.sticky = 1 → (∃ v, e = .write 8 0x008 v) ∧ t.err ≠ 0) ∧
    (s.sticky = 1 → t.sticky ≠ 1 → e = .reset ∨ ∃ v : Word, e = .write 8 0x010 v ∧ v.getLsbD 16 = true))
end

