-- ==== Sys2Proof/Laws/Memory.lean ====
section
/-! SUPPORT. The laws of the buffers: a read after a write, and that every operation keeps the canonical form. -/

namespace Sys2Proof.Machine

@[simp] theorem Memory.read_nil (i : Nat) : Memory.read [] i = none := rfl

theorem Memory.read_insert (m : Memory) (i j : Nat) (v : Word) :
    Memory.read (Memory.insert m i v) j = if j = i then some v else Memory.read m j := by
  induction m with
  | nil => simp [Memory.insert, Memory.read]
  | cons e t ih =>
    obtain ⟨k, x⟩ := e
    simp only [Memory.insert]
    split
    · simp [Memory.read]
    · split
      · simp only [Memory.read]; split <;> simp_all
      · simp only [Memory.read, ih]; split <;> split <;> simp_all

/-- A read after a write. -/
theorem Memory.read_write (m : Memory) (i j : Nat) (v : Word) :
    Memory.read (Memory.write m i v) j = if j = i ∧ i < 65 then some v else Memory.read m j := by
  unfold Memory.write
  split
  · rw [Memory.read_insert]; simp_all
  · simp_all

/-- A read after an array write. -/
theorem Memory.read_writeAll (m : Memory) (d : List Word) (i j : Nat) :
    Memory.read (Memory.writeAll m i d) j =
      if i ≤ j ∧ j < i + d.length ∧ j < 65 then d[j - i]? else Memory.read m j := by
  induction d generalizing m i with
  | nil => simp [Memory.writeAll]; omega
  | cons x t ih =>
    rw [Memory.writeAll, ih, Memory.read_write]
    by_cases hj : j = i
    · subst hj
      by_cases h : j < 65 <;> simp [h]
    · by_cases h : i + 1 ≤ j ∧ j < i + 1 + t.length ∧ j < 65
      · have h' : i ≤ j ∧ j < i + (x :: t).length ∧ j < 65 := by simp; omega
        rw [if_pos h, if_pos h']
        have : j - i = (j - (i + 1)) + 1 := by omega
        rw [this]; rfl
      · have h' : ¬ (i ≤ j ∧ j < i + (x :: t).length ∧ j < 65) := by simp; omega
        rw [if_neg h, if_neg h', if_neg (by omega)]

/-- An array written from index 0. -/
theorem Memory.read_store (m : Memory) (d : List Word) (j : Nat) (hd : d.length ≤ 65) :
    Memory.read (Memory.writeAll m 0 d) j = if j < d.length then d[j]? else Memory.read m j := by
  rw [Memory.read_writeAll]
  by_cases h : j < d.length
  · rw [if_pos h, if_pos ⟨Nat.zero_le _, by omega, by omega⟩]; rfl
  · rw [if_neg h, if_neg (by omega)]

theorem Memory.wfFrom_mono (m : Memory) (lo lo' : Nat) (h : lo ≤ lo') (hm : Memory.wfFrom lo' m = true) :
    Memory.wfFrom lo m = true := by
  cases m with
  | nil => rfl
  | cons e t =>
    obtain ⟨k, x⟩ := e
    simp only [Memory.wfFrom, Bool.and_eq_true, decide_eq_true_eq] at hm ⊢
    exact ⟨⟨by omega, hm.1.2⟩, hm.2⟩

theorem Memory.wfFrom_insert (m : Memory) (lo i : Nat) (v : Word) (hi : i < 65) (hlo : lo ≤ i)
    (hm : Memory.wfFrom lo m = true) : Memory.wfFrom lo (Memory.insert m i v) = true := by
  induction m generalizing lo with
  | nil => simp [Memory.insert, Memory.wfFrom, hi, hlo]
  | cons e t ih =>
    obtain ⟨k, x⟩ := e
    simp only [Memory.wfFrom, Bool.and_eq_true, decide_eq_true_eq] at hm
    simp only [Memory.insert]
    split
    · simp only [Memory.wfFrom, Bool.and_eq_true, decide_eq_true_eq]
      exact ⟨⟨hlo, hi⟩, ⟨by omega, hm.1.2⟩, hm.2⟩
    · split
      · subst i
        simp only [Memory.wfFrom, Bool.and_eq_true, decide_eq_true_eq]
        exact ⟨⟨hlo, hi⟩, hm.2⟩
      · simp only [Memory.wfFrom, Bool.and_eq_true, decide_eq_true_eq]
        exact ⟨hm.1, ih (k + 1) (by omega) hm.2⟩

/-- A write keeps the canonical form. -/
theorem Memory.wf_write (m : Memory) (i : Nat) (v : Word) (hm : Memory.wf m = true) :
    Memory.wf (Memory.write m i v) = true := by
  unfold Memory.write
  split
  · exact Memory.wfFrom_insert m 0 i v ‹_› (Nat.zero_le _) hm
  · exact hm

/-- An array write keeps the canonical form. -/
theorem Memory.wf_writeAll (m : Memory) (d : List Word) (i : Nat) (hm : Memory.wf m = true) :
    Memory.wf (Memory.writeAll m i d) = true := by
  induction d generalizing m i with
  | nil => exact hm
  | cons x t ih => exact ih _ _ (Memory.wf_write m i x hm)

/-- The buffers of the state after reset are canonical. -/
theorem Memory.wf_reset : Memory.wf State.reset.inBuf = true ∧ Memory.wf State.reset.outBuf = true := ⟨rfl, rfl⟩

theorem Memory.read_of_wfFrom (m : Memory) (lo i : Nat) (hm : Memory.wfFrom lo m = true) (hi : i < lo ∨ 65 ≤ i) :
    Memory.read m i = none := by
  induction m generalizing lo with
  | nil => rfl
  | cons e t ih =>
    obtain ⟨k, x⟩ := e
    simp only [Memory.wfFrom, Bool.and_eq_true, decide_eq_true_eq] at hm
    rw [Memory.read, if_neg (by omega)]
    exact ih (k + 1) hm.2 (by omega)

/-- A canonical buffer has no word past index 64. -/
theorem Memory.read_past (m : Memory) (i : Nat) (hm : Memory.wf m = true) (hi : 65 ≤ i) : Memory.read m i = none :=
  Memory.read_of_wfFrom m 0 i hm (.inr hi)

/-- Two canonical buffers that read alike are equal. -/
theorem Memory.ext_of_wfFrom (m m' : Memory) (lo : Nat) (hm : Memory.wfFrom lo m = true)
    (hm' : Memory.wfFrom lo m' = true) (h : ∀ i, Memory.read m i = Memory.read m' i) : m = m' := by
  induction m generalizing m' lo with
  | nil =>
    cases m' with
    | nil => rfl
    | cons e t => obtain ⟨k, x⟩ := e; simpa [Memory.read] using h k
  | cons e t ih =>
    obtain ⟨k, x⟩ := e
    cases m' with
    | nil => simpa [Memory.read] using h k
    | cons e' t' =>
      obtain ⟨k', x'⟩ := e'
      simp only [Memory.wfFrom, Bool.and_eq_true, decide_eq_true_eq] at hm hm'
      have hk := h k
      have hk' := h k'
      rw [Memory.read, if_pos rfl, Memory.read] at hk
      rw [Memory.read, Memory.read, if_pos (rfl : k' = k')] at hk'
      have hkk : k = k' := by
        by_contra hne
        rw [if_neg hne] at hk
        rw [if_neg (Ne.symm hne)] at hk'
        rcases Nat.lt_or_gt_of_ne hne with hlt | hgt
        · rw [Memory.read_of_wfFrom t' (k' + 1) k hm'.2 (.inl (by omega))] at hk; cases hk
        · rw [Memory.read_of_wfFrom t (k + 1) k' hm.2 (.inl (by omega))] at hk'; cases hk'
      subst hkk
      rw [if_pos rfl] at hk
      obtain rfl : x = x' := Option.some.inj hk
      refine congrArg _ (ih t' (k + 1) hm.2 hm'.2 fun i => ?_)
      by_cases hi : i = k
      · subst hi
        rw [Memory.read_of_wfFrom t (i + 1) i hm.2 (.inl (by omega)),
          Memory.read_of_wfFrom t' (i + 1) i hm'.2 (.inl (by omega))]
      · simpa [Memory.read, hi] using h i

/-- Equal memories are equal data. -/
theorem Memory.ext_of_wf (m m' : Memory) (hm : Memory.wf m = true) (hm' : Memory.wf m' = true)
    (h : ∀ i, Memory.read m i = Memory.read m' i) : m = m' :=
  Memory.ext_of_wfFrom m m' 0 hm hm' h

/-- A command reads no unwritten word exactly where the words are written. -/
theorem Memory.someUnwritten_eq_false (m : Memory) (n : Nat) :
    Memory.someUnwritten m n = false ↔ Memory.Written m n := by
  simp [Memory.someUnwritten, Memory.Written]

end Sys2Proof.Machine
end

