-- ==== Sys2Proof/Laws/Codec.lean ====
section
/-! SUPPORT. The closed forms of shift-in, popcount, Transpose, Pack and Unpack (00_scope.md R18). -/

namespace Sys2Proof.Machine

/-! ### Numbers -/

@[simp] theorem zext64_toNat (n : Nat) : (zext64 n).toNat = n % 2 ^ 64 := BitVec.toNat_ofNat n 64

theorem zext64_getLsbD (n i : Nat) : (zext64 n).getLsbD i = (decide (i < 64) && n.testBit i) := by
  simp [zext64, BitVec.getLsbD_ofNat]

theorem shiftIn_lt (w v b : Nat) : shiftIn w v b < 2 ^ w := Nat.mod_lt _ (Nat.two_pow_pos w)

theorem shiftIn_testBit (w v : Nat) (b : Bool) (j : Nat) :
    (shiftIn w v b.toNat).testBit j = (decide (j < w) && if j = 0 then b else v.testBit (j - 1)) := by
  simp only [shiftIn, Nat.testBit_mod_two_pow, Nat.testBit_or, Nat.testBit_shiftLeft]
  cases j with
  | zero => cases b <;> simp
  | succ j => cases b <;> simp [Nat.testBit_succ]

/-- Shift-in is doubling and adding, reduced. -/
theorem shiftIn_eq (w v b : Nat) (hb : b ≤ 1) : shiftIn w v b = (2 * v + b) % 2 ^ w := by
  have : v <<< 1 ||| b = 2 * v + b := by
    have := Nat.shiftLeft_add_eq_or_of_lt (a := v) (i := 1) (b := b) (by omega)
    rw [← this, Nat.shiftLeft_eq]; omega
  rw [shiftIn, this]

theorem popcount_le (m v : Nat) : popcount m v ≤ m := by
  induction m with
  | zero => simp [popcount]
  | succ m ih => have := Bool.toNat_le (v.testBit m); simp only [popcount]; omega

theorem popcount_congr (m v v' : Nat) (h : ∀ j, j < m → v.testBit j = v'.testBit j) :
    popcount m v = popcount m v' := by
  induction m with
  | zero => rfl
  | succ m ih => simp only [popcount, h m (by omega), ih fun j hj => h j (by omega)]

/-! ### Transpose -/

theorem foldr_shiftIn_testBit (n i : Nat) (l : List Word) (hl : l.length ≤ n) (p : Nat) :
    (l.foldr (fun x acc => shiftIn n acc (x.getLsbD i).toNat) 0).testBit p =
      (decide (p < l.length) && (l.getD p 0#64).getLsbD i) := by
  induction l generalizing p with
  | nil => simp
  | cons x t ih =>
    rw [List.foldr_cons, shiftIn_testBit]
    cases p with
    | zero => simp at hl ⊢; omega
    | succ p =>
      simp only [List.length_cons] at hl
      rw [Nat.add_sub_cancel, ih (by omega)]
      simp
      intros
      omega

/-- Bit p of a plane is bit i of source word p, and the bits past the count are 0. -/
theorem plane_testBit (src : List Word) (i p : Nat) :
    (plane src i).testBit p = (decide (p < src.length) && (src.getD p 0#64).getLsbD i) :=
  foldr_shiftIn_testBit _ _ _ le_rfl _

theorem plane_lt (src : List Word) (i : Nat) : plane src i < 2 ^ src.length := by
  refine Nat.lt_pow_two_of_testBit _ fun p hp => ?_
  rw [plane_testBit]; simp; omega

@[simp] theorem transpose_length (src : List Word) (w : Nat) : (transpose src w).length = w := by simp [transpose]

/-- The closed form of Transpose: dst[i][p] = src[p][i], and dst[i][63:n] = 0 (00_scope.md R18). -/
theorem transpose_getLsbD (src : List Word) (w i p : Nat) (hn : src.length ≤ 64) (hi : i < w) :
    ((transpose src w).getD i 0#64).getLsbD p = (decide (p < src.length) && (src.getD p 0#64).getLsbD i) := by
  have : (transpose src w).getD i 0#64 = zext64 (plane src i) := by simp [transpose, hi]
  rw [this, zext64_getLsbD, plane_testBit]
  by_cases h : p < src.length
  · simp [h]; intro; omega
  · simp [h]

/-- Transposing twice gives the source back where its words fit the width (41_bpt.md R141, on lists). -/
theorem transpose_transpose (src : List Word) (w : Nat) (hn : src.length ≤ 64) (hw : w ≤ 64)
    (hfit : ∀ p, p < src.length → (src.getD p 0#64).toNat < 2 ^ w) :
    transpose (transpose src w) src.length = src := by
  refine List.ext_getElem (by simp) fun p hp hp' => ?_
  have key : (transpose (transpose src w) src.length).getD p 0#64 = src.getD p 0#64 := by
    refine BitVec.eq_of_getLsbD_eq fun i hi => ?_
    rw [transpose_getLsbD _ _ _ _ (by simpa using hw) hp', transpose_length]
    by_cases hiw : i < w
    · rw [transpose_getLsbD _ _ _ _ hn hiw]; simp [hiw, hp']
    · have : (src.getD p 0#64).getLsbD i = false := by
        rw [BitVec.getLsbD]
        exact Nat.testBit_lt_two_pow (lt_of_lt_of_le (hfit p hp') (Nat.pow_le_pow_right (by omega) (by omega)))
      rw [this]; simp [hiw]
  rwa [List.getD_eq_getElem _ _ hp, List.getD_eq_getElem _ _ hp'] at key

/-! ### Pack -/

theorem foldl_shiftIn_testBit (m : Nat) (l : List Word) (acc : Nat) (j : Nat) (hacc : acc < 2 ^ m) :
    (l.foldl (fun acc x => shiftIn m acc (decide (x ≠ 0#64)).toNat) acc).testBit j =
      (decide (j < m) && if j < l.length then decide (l.getD (l.length - 1 - j) 0#64 ≠ 0#64) else acc.testBit (j - l.length)) := by
  induction l generalizing acc with
  | nil =>
    by_cases h : j < m
    · simp [h]
    · simp only [List.foldl_nil, h, decide_false, Bool.false_and]
      exact Nat.testBit_lt_two_pow (lt_of_lt_of_le hacc (Nat.pow_le_pow_right (by omega) (by omega)))
  | cons x t ih =>
    rw [List.foldl_cons, ih _ (shiftIn_lt _ _ _)]
    by_cases hj : j < t.length
    · have h1 : t.length - j = (t.length - 1 - j) + 1 := by omega
      have hlt : t.length - 1 - j < t.length := by omega
      simp [hj, Nat.lt_succ_of_lt hj, h1]
    · rw [shiftIn_testBit]
      by_cases h2 : j = t.length
      · subst h2
        by_cases h3 : t.length < m
        · have : 0 < m := by omega
          simp [h3, this]
        · simp [h3]
      · have h3 : ¬ j < (x :: t).length := by simp; omega
        have h4 : j - t.length ≠ 0 := by omega
        have h5 : j - t.length - 1 = j - (x :: t).length := by simp; omega
        rw [if_neg hj, if_neg h3, if_neg h4, h5]
        by_cases h6 : j < m
        · have : j - t.length < m := by omega
          simp [h6, this]
        · simp [h6]

/-- Mask bit m-1-i is 1 exactly where element i is not 0 (42_smp.md R164). -/
theorem presenceMask_testBit (src : List Word) (j : Nat) :
    (presenceMask src).testBit j = (decide (j < src.length) && decide (src.getD (src.length - 1 - j) 0#64 ≠ 0#64)) := by
  rw [presenceMask, foldl_shiftIn_testBit _ _ _ _ (Nat.two_pow_pos _)]
  by_cases h : j < src.length <;> simp [h]

theorem presenceMask_lt (src : List Word) : presenceMask src < 2 ^ src.length := by
  refine Nat.lt_pow_two_of_testBit _ fun p hp => ?_
  rw [presenceMask_testBit]; simp; omega

/-- The mask word of a packed array of at most 64 elements is the mask itself. -/
theorem zext64_presenceMask (src : List Word) (h : src.length ≤ 64) :
    (zext64 (presenceMask src)).toNat = presenceMask src := by
  rw [zext64_toNat, Nat.mod_eq_of_lt]
  exact lt_of_lt_of_le (presenceMask_lt src) (Nat.pow_le_pow_right (by omega) h)

/-- A mask whose low bits mark the nonzero elements of a list has as many of them as the list. -/
theorem popcount_of_marks (l : List Word) (mask : Nat)
    (h : ∀ j, j < l.length → mask.testBit j = decide (l.getD (l.length - 1 - j) 0#64 ≠ 0#64)) :
    popcount l.length mask = (l.filter fun x => decide (x ≠ 0#64)).length := by
  induction l with
  | nil => rfl
  | cons x t ih =>
    have hx := h t.length (by simp)
    have ht : ∀ j, j < t.length → mask.testBit j = decide (t.getD (t.length - 1 - j) 0#64 ≠ 0#64) := by
      intro j hj
      have e : t.length - j = (t.length - 1 - j) + 1 := by omega
      simpa [e] using h j (by simp; omega)
    simp only [List.length_cons, popcount, ih ht, hx]
    by_cases h0 : x = 0#64
    · simp [h0]
    · simp [h0]; omega

/-- The popcount of the mask is the number of stored elements (42_smp.md R163). -/
theorem popcount_presenceMask (src : List Word) :
    popcount src.length (presenceMask src) = (src.filter fun x => decide (x ≠ 0#64)).length :=
  popcount_of_marks src _ fun j hj => by rw [presenceMask_testBit]; simp [hj]

theorem pack_length (src : List Word) : (pack src).length = 1 + popcount src.length (presenceMask src) := by
  rw [popcount_presenceMask, pack, List.length_cons, Nat.add_comm]

theorem pack_length_le (src : List Word) : (pack src).length ≤ 1 + src.length := by
  rw [pack_length]; have := popcount_le src.length (presenceMask src); omega

/-! ### Unpack -/

@[simp] theorem unpackFrom_length (mask : Word) (c : Nat → Word) (m r : Nat) : (unpackFrom mask c m r).length = m := by
  induction m generalizing r with
  | zero => rfl
  | succ m ih => simp only [unpackFrom]; split <;> simp [ih]

@[simp] theorem unpack_length (m : Nat) (c : Nat → Word) : (unpack m c).length = m := unpackFrom_length _ _ _ _

/-- Element q of an unpacked array: the next stored word where its mask bit is set, and 0 elsewhere. -/
theorem unpackFrom_getElem? (mask : Word) (c : Nat → Word) (m r q : Nat) (h : q < m) :
    (unpackFrom mask c m r)[q]? = some
      (if mask.getLsbD (m - 1 - q) = true then c (r + (List.range q).countP fun j => mask.getLsbD (m - 1 - j))
      else 0#64) := by
  induction m generalizing r q with
  | zero => omega
  | succ m ih =>
    rw [unpackFrom]
    cases q with
    | zero => simp; split <;> simp
    | succ q =>
      have e : m + 1 - 1 - (q + 1) = m - 1 - q := by omega
      have ec : (List.range (q + 1)).countP (fun j => mask.getLsbD (m + 1 - 1 - j)) =
          (if mask.getLsbD m then 1 else 0) + (List.range q).countP (fun j => mask.getLsbD (m - 1 - j)) := by
        rw [List.range_succ_eq_map, List.countP_cons, List.countP_map]
        simp only [Function.comp_def, Nat.add_sub_cancel, Nat.sub_zero]
        rw [Nat.add_comm]
        congr 2
        funext j
        congr 1
        omega
      split
      · rw [List.getElem?_cons_succ, ih _ _ (by omega), e, ec]; simp_all [Nat.add_assoc]
      · rw [List.getElem?_cons_succ, ih _ _ (by omega), e, ec]; simp_all

/-- Unpack asks for no element past the mask's popcount. -/
theorem unpackFrom_congr (mask : Word) (c c' : Nat → Word) (m r : Nat)
    (h : ∀ k, r ≤ k → k < r + popcount m mask.toNat → c k = c' k) :
    unpackFrom mask c m r = unpackFrom mask c' m r := by
  induction m generalizing r with
  | zero => rfl
  | succ m ih =>
    simp only [unpackFrom]
    by_cases hb : mask.getLsbD m = true
    · have hp : popcount (m + 1) mask.toNat = 1 + popcount m mask.toNat := by
        rw [popcount, show mask.toNat.testBit m = true from hb]; rfl
      rw [if_pos hb, if_pos hb, h r le_rfl (by omega), ih (r + 1) fun k h1 h2 => h k (by omega) (by omega)]
    · have hp : popcount (m + 1) mask.toNat = popcount m mask.toNat := by
        rw [popcount, show mask.toNat.testBit m = false from Bool.not_eq_true _ ▸ hb]; simp
      rw [if_neg hb, if_neg hb, ih r fun k h1 h2 => h k h1 (by omega)]

/-- Unpack hands the stored elements of a list to the marked positions. -/
theorem unpackFrom_of_marks (mask : Word) (c : Nat → Word) (l : List Word) (r : Nat)
    (hm : ∀ j, j < l.length → mask.getLsbD j = decide (l.getD (l.length - 1 - j) 0#64 ≠ 0#64))
    (hc : ∀ k, k < (l.filter fun x => decide (x ≠ 0#64)).length →
      c (r + k) = (l.filter fun x => decide (x ≠ 0#64)).getD k 0#64) :
    unpackFrom mask c l.length r = l := by
  induction l generalizing r with
  | nil => rfl
  | cons x t ih =>
    have hx := hm t.length (by simp)
    have ht : ∀ j, j < t.length → mask.getLsbD j = decide (t.getD (t.length - 1 - j) 0#64 ≠ 0#64) := by
      intro j hj
      have e : t.length - j = (t.length - 1 - j) + 1 := by omega
      simpa [e] using hm j (by simp; omega)
    simp only [List.length_cons, unpackFrom, hx]
    by_cases h0 : x = 0#64
    · have := ih r ht (by simpa [h0] using hc)
      simp [h0, this]
    · have hf : (x :: t).filter (fun x => decide (x ≠ 0#64)) = x :: t.filter fun x => decide (x ≠ 0#64) := by simp [h0]
      rw [hf] at hc
      have hr := hc 0 (by simp)
      simp only [List.getD_cons_zero, Nat.add_zero] at hr
      have hrest := ih (r + 1) ht fun k hk => by
        have := hc (k + 1) (by simpa using hk)
        rw [Nat.add_assoc, Nat.add_comm 1 k]
        simpa using this
      simp [h0, hr, hrest]

/-- Unpacking a packed array gives it back (42_smp.md R162, on lists). -/
theorem unpack_pack (src : List Word) (c : Nat → Word) (h : src.length ≤ 64)
    (hc : ∀ k, k < (pack src).length → c k = (pack src).getD k 0#64) : unpack src.length c = src := by
  have h0 : c 0 = zext64 (presenceMask src) := hc 0 (by simp [pack])
  refine unpackFrom_of_marks _ _ _ _ (fun j hj => ?_) fun k hk => ?_
  · rw [h0, zext64_getLsbD, presenceMask_testBit]; simp [hj]; intro; omega
  · rw [Nat.add_comm, hc (k + 1) (by simpa [pack] using hk)]; simp [pack]

end Sys2Proof.Machine
end

