-- ==== Sys2Proof/Laws/State.lean ====
section
/-! SUPPORT. One lemma per field per update of the state, so that no later proof unfolds a record update. -/

namespace Sys2Proof.Machine

/-! ### Error entry (60_exceptions.md R224) -/

@[simp] theorem raise_cmd (c : Cause) (info : Word) (s : State) : (raise c info s).cmd = s.cmd := rfl
@[simp] theorem raise_err (c : Cause) (info : Word) (s : State) : (raise c info s).err = c.kind := rfl
@[simp] theorem raise_cause (c : Cause) (info : Word) (s : State) : (raise c info s).cause = c.code := rfl
@[simp] theorem raise_sticky (c : Cause) (info : Word) (s : State) : (raise c info s).sticky = 1 := rfl
@[simp] theorem raise_errInfo (c : Cause) (info : Word) (s : State) : (raise c info s).errInfo = info := rfl
@[simp] theorem raise_arg0 (c : Cause) (info : Word) (s : State) : (raise c info s).arg0 = s.arg0 := rfl
@[simp] theorem raise_result (c : Cause) (info : Word) (s : State) : (raise c info s).result = s.result := rfl
@[simp] theorem raise_inLen (c : Cause) (info : Word) (s : State) : (raise c info s).inLen = s.inLen := rfl
@[simp] theorem raise_outLen (c : Cause) (info : Word) (s : State) : (raise c info s).outLen = s.outLen := rfl
@[simp] theorem raise_fwvValue (c : Cause) (info : Word) (s : State) : (raise c info s).fwvValue = s.fwvValue := rfl
@[simp] theorem raise_fwvWidth (c : Cause) (info : Word) (s : State) : (raise c info s).fwvWidth = s.fwvWidth := rfl
@[simp] theorem raise_inBuf (c : Cause) (info : Word) (s : State) : (raise c info s).inBuf = s.inBuf := rfl
@[simp] theorem raise_outBuf (c : Cause) (info : Word) (s : State) : (raise c info s).outBuf = s.outBuf := rfl
@[simp] theorem raise_uninitReads (c : Cause) (info : Word) (s : State) : (raise c info s).uninitReads = s.uninitReads := rfl
@[simp] theorem raise_pending (c : Cause) (info : Word) (s : State) : (raise c info s).pending = s.pending := rfl
@[simp] theorem raise_returned (c : Cause) (info : Word) (s : State) : (raise c info s).returned = s.returned := rfl

/-! ### Completion (30_encoding.md R95) -/

@[simp] theorem succeed_cmd (s : State) : (succeed s).cmd = s.cmd := rfl
@[simp] theorem succeed_err (s : State) : (succeed s).err = 0 := rfl
@[simp] theorem succeed_cause (s : State) : (succeed s).cause = 0 := rfl
@[simp] theorem succeed_sticky (s : State) : (succeed s).sticky = s.sticky := rfl
@[simp] theorem succeed_errInfo (s : State) : (succeed s).errInfo = s.errInfo := rfl
@[simp] theorem succeed_arg0 (s : State) : (succeed s).arg0 = s.arg0 := rfl
@[simp] theorem succeed_result (s : State) : (succeed s).result = s.result := rfl
@[simp] theorem succeed_inLen (s : State) : (succeed s).inLen = s.inLen := rfl
@[simp] theorem succeed_outLen (s : State) : (succeed s).outLen = s.outLen := rfl
@[simp] theorem succeed_fwvValue (s : State) : (succeed s).fwvValue = s.fwvValue := rfl
@[simp] theorem succeed_fwvWidth (s : State) : (succeed s).fwvWidth = s.fwvWidth := rfl
@[simp] theorem succeed_inBuf (s : State) : (succeed s).inBuf = s.inBuf := rfl
@[simp] theorem succeed_outBuf (s : State) : (succeed s).outBuf = s.outBuf := rfl
@[simp] theorem succeed_uninitReads (s : State) : (succeed s).uninitReads = s.uninitReads := rfl
@[simp] theorem succeed_pending (s : State) : (succeed s).pending = s.pending := rfl
@[simp] theorem succeed_returned (s : State) : (succeed s).returned = s.returned := rfl

/-! ### An array result (20_memory.md R66) -/

@[simp] theorem storeOut_cmd (d : List Word) (s : State) : (storeOut d s).cmd = s.cmd := rfl
@[simp] theorem storeOut_err (d : List Word) (s : State) : (storeOut d s).err = s.err := rfl
@[simp] theorem storeOut_cause (d : List Word) (s : State) : (storeOut d s).cause = s.cause := rfl
@[simp] theorem storeOut_sticky (d : List Word) (s : State) : (storeOut d s).sticky = s.sticky := rfl
@[simp] theorem storeOut_errInfo (d : List Word) (s : State) : (storeOut d s).errInfo = s.errInfo := rfl
@[simp] theorem storeOut_arg0 (d : List Word) (s : State) : (storeOut d s).arg0 = s.arg0 := rfl
@[simp] theorem storeOut_result (d : List Word) (s : State) : (storeOut d s).result = s.result := rfl
@[simp] theorem storeOut_inLen (d : List Word) (s : State) : (storeOut d s).inLen = s.inLen := rfl
@[simp] theorem storeOut_outLen (d : List Word) (s : State) : (storeOut d s).outLen = BitVec.ofNat 7 d.length := rfl
@[simp] theorem storeOut_fwvValue (d : List Word) (s : State) : (storeOut d s).fwvValue = s.fwvValue := rfl
@[simp] theorem storeOut_fwvWidth (d : List Word) (s : State) : (storeOut d s).fwvWidth = s.fwvWidth := rfl
@[simp] theorem storeOut_inBuf (d : List Word) (s : State) : (storeOut d s).inBuf = s.inBuf := rfl
@[simp] theorem storeOut_outBuf (d : List Word) (s : State) : (storeOut d s).outBuf = Memory.writeAll s.outBuf 0 d := rfl
@[simp] theorem storeOut_uninitReads (d : List Word) (s : State) : (storeOut d s).uninitReads = s.uninitReads := rfl
@[simp] theorem storeOut_pending (d : List Word) (s : State) : (storeOut d s).pending = s.pending := rfl
@[simp] theorem storeOut_returned (d : List Word) (s : State) : (storeOut d s).returned = s.returned := rfl

/-! ### The UninitRead mark (60_exceptions.md R229) -/

theorem noteReads_eq (s : State) (b : Bool) : s.noteReads b = { s with uninitReads := s.uninitReads + b.toNat } := by
  cases b <;> rfl

@[simp] theorem noteReads_false (s : State) : s.noteReads false = s := rfl

@[simp] theorem noteReads_cmd (s : State) (b : Bool) : (s.noteReads b).cmd = s.cmd := by rw [noteReads_eq]
@[simp] theorem noteReads_err (s : State) (b : Bool) : (s.noteReads b).err = s.err := by rw [noteReads_eq]
@[simp] theorem noteReads_cause (s : State) (b : Bool) : (s.noteReads b).cause = s.cause := by rw [noteReads_eq]
@[simp] theorem noteReads_sticky (s : State) (b : Bool) : (s.noteReads b).sticky = s.sticky := by rw [noteReads_eq]
@[simp] theorem noteReads_errInfo (s : State) (b : Bool) : (s.noteReads b).errInfo = s.errInfo := by rw [noteReads_eq]
@[simp] theorem noteReads_arg0 (s : State) (b : Bool) : (s.noteReads b).arg0 = s.arg0 := by rw [noteReads_eq]
@[simp] theorem noteReads_result (s : State) (b : Bool) : (s.noteReads b).result = s.result := by rw [noteReads_eq]
@[simp] theorem noteReads_inLen (s : State) (b : Bool) : (s.noteReads b).inLen = s.inLen := by rw [noteReads_eq]
@[simp] theorem noteReads_outLen (s : State) (b : Bool) : (s.noteReads b).outLen = s.outLen := by rw [noteReads_eq]
@[simp] theorem noteReads_fwvValue (s : State) (b : Bool) : (s.noteReads b).fwvValue = s.fwvValue := by rw [noteReads_eq]
@[simp] theorem noteReads_fwvWidth (s : State) (b : Bool) : (s.noteReads b).fwvWidth = s.fwvWidth := by rw [noteReads_eq]
@[simp] theorem noteReads_inBuf (s : State) (b : Bool) : (s.noteReads b).inBuf = s.inBuf := by rw [noteReads_eq]
@[simp] theorem noteReads_outBuf (s : State) (b : Bool) : (s.noteReads b).outBuf = s.outBuf := by rw [noteReads_eq]
@[simp] theorem noteReads_uninitReads (s : State) (b : Bool) : (s.noteReads b).uninitReads = s.uninitReads + b.toNat := by
  rw [noteReads_eq]
@[simp] theorem noteReads_pending (s : State) (b : Bool) : (s.noteReads b).pending = s.pending := by rw [noteReads_eq]
@[simp] theorem noteReads_returned (s : State) (b : Bool) : (s.noteReads b).returned = s.returned := by rw [noteReads_eq]

@[simp] theorem noteIn_def (s : State) (n : Nat) : s.noteIn n = s.noteReads (Memory.someUnwritten s.inBuf n) := rfl

@[simp] theorem noteOut_def (s : State) (n : Nat) : s.noteOut n = s.noteReads (Memory.someUnwritten s.outBuf n) := rfl

/-! ### Reset (70_reset_and_hazards.md R260) -/

@[simp] theorem doReset_cmd (s : State) : (s.doReset).cmd = 0 := rfl
@[simp] theorem doReset_err (s : State) : (s.doReset).err = 0 := rfl
@[simp] theorem doReset_cause (s : State) : (s.doReset).cause = 0 := rfl
@[simp] theorem doReset_sticky (s : State) : (s.doReset).sticky = 0 := rfl
@[simp] theorem doReset_errInfo (s : State) : (s.doReset).errInfo = 0 := rfl
@[simp] theorem doReset_arg0 (s : State) : (s.doReset).arg0 = 0 := rfl
@[simp] theorem doReset_result (s : State) : (s.doReset).result = 0 := rfl
@[simp] theorem doReset_inLen (s : State) : (s.doReset).inLen = 0 := rfl
@[simp] theorem doReset_outLen (s : State) : (s.doReset).outLen = 0 := rfl
@[simp] theorem doReset_fwvValue (s : State) : (s.doReset).fwvValue = 0 := rfl
@[simp] theorem doReset_fwvWidth (s : State) : (s.doReset).fwvWidth = 0 := rfl
@[simp] theorem doReset_inBuf (s : State) : (s.doReset).inBuf = [] := rfl
@[simp] theorem doReset_outBuf (s : State) : (s.doReset).outBuf = [] := rfl
@[simp] theorem doReset_uninitReads (s : State) : (s.doReset).uninitReads = s.uninitReads := rfl
@[simp] theorem doReset_pending (s : State) : (s.doReset).pending = s.pending := rfl
@[simp] theorem doReset_returned (s : State) : (s.doReset).returned = s.returned := rfl

end Sys2Proof.Machine
end

