-- ==== Sys2Proof/Laws/Exec.lean ====
section
/-! SUPPORT. One spec lemma per shared operation of the commands, and the inversion lemmas of exec and step. -/

namespace Sys2Proof.Machine

/-! ### Reading operands -/

theorem inAt_of_read {s : State} {pass : ReadPass} {i : Nat} {x : Word} (h : Memory.read s.inBuf i = some x) :
    s.inAt pass i = x := by simp [State.inAt, h]

theorem outAt_of_read {s : State} {i : Nat} {x : Word} (h : Memory.read s.outBuf i = some x) : s.outAt i = x := by
  simp [State.outAt, h]

theorem blockWord_of_read {s : State} {len r : Nat} {x : Word} (hr : r < len) (h : Memory.read s.inBuf r = some x) :
    s.blockWord len r = x := by rw [State.blockWord, if_pos hr, inAt_of_read h]

@[simp] theorem inArray_length (s : State) (pass : ReadPass) (n : Nat) : (s.inArray pass n).length = n := by
  simp [State.inArray]

@[simp] theorem outArray_length (s : State) (n : Nat) : (s.outArray n).length = n := by simp [State.outArray]

theorem inArray_getD (s : State) (pass : ReadPass) (n p : Nat) (h : p < n) :
    (s.inArray pass n).getD p 0#64 = s.inAt pass p := by simp [State.inArray, h]

theorem outArray_getElem? (s : State) (n p : Nat) (h : p < n) : (s.outArray n)[p]? = some (s.outAt p) := by
  simp [State.outArray, h]

/-- The mark is left alone exactly where every word read is written. -/
theorem someUnwritten_toNat_eq_zero (m : Memory) (n : Nat) :
    (Memory.someUnwritten m n).toNat = 0 ↔ Memory.Written m n := by
  rw [← Memory.someUnwritten_eq_false]; cases Memory.someUnwritten m n <;> simp

theorem written_iff (m : Memory) (n : Nat) : Memory.Written m n ↔ ∀ i, i < n → ∃ x, Memory.read m i = some x := by
  simp [Memory.Written, Option.ne_none_iff_exists']

/-! ### Array results -/

/-- What an array result leaves in OUT. -/
theorem read_storeOut (d : List Word) (s : State) (j : Nat) (hd : d.length ≤ 65) :
    Memory.read (storeOut d s).outBuf j = if j < d.length then d[j]? else Memory.read s.outBuf j := by
  rw [storeOut_outBuf, Memory.read_store _ _ _ hd]

theorem storeOut_outLen_toNat (d : List Word) (s : State) (hd : d.length ≤ 65) :
    (storeOut d s).outLen.toNat = d.length := by
  rw [storeOut_outLen, BitVec.toNat_ofNat]; omega

/-! ### The shared decode of a compressed block -/

/-- Everything `decodeBlock` can do: the three errors in order, or a result. -/
theorem decodeBlock_cases (m : Nat) (out : List Word → List Word) (s : State) :
    (65 < s.inLen.toNat ∧ decodeBlock m out s = raise .inLen (zext64 s.inLen.toNat) s) ∨
    (s.inLen.toNat = 0 ∧ decodeBlock m out s = raise .noMask 0 s) ∨
    (1 ≤ s.inLen.toNat ∧ s.inLen.toNat ≤ 65 ∧ s.inLen.toNat - 1 < popcount m (s.inAt .check 0).toNat ∧
      decodeBlock m out s = raise .maskCount (zext64 (popcount m (s.inAt .check 0).toNat)) (s.noteIn 1)) ∨
    (1 ≤ s.inLen.toNat ∧ s.inLen.toNat ≤ 65 ∧ popcount m (s.inAt .check 0).toNat ≤ s.inLen.toNat - 1 ∧
      decodeBlock m out s = succeed (storeOut (out (unpack m (s.blockWord s.inLen.toNat)))
        (s.noteIn (1 + popcount m (s.inAt .check 0).toNat)))) := by
  unfold decodeBlock
  split
  · exact .inl ⟨‹_›, rfl⟩
  · split
    · exact .inr (.inl ⟨‹_›, rfl⟩)
    · split
      · exact .inr (.inr (.inl ⟨by omega, by omega, ‹_›, rfl⟩))
      · exact .inr (.inr (.inr ⟨by omega, by omega, by omega, rfl⟩))

/-! ### exec -/

/-- A raise records a cause of its own, so ERR is not 0 after it. -/
theorem Cause.kind_ne_zero (c : Cause) : c.kind ≠ 0 := by cases c <;> decide

theorem Cause.code_ne_zero (c : Cause) : c.code ≠ 0 := by cases c <;> decide

/-- The fields that no command writes but on a raise. -/
def Keeps (s u : State) : Prop :=
  u.cmd = s.cmd ∧ u.sticky = s.sticky ∧ u.errInfo = s.errInfo ∧ u.arg0 = s.arg0 ∧ u.pending = s.pending ∧
    u.returned = s.returned ∧ s.uninitReads ≤ u.uninitReads

/-- Everything a command can do to the state as a whole: raise from the state before it, with at most the mark added, or
succeed from a state that keeps the host's fields. -/
theorem exec_cases (i : Instr) (s : State) :
    (∃ c info b, exec i s = .next (raise c info (s.noteReads b))) ∨ (∃ u, exec i s = .next (succeed u) ∧ Keeps s u) := by
  have mark : ∀ b d, Keeps s (storeOut d (s.noteReads b)) := fun b d =>
    ⟨by simp, by simp, by simp, by simp, by simp, by simp, by simp⟩
  have raised : ∀ c info, ∃ c' info' b, Host.Outcome.next (ρ := Refusal) (φ := Fault) (raise c info s) =
      .next (raise c' info' (s.noteReads b)) := fun c info => ⟨c, info, false, rfl⟩
  have block : ∀ m out, (∃ c info b, decodeBlock m out s = raise c info (s.noteReads b)) ∨
      ∃ u, decodeBlock m out s = succeed u ∧ Keeps s u := by
    intro m out
    rcases decodeBlock_cases m out s with ⟨-, h⟩ | ⟨-, h⟩ | ⟨-, -, -, h⟩ | ⟨-, -, -, h⟩
    · exact .inl ⟨_, _, false, h⟩
    · exact .inl ⟨_, _, false, h⟩
    · exact .inl ⟨_, _, _, h⟩
    · exact .inr ⟨_, h, mark _ _⟩
  have same : Keeps s s := ⟨rfl, rfl, rfl, rfl, rfl, rfl, le_rfl⟩
  cases i with
  | nop => exact .inr ⟨s, rfl, same⟩
  | clr => exact .inr ⟨_, rfl, rfl, rfl, rfl, rfl, rfl, rfl, le_rfl⟩
  | xfer => exact .inr ⟨_, rfl, by simp, by simp, by simp, by simp, by simp, by simp, by simp⟩
  | fwvInit w =>
    simp only [exec, execFwvInit]
    split
    · exact .inl (raised _ _)
    · split
      · exact .inl (raised _ _)
      · exact .inr ⟨_, rfl, rfl, rfl, rfl, rfl, rfl, rfl, le_rfl⟩
  | fwvGet j =>
    simp only [exec, execFwvGet]
    split
    · exact .inl (raised _ _)
    · split
      · exact .inl (raised _ _)
      · exact .inr ⟨_, rfl, rfl, rfl, rfl, rfl, rfl, rfl, le_rfl⟩
  | fwvSet j =>
    simp only [exec, execFwvSet]
    split
    · exact .inl (raised _ _)
    · split
      · exact .inl (raised _ _)
      · split
        · exact .inl (raised _ _)
        · exact .inr ⟨_, rfl, rfl, rfl, rfl, rfl, rfl, rfl, le_rfl⟩
  | fwvShin =>
    simp only [exec, execFwvShin]
    split
    · exact .inl (raised _ _)
    · split
      · exact .inl (raised _ _)
      · exact .inr ⟨_, rfl, rfl, rfl, rfl, rfl, rfl, rfl, le_rfl⟩
  | bptFwd n w =>
    simp only [exec, execBptFwd]
    split
    · exact .inl (raised _ _)
    · split
      · exact .inl (raised _ _)
      · exact .inr ⟨_, rfl, mark _ _⟩
  | smpPack m =>
    simp only [exec, execSmpPack]
    split
    · exact .inl (raised _ _)
    · exact .inr ⟨_, rfl, mark _ _⟩
  | smpUnpack m =>
    simp only [exec, execSmpUnpack]
    split
    · exact .inl (raised _ _)
    · rcases block m id with ⟨c, info, b, h⟩ | ⟨u, h, hu⟩
      · exact .inl ⟨c, info, b, by rw [h]⟩
      · exact .inr ⟨u, by rw [h], hu⟩
  | blkEnc n b =>
    simp only [exec, execBlkEnc]
    split
    · exact .inl (raised _ _)
    · split
      · exact .inl (raised _ _)
      · split
        · exact .inl ⟨_, _, _, rfl⟩
        · exact .inr ⟨_, rfl, mark _ _⟩
  | blkDec n b =>
    simp only [exec, execBlkDec]
    split
    · exact .inl (raised _ _)
    · split
      · exact .inl (raised _ _)
      · rcases block b (fun planes => transpose planes n) with ⟨c, info, b', h⟩ | ⟨u, h, hu⟩
        · exact .inl ⟨c, info, b', by rw [h]⟩
        · exact .inr ⟨u, by rw [h], hu⟩

/-- What a step can do: nothing is pending, or the next event is performed on the state without it. -/
theorem step_cases (s : State) :
    (s.pending = [] ∧ step s = .next s) ∨
    (∃ e rest, s.pending = e :: rest ∧ step s = perform e { s with pending := rest }) := by
  unfold step advance
  split
  · exact .inl ⟨‹_›, rfl⟩
  · exact .inr ⟨_, _, ‹_›, rfl⟩

end Sys2Proof.Machine
end

