-- ==== Sys2Proof/Laws/Port.lean ====
section
/-! SUPPORT. The address map inverted, and everything one event of the host can do. -/

namespace Sys2Proof.Machine

/-- The address map read backwards (20_memory.md R62). -/
theorem targetAt_inv (off : Nat) :
    (off = 0x000 ∧ targetAt off = .id) ∨ (off = 0x008 ∧ targetAt off = .cmd) ∨
    (off = 0x010 ∧ targetAt off = .status) ∨ (off = 0x018 ∧ targetAt off = .errInfo) ∨
    (off = 0x020 ∧ targetAt off = .arg0) ∨ (off = 0x028 ∧ targetAt off = .result) ∨
    (off = 0x030 ∧ targetAt off = .inLenReg) ∨ (off = 0x038 ∧ targetAt off = .outLenReg) ∨
    (off = 0x040 ∧ targetAt off = .fwvValue) ∨ (off = 0x048 ∧ targetAt off = .fwvWidth) ∨
    ((0x400 ≤ off ∧ off ≤ 0x600) ∧ targetAt off = .inWord ((off - 0x400) / 8)) ∨
    ((0x800 ≤ off ∧ off ≤ 0xA00) ∧ targetAt off = .outWord ((off - 0x800) / 8)) ∨
    (off ∉ [0x000, 0x008, 0x010, 0x018, 0x020, 0x028, 0x030, 0x038, 0x040, 0x048] ∧
      ¬ (0x400 ≤ off ∧ off ≤ 0x600) ∧ ¬ (0x800 ≤ off ∧ off ≤ 0xA00) ∧ targetAt off = .reserved) := by
  by_cases h : off ∈ [0x000, 0x008, 0x010, 0x018, 0x020, 0x028, 0x030, 0x038, 0x040, 0x048]
  · simp only [List.mem_cons, List.not_mem_nil, or_false] at h
    rcases h with rfl | rfl | rfl | rfl | rfl | rfl | rfl | rfl | rfl | rfl <;> simp [targetAt]
  · have low : targetAt off = if 0x400 ≤ off ∧ off ≤ 0x600 then .inWord ((off - 0x400) / 8)
        else if 0x800 ≤ off ∧ off ≤ 0xA00 then .outWord ((off - 0x800) / 8) else .reserved := by
      simp only [List.mem_cons, List.not_mem_nil, or_false, not_or] at h
      obtain ⟨h0, h1, h2, h3, h4, h5, h6, h7, h8, h9⟩ := h
      rw [targetAt, if_neg h0, if_neg h1, if_neg h2, if_neg h3, if_neg h4, if_neg h5, if_neg h6, if_neg h7, if_neg h8,
        if_neg h9]
    by_cases hi : 0x400 ≤ off ∧ off ≤ 0x600
    · rw [if_pos hi] at low
      exact .inr (.inr (.inr (.inr (.inr (.inr (.inr (.inr (.inr (.inr (.inl ⟨hi, low⟩))))))))))
    · rw [if_neg hi] at low
      by_cases ho : 0x800 ≤ off ∧ off ≤ 0xA00
      · rw [if_pos ho] at low
        exact .inr (.inr (.inr (.inr (.inr (.inr (.inr (.inr (.inr (.inr (.inr (.inl ⟨ho, low⟩)))))))))))
      · rw [if_neg ho] at low
        exact .inr (.inr (.inr (.inr (.inr (.inr (.inr (.inr (.inr (.inr (.inr (.inr ⟨h, hi, ho, low⟩)))))))))))

theorem targetAt_in (i : Nat) (h : i ≤ 64) : targetAt (0x400 + 8 * i) = .inWord i := by
  have := targetAt_inv (0x400 + 8 * i)
  have e : (0x400 + 8 * i - 0x400) / 8 = i := by omega
  simp only [List.mem_cons, List.not_mem_nil, or_false, not_or] at this
  rw [e] at this
  rcases this with h | h | h | h | h | h | h | h | h | h | h | h | h
  all_goals first | exact h.2 | omega

theorem targetAt_out (i : Nat) (h : i ≤ 64) : targetAt (0x800 + 8 * i) = .outWord i := by
  have := targetAt_inv (0x800 + 8 * i)
  have e : (0x800 + 8 * i - 0x800) / 8 = i := by omega
  simp only [List.mem_cons, List.not_mem_nil, or_false, not_or] at this
  rw [e] at this
  rcases this with h | h | h | h | h | h | h | h | h | h | h | h | h
  all_goals first | exact h.2 | omega

/-- A step with an event pending performs it. -/
theorem step_of_pending {s : State} {e : HostEvent} {rest : List HostEvent} (h : s.pending = e :: rest) :
    step s = perform e { s with pending := rest } := by rw [step, advance, h]

/-- Executing a CMD value is executing its command, or raising IllegalCommand. -/
theorem execute_eq (v : Word) (s : State) :
    (∃ i, decode v = .ok i ∧ execute v s = exec i s) ∨
    (∃ e, decode v = .error e ∧ execute v s = .next (raise (decodeCause e) v s)) := by
  unfold execute
  cases decode v with
  | ok i => exact .inl ⟨i, rfl, rfl⟩
  | error e => exact .inr ⟨e, rfl, rfl⟩

/-- A next state of a command is a raise or a success. -/
theorem exec_next_cases {i : Instr} {s t : State} (h : exec i s = .next t) :
    (∃ c info b, t = raise c info (s.noteReads b)) ∨ (∃ u, t = succeed u ∧ Keeps s u) := by
  rcases exec_cases i s with ⟨c, info, b, h'⟩ | ⟨u, h', k⟩ <;> rw [h'] at h <;> cases h
  · exact .inl ⟨c, info, b, rfl⟩
  · exact .inr ⟨u, rfl, k⟩

/-- A next state of a CMD value's execution is a raise or a success. -/
theorem execute_next_cases {v : Word} {s t : State} (h : execute v s = .next t) :
    (∃ c info b, t = raise c info (s.noteReads b)) ∨ (∃ u, t = succeed u ∧ Keeps s u) := by
  rcases execute_eq v s with ⟨i, -, h'⟩ | ⟨e, -, h'⟩ <;> rw [h'] at h
  · exact exec_next_cases h
  · cases h; exact .inl ⟨_, _, false, rfl⟩

/-- Everything a step can do with an access of the host (20_memory.md R78). -/
theorem step_access_cases {s t : State} {e : HostEvent} {rest : List HostEvent} (hp : s.pending = e :: rest)
    (hr : e ≠ .reset) (h : step s = .next t) :
    (∃ off, e = .read 8 off ∧ t = State.readWord { s with pending := rest } off) ∨
    (∃ v, e = .write 8 0x008 v ∧ execute v { s with pending := rest, cmd := v } = .next t) ∨
    (∃ v, e = .write 8 0x010 v ∧ t = State.writeStatus v { s with pending := rest }) ∨
    (∃ v, e = .write 8 0x020 v ∧ t = { s with pending := rest, arg0 := v }) ∨
    (∃ v : Word, e = .write 8 0x030 v ∧ t = { s with pending := rest, inLen := v.extractLsb' 0 7 }) ∨
    (∃ off i v, e = .write 8 off v ∧ t = { s with pending := rest, inBuf := Memory.write s.inBuf i v }) ∨
    (∃ off v, e = .write 8 off v ∧ t = { s with pending := rest }) := by
  rw [step_of_pending hp] at h
  cases e with
  | reset => exact absurd rfl hr
  | read w off =>
    simp only [perform] at h
    split at h
    · obtain ⟨rfl, -⟩ : w = 8 ∧ _ := by simpa [supported] using ‹supported w off = true›
      cases h; exact .inl ⟨off, rfl, rfl⟩
    · cases h
  | write w off v =>
    simp only [perform] at h
    split at h
    · obtain ⟨rfl, -⟩ : w = 8 ∧ _ := by simpa [supported] using ‹supported w off = true›
      rcases targetAt_inv off.toNat with
        ⟨-, b⟩ | ⟨a, b⟩ | ⟨a, b⟩ | ⟨-, b⟩ | ⟨a, b⟩ | ⟨-, b⟩ | ⟨a, b⟩ | ⟨-, b⟩ | ⟨-, b⟩ | ⟨-, b⟩ | ⟨-, b⟩ | ⟨-, b⟩ |
          ⟨-, -, -, b⟩ <;> rw [b] at h
      · cases h; exact .inr (.inr (.inr (.inr (.inr (.inr ⟨off, v, rfl, rfl⟩)))))
      · obtain rfl : off = 0x008 := BitVec.eq_of_toNat_eq a
        exact .inr (.inl ⟨v, rfl, h⟩)
      · obtain rfl : off = 0x010 := BitVec.eq_of_toNat_eq a
        cases h; exact .inr (.inr (.inl ⟨v, rfl, rfl⟩))
      · cases h; exact .inr (.inr (.inr (.inr (.inr (.inr ⟨off, v, rfl, rfl⟩)))))
      · obtain rfl : off = 0x020 := BitVec.eq_of_toNat_eq a
        cases h; exact .inr (.inr (.inr (.inl ⟨v, rfl, rfl⟩)))
      · cases h; exact .inr (.inr (.inr (.inr (.inr (.inr ⟨off, v, rfl, rfl⟩)))))
      · obtain rfl : off = 0x030 := BitVec.eq_of_toNat_eq a
        cases h; exact .inr (.inr (.inr (.inr (.inl ⟨v, rfl, rfl⟩))))
      · cases h; exact .inr (.inr (.inr (.inr (.inr (.inr ⟨off, v, rfl, rfl⟩)))))
      · cases h; exact .inr (.inr (.inr (.inr (.inr (.inr ⟨off, v, rfl, rfl⟩)))))
      · cases h; exact .inr (.inr (.inr (.inr (.inr (.inr ⟨off, v, rfl, rfl⟩)))))
      · cases h; exact .inr (.inr (.inr (.inr (.inr (.inl ⟨off, _, v, rfl, rfl⟩)))))
      · cases h; exact .inr (.inr (.inr (.inr (.inr (.inr ⟨off, v, rfl, rfl⟩)))))
      · cases h; exact .inr (.inr (.inr (.inr (.inr (.inr ⟨off, v, rfl, rfl⟩)))))
    · cases h

end Sys2Proof.Machine
end

