-- ==== Sys2Proof/Laws/Chain.lean ====
section
/-! SUPPORT. The array commands on written words: each is one array result, so that a chain of commands is a chain of
rewrites. -/

namespace Sys2Proof.Machine

theorem noteIn_of_written {s : State} {n : Nat} (h : Memory.Written s.inBuf n) : s.noteIn n = s := by
  rw [noteIn_def, (Memory.someUnwritten_eq_false _ _).2 h, noteReads_false]

theorem noteOut_of_written {s : State} {n : Nat} (h : Memory.Written s.outBuf n) : s.noteOut n = s := by
  rw [noteOut_def, (Memory.someUnwritten_eq_false _ _).2 h, noteReads_false]

/-- An array operand whose words are those of a list is that list, in every pass. -/
theorem inArray_of_reads {s : State} {d : List Word} {pass : ReadPass}
    (h : ∀ i, i < d.length → Memory.read s.inBuf i = d[i]?) : s.inArray pass d.length = d := by
  refine List.ext_getElem (by simp) fun i _ h2 => ?_
  simp [State.inArray, State.inAt, h i h2, h2]

theorem outArray_of_reads {s : State} {d : List Word}
    (h : ∀ i, i < d.length → Memory.read s.outBuf i = d[i]?) : s.outArray d.length = d := by
  refine List.ext_getElem (by simp) fun i _ h2 => ?_
  simp [State.outArray, State.outAt, h i h2, h2]

theorem written_of_reads {m : Memory} {d : List Word} (h : ∀ i, i < d.length → Memory.read m i = d[i]?) :
    Memory.Written m d.length := by
  intro i hi
  simp [h i hi, hi]

theorem reads_of_store {m : Memory} {d : List Word} (hd : d.length ≤ 65) (i : Nat) (hi : i < d.length) :
    Memory.read (Memory.writeAll m 0 d) i = d[i]? := by rw [Memory.read_store _ _ _ hd, if_pos hi]

theorem execBptFwd_written {n w : Nat} {s : State} (hn : InRange n) (hw : InRange w) (h : Memory.Written s.inBuf n) :
    execBptFwd n w s = .next (succeed (storeOut (transpose (s.inArray .operand n) w) s)) := by
  rw [execBptFwd, if_neg (not_not.2 hn), if_neg (not_not.2 hw), noteIn_of_written h]

theorem execSmpPack_written {m : Nat} {s : State} (hm : InRange m) (h : Memory.Written s.inBuf m) :
    execSmpPack m s = .next (succeed (storeOut (pack (s.inArray .operand m)) s)) := by
  rw [execSmpPack, if_neg (not_not.2 hm), noteIn_of_written h]

/-- The decode of a block whose checks pass, on written words. -/
theorem decodeBlock_written {m : Nat} {out : List Word → List Word} {s : State}
    (hL : 1 ≤ s.inLen.toNat ∧ s.inLen.toNat ≤ 65)
    (hc : popcount m (s.inAt .check 0).toNat ≤ s.inLen.toNat - 1)
    (h : Memory.Written s.inBuf (1 + popcount m (s.inAt .check 0).toNat)) :
    decodeBlock m out s = succeed (storeOut (out (unpack m (s.blockWord s.inLen.toNat))) s) := by
  rw [decodeBlock, if_neg (by omega), if_neg (by omega), if_neg (by omega), noteIn_of_written h]

theorem execBlkEnc_written {n b : Nat} {s : State} (hn : InRange n) (hb : InRange b) (h : Memory.Written s.inBuf n)
    (hfit : firstWide b (s.inArray .check n) = none) :
    execBlkEnc n b s = .next (succeed (storeOut (pack (transpose (s.inArray .operand n) b)) s)) := by
  rw [execBlkEnc, if_neg (not_not.2 hn), if_neg (not_not.2 hb), hfit, noteIn_of_written h]

/-- XFER after an array result moves that result to IN. -/
theorem execXfer_of_result {s : State} {d : List Word} (hd : d.length ≤ 65) :
    execXfer (succeed (storeOut d s)) = .next (succeed
      { succeed (storeOut d s) with
        inBuf := Memory.writeAll s.inBuf 0 d, inLen := BitVec.ofNat 7 d.length }) := by
  have hL : (succeed (storeOut d s)).outLen.toNat = d.length := by simp; omega
  have hr : ∀ i, i < d.length → Memory.read (succeed (storeOut d s)).outBuf i = d[i]? := reads_of_store hd
  rw [execXfer, hL, outArray_of_reads hr, noteOut_of_written (written_of_reads hr)]
  rfl

/-- No pixel is wide exactly where every pixel is below 2^b. -/
theorem firstWide_eq_none (b : Nat) (px : List Word) :
    firstWide b px = none ↔ ∀ x ∈ px, x.toNat < 2 ^ b := by
  simp [firstWide, List.findIdx?_eq_none_iff]

end Sys2Proof.Machine
end

