-- ==== Sys2Proof/Laws/Decode.lean ====
section
/-! SUPPORT. The fields of an encoding, and the opcode map read backwards (30_encoding.md R91, R93). -/

namespace Sys2Proof

theorem p1Field_lt (v : Word) : p1Field v < 128 := (v.extractLsb' 8 7).isLt

theorem p2Field_lt (v : Word) : p2Field v < 128 := (v.extractLsb' 15 7).isLt

theorem opcField_lt (v : Word) : opcField v < 256 := (v.extractLsb' 0 8).isLt

theorem opcField_eq (v : Word) : opcField v = v.toNat % 2 ^ 8 := by simp [opcField, BitVec.extractLsb'_toNat]

theorem p1Field_eq (v : Word) : p1Field v = v.toNat / 2 ^ 8 % 2 ^ 7 := by
  simp [p1Field, BitVec.extractLsb'_toNat, Nat.shiftRight_eq_div_pow]

theorem p2Field_eq (v : Word) : p2Field v = v.toNat / 2 ^ 15 % 2 ^ 7 := by
  simp [p2Field, BitVec.extractLsb'_toNat, Nat.shiftRight_eq_div_pow]

theorem rsvField_eq (v : Word) : rsvField v = v.toNat / 2 ^ 22 := by
  have := v.isLt
  simp only [rsvField, BitVec.extractLsb'_toNat, Nat.shiftRight_eq_div_pow]
  omega

/-- The encoding formula as a sum of the shifted fields. -/
theorem encodeFields_eq (opc p1 p2 : Nat) (ho : opc < 256) (h1 : p1 < 128) (h2 : p2 < 128) :
    encodeFields opc p1 p2 = BitVec.ofNat 64 (opc + p1 * 2 ^ 8 + p2 * 2 ^ 15) := by
  apply BitVec.eq_of_toNat_eq
  have e1 : (BitVec.ofNat 64 p1 <<< 8).toNat = p1 <<< 8 := by
    rw [BitVec.toNat_shiftLeft, BitVec.toNat_ofNat]; simp only [Nat.shiftLeft_eq]; omega
  have e2 : (BitVec.ofNat 64 p2 <<< 15).toNat = p2 <<< 15 := by
    rw [BitVec.toNat_shiftLeft, BitVec.toNat_ofNat]; simp only [Nat.shiftLeft_eq]; omega
  have e3 : (BitVec.ofNat 64 opc).toNat = opc := by rw [BitVec.toNat_ofNat]; omega
  have h3 : opc ||| p1 <<< 8 = p1 * 2 ^ 8 + opc := by
    rw [Nat.or_comm, ← Nat.shiftLeft_add_eq_or_of_lt (by omega), Nat.shiftLeft_eq]
  have h4 : (p1 * 2 ^ 8 + opc) ||| p2 <<< 15 = p2 * 2 ^ 15 + (p1 * 2 ^ 8 + opc) := by
    rw [Nat.or_comm, ← Nat.shiftLeft_add_eq_or_of_lt (by omega), Nat.shiftLeft_eq]
  simp only [encodeFields, BitVec.toNat_or, e1, e2, e3, BitVec.toNat_ofNat, h3, h4]
  omega

/-- The fields of an encoding are the fields encoded, and its reserved bits are 0. -/
theorem fields_encodeFields (opc p1 p2 : Nat) (ho : opc < 256) (h1 : p1 < 128) (h2 : p2 < 128) :
    rsvField (encodeFields opc p1 p2) = 0 ∧ opcField (encodeFields opc p1 p2) = opc ∧
      p1Field (encodeFields opc p1 p2) = p1 ∧ p2Field (encodeFields opc p1 p2) = p2 := by
  rw [encodeFields_eq opc p1 p2 ho h1 h2, rsvField_eq, opcField_eq, p1Field_eq, p2Field_eq]
  simp only [BitVec.toNat_ofNat]
  omega

/-- A CMD value whose reserved bits are 0 is the encoding of its fields. -/
theorem encodeFields_fields (v : Word) (h : rsvField v = 0) :
    encodeFields (opcField v) (p1Field v) (p2Field v) = v := by
  rw [encodeFields_eq _ _ _ (opcField_lt v) (p1Field_lt v) (p2Field_lt v)]
  apply BitVec.eq_of_toNat_eq
  rw [rsvField_eq] at h
  rw [opcField_eq, p1Field_eq, p2Field_eq, BitVec.toNat_ofNat]
  have := v.isLt
  omega

/-- Decoding an encoding is reading the opcode map at its fields. -/
theorem decode_encodeFields (opc p1 p2 : Nat) (ho : opc < 256) (h1 : p1 < 128) (h2 : p2 < 128) :
    decode (encodeFields opc p1 p2) = decodeFields opc p1 p2 := by
  obtain ⟨h0, ho, h1, h2⟩ := fields_encodeFields opc p1 p2 ho h1 h2
  rw [decode, h0, ho, h1, h2, if_neg (not_not.2 rfl)]

end Sys2Proof
end

