-- ==== Sys2Proof/Laws/PerInstr.lean ====
section
/-! SUPPORT. A statement about every command as syntax, one lemma per constructor: the encoding of a well-formed command
has its reserved bits 0, so it fits the 22 bits that format C uses (30_encoding.md R91). -/

namespace Sys2Proof.Laws.ReservedBitsClear

/-- Bits [63:22] of the encoding of a well-formed command are 0. -/
def Statement (i : Instr) : Prop := i.wellFormed = true → rsvField (encode i) = 0

theorem nop : Statement .nop := fun _ => (fields_encodeFields _ _ _ (by omega) (by omega) (by omega)).1

theorem clr : Statement .clr := fun _ => (fields_encodeFields _ _ _ (by omega) (by omega) (by omega)).1

theorem xfer : Statement .xfer := fun _ => (fields_encodeFields _ _ _ (by omega) (by omega) (by omega)).1

theorem fwvInit (w : Nat) : Statement (.fwvInit w) := fun h =>
  (fields_encodeFields _ _ _ (by omega) (of_decide_eq_true h) (by omega)).1

theorem fwvGet (i : Nat) : Statement (.fwvGet i) := fun h =>
  (fields_encodeFields _ _ _ (by omega) (by omega) (of_decide_eq_true h)).1

theorem fwvSet (i : Nat) : Statement (.fwvSet i) := fun h =>
  (fields_encodeFields _ _ _ (by omega) (by omega) (of_decide_eq_true h)).1

theorem fwvShin : Statement .fwvShin := fun _ => (fields_encodeFields _ _ _ (by omega) (by omega) (by omega)).1

theorem both {n w : Nat} (h : (fitsField n && fitsField w) = true) : n < 128 ∧ w < 128 := by
  simpa [fitsField] using h

theorem bptFwd (n w : Nat) : Statement (.bptFwd n w) := fun h =>
  (fields_encodeFields _ _ _ (by omega) (both h).1 (both h).2).1

theorem smpPack (m : Nat) : Statement (.smpPack m) := fun h =>
  (fields_encodeFields _ _ _ (by omega) (of_decide_eq_true h) (by omega)).1

theorem smpUnpack (m : Nat) : Statement (.smpUnpack m) := fun h =>
  (fields_encodeFields _ _ _ (by omega) (of_decide_eq_true h) (by omega)).1

theorem blkEnc (n b : Nat) : Statement (.blkEnc n b) := fun h =>
  (fields_encodeFields _ _ _ (by omega) (both h).1 (both h).2).1

theorem blkDec (n b : Nat) : Statement (.blkDec n b) := fun h =>
  (fields_encodeFields _ _ _ (by omega) (both h).1 (both h).2).1

end Sys2Proof.Laws.ReservedBitsClear
end

