-- ==== Sys2Proof/Tests/Slice0.lean ====
section
/-! SUPPORT. Tests on fixed values, taken from spec/95_test_vectors.md and the worked encodings of 30_encoding.md R101,
and a witness for the hypotheses of every obligation. -/

namespace Sys2Proof.Tests

open Sys2Proof Sys2Proof.Machine

/-! ### Helpers: small states and what a test looks at -/

/-- The state of an answer that is a next state. -/
def answer (o : Host.Outcome State Fault Refusal) : Option State :=
  match o with
  | .next t => some t
  | .fault _ => none
  | .refused _ => none

/-- Reset, then IN[0..] written. -/
def stIn (xs : List Word) : State := { State.reset with inBuf := Memory.writeAll [] 0 xs }

/-- The same, with IN_LEN set. -/
def stBlock (xs : List Word) (len : Len) : State := { stIn xs with inLen := len }

/-- Reset, then a FixedWidthValue of width `w` and value `v`, and ARG0. -/
def stFwv (w : Len) (v arg : Word) : State := { State.reset with fwvWidth := w, fwvValue := v, arg0 := arg }

/-- Reset, then OUT[0..] written by a command that leaves OUT_LEN. -/
def stOut (xs : List Word) : State :=
  { State.reset with outBuf := Memory.writeAll [] 0 xs, outLen := BitVec.ofNat 7 xs.length }

/-- Reset, then one access pending. -/
def stEvent (e : HostEvent) : State := { State.reset with pending := [e] }

/-- OUT_LEN, the first `k` OUT words, and STATUS. -/
def outOf (k : Nat) (o : Host.Outcome State Fault Refusal) : Option (Nat × List (Option Word) × Word) :=
  (answer o).map fun t => (t.outLen.toNat, (List.range k).map (Memory.read t.outBuf), t.statusWord)

/-- STATUS and ERRINFO. -/
def errOf (o : Host.Outcome State Fault Refusal) : Option (Word × Word) :=
  (answer o).map fun t => (t.statusWord, t.errInfo)

/-- FWV_WIDTH, FWV_VALUE, RESULT and STATUS. -/
def fwvOf (o : Host.Outcome State Fault Refusal) : Option (Nat × Word × Word × Word) :=
  (answer o).map fun t => (t.fwvWidth.toNat, t.fwvValue, t.result, t.statusWord)

/-- The value the last read returned. -/
def returnedOf (o : Host.Outcome State Fault Refusal) : Option (List Word) := (answer o).map fun t => t.returned

/-- Why an answer stops, if it stops. -/
def stopOf (o : Host.Outcome State Fault Refusal) : Option (Fault ⊕ Refusal) :=
  match o with
  | .next _ => none
  | .fault r => some (.inl r)
  | .refused r => some (.inr r)

/-- A CMD value laid out as 30_encoding.md R91 draws it: reserved bits, P2, P1, OPC. -/
def wordOf (rsv : BitVec 42) (p2 p1 : BitVec 7) (opc : BitVec 8) : Word := (rsv ++ p2 ++ p1 ++ opc).setWidth 64

/-! ### WellFormed: one ill-formed term for each check (R92, R98) -/

theorem test_illFormed_refused :
    Instr.wellFormed (.fwvInit 128) = false ∧ Instr.wellFormed (.fwvGet 128) = false ∧
    Instr.wellFormed (.fwvSet 128) = false ∧ Instr.wellFormed (.bptFwd 128 1) = false ∧
    Instr.wellFormed (.bptFwd 1 128) = false ∧ Instr.wellFormed (.smpPack 128) = false ∧
    Instr.wellFormed (.smpUnpack 128) = false ∧ Instr.wellFormed (.blkEnc 128 1) = false ∧
    Instr.wellFormed (.blkEnc 1 128) = false ∧ Instr.wellFormed (.blkDec 128 1) = false ∧
    Instr.wellFormed (.blkDec 1 128) = false := by decide

theorem test_edgeFields_accepted :
    Instr.wellFormed (.fwvInit 127) = true ∧ Instr.wellFormed (.bptFwd 0 127) = true ∧
    Instr.wellFormed (.blkDec 127 0) = true := by decide

/-! ### Decoding: words written out from R91 and R93 -/

theorem test_decode_nop : decodeTableWord 64 (wordOf 0 0b0000000 0b0000000 0b00000000).toNat = some .nop := by decide
theorem test_decode_clr : decodeTableWord 64 (wordOf 0 0b0000000 0b0000000 0b00000001).toNat = some .clr := by decide
theorem test_decode_xfer : decodeTableWord 64 (wordOf 0 0b0000000 0b0000000 0b00000010).toNat = some .xfer := by decide
theorem test_decode_fwvInit :
    decodeTableWord 64 (wordOf 0 0b0000000 0b0000100 0b00010000).toNat = some (.fwvInit 4) := by decide
theorem test_decode_fwvGet :
    decodeTableWord 64 (wordOf 0 0b0000011 0b0000000 0b00010001).toNat = some (.fwvGet 3) := by decide
theorem test_decode_fwvSet :
    decodeTableWord 64 (wordOf 0 0b1000001 0b0000000 0b00010010).toNat = some (.fwvSet 65) := by decide
theorem test_decode_fwvShin :
    decodeTableWord 64 (wordOf 0 0b0000000 0b0000000 0b00010011).toNat = some .fwvShin := by decide
theorem test_decode_bptFwd :
    decodeTableWord 64 (wordOf 0 0b0000011 0b0000110 0b00100000).toNat = some (.bptFwd 6 3) := by decide
theorem test_decode_smpPack :
    decodeTableWord 64 (wordOf 0 0b0000000 0b1000001 0b00110000).toNat = some (.smpPack 65) := by decide
theorem test_decode_smpUnpack :
    decodeTableWord 64 (wordOf 0 0b0000000 0b0000100 0b00110001).toNat = some (.smpUnpack 4) := by decide
theorem test_decode_blkEnc :
    decodeTableWord 64 (wordOf 0 0b1000000 0b1000000 0b01000000).toNat = some (.blkEnc 64 64) := by decide
theorem test_decode_blkDec :
    decodeTableWord 64 (wordOf 0 0b0000011 0b0000110 0b01000001).toNat = some (.blkDec 6 3) := by decide

/-- The words the vectors print are those words (V-BPT-1, V-BLK-1, V-FWV-10, R101). -/
theorem test_wordOf_prints :
    wordOf 0 0b0000011 0b0000110 0b00100000 = 0x18620 ∧ wordOf 0 0b0000011 0b0000110 0b01000000 = 0x18640 ∧
    wordOf 0 0b0000011 0b0000000 0b00010001 = 0x18011 ∧
    wordOf 0 0b1000000 0b1000000 0b01000000 = 0x204040 := by decide

/-- Values that encode no command, with STATUS and ERRINFO as V-CTL-4, 5, 7, 8, 9, 10 and V-FWV-28 give them. -/
theorem test_illegal_values :
    errOf (execute 0x3 State.reset) = some (0x13104, 0x3) ∧
    errOf (execute 0x400000 State.reset) = some (0x13004, 0x400000) ∧
    errOf (execute 0x100 State.reset) = some (0x13204, 0x100) ∧
    errOf (execute 0x8130 State.reset) = some (0x13204, 0x8130) ∧
    errOf (execute 0x400003 State.reset) = some (0x13004, 0x400003) ∧
    errOf (execute 0x8103 State.reset) = some (0x13104, 0x8103) ∧
    errOf (execute 0x18111 (stFwv 4 10 0)) = some (0x13204, 0x18111) := by decide

/-! ### The commands -/

/-- V-CTL-3, from a state with an error recorded: NOP clears ERR and CAUSE and keeps STICKY. -/
theorem test_nop :
    errOf (exec .nop { State.reset with err := 4, cause := 0x31, sticky := 1, errInfo := 3 }) =
      some (0x10000, 3) := by decide

/-- V-CTL-1. -/
theorem test_xfer :
    (answer (exec .xfer (stOut [7, 1, 2, 3]))).map (fun t => (t.inLen.toNat, t.outLen.toNat,
      (List.range 5).map (Memory.read t.inBuf))) = some (4, 4, [some 7, some 1, some 2, some 3, none]) := by decide

/-- V-CTL-2 and V-HOST-9: the last words and ARG0. -/
theorem test_clr :
    (answer (exec .clr { State.reset with arg0 := 0xDEAD, result := 5 })).map (fun t => (t.inLen, t.outLen, t.result,
      t.arg0, Memory.read t.inBuf 64, Memory.read t.outBuf 0)) =
      some (0, 0, 0, 0xDEAD, some 0, some 0) := by decide

/-- V-FWV-6, the widest value. -/
theorem test_fwvInit :
    fwvOf (exec (.fwvInit 64) (stFwv 0 0 0xFFFFFFFFFFFFFFFF)) =
      some (64, 0xFFFFFFFFFFFFFFFF, 0xFFFFFFFFFFFFFFFF, 0) := by decide

/-- V-FWV-9, V-FWV-4, V-FWV-5. -/
theorem test_fwvInit_errors :
    errOf (exec (.fwvInit 63) (stFwv 0 0 0x8000000000000000)) = some (0x10201, 0x8000000000000000) ∧
    errOf (exec (.fwvInit 0) State.reset) = some (0x10101, 0) ∧
    errOf (exec (.fwvInit 65) State.reset) = some (0x10101, 0x41) := by decide

/-- V-FWV-10, V-FWV-14. -/
theorem test_fwvGet :
    fwvOf (exec (.fwvGet 3) (stFwv 4 10 0)) = some (4, 0xA, 1, 0) ∧
    fwvOf (exec (.fwvGet 63) (stFwv 64 0x8000000000000000 0)) = some (64, 0x8000000000000000, 1, 0) := by decide

/-- V-FWV-12, V-FWV-13. -/
theorem test_fwvGet_errors :
    errOf (exec (.fwvGet 4) (stFwv 4 10 0)) = some (0x11002, 4) ∧
    errOf (exec (.fwvGet 0) State.reset) = some (0x10401, 0) := by decide

/-- V-FWV-16, V-FWV-17. -/
theorem test_fwvSet :
    fwvOf (exec (.fwvSet 0) (stFwv 4 10 1)) = some (4, 0xB, 0xB, 0) ∧
    fwvOf (exec (.fwvSet 3) (stFwv 4 10 0)) = some (4, 2, 2, 0) := by decide

/-- V-FWV-19, V-FWV-20, V-FWV-21. -/
theorem test_fwvSet_errors :
    errOf (exec (.fwvSet 1) (stFwv 4 10 2)) = some (0x10301, 2) ∧
    errOf (exec (.fwvSet 4) (stFwv 4 10 2)) = some (0x11002, 4) ∧
    errOf (exec (.fwvSet 0) (stFwv 0 0 1)) = some (0x10401, 0) := by decide

/-- V-FWV-22, V-FWV-24. -/
theorem test_fwvShin :
    fwvOf (exec .fwvShin (stFwv 4 10 1)) = some (4, 5, 5, 0) ∧
    fwvOf (exec .fwvShin (stFwv 64 0x8000000000000001 0)) = some (64, 2, 2, 0) := by decide

/-- V-FWV-26, V-FWV-27. -/
theorem test_fwvShin_errors :
    errOf (exec .fwvShin (stFwv 4 10 3)) = some (0x10301, 3) ∧
    errOf (exec .fwvShin (stFwv 0 0 3)) = some (0x10401, 0) := by decide

/-- V-BPT-5, V-BPT-7. -/
theorem test_bptFwd :
    outOf 2 (exec (.bptFwd 4 2) (stIn [3, 0, 1, 2])) = some (2, [some 5, some 9], 0) ∧
    outOf 4 (exec (.bptFwd 1 3) (stIn [0xFFFFFFFFFFFFFFFF])) = some (3, [some 1, some 1, some 1, none], 0) := by
  decide

/-- V-BPT-10, V-BPT-11: the count is checked before the width. -/
theorem test_bptFwd_errors :
    errOf (exec (.bptFwd 65 65) (stIn [1])) = some (0x10501, 0x41) ∧
    errOf (exec (.bptFwd 6 65) (stIn [1])) = some (0x10601, 0x41) := by decide

/-- V-SMP-4. -/
theorem test_smpPack :
    outOf 4 (exec (.smpPack 3) (stIn [0xFFFFFFFFFFFFFFFF, 0, 1])) =
      some (3, [some 5, some 0xFFFFFFFFFFFFFFFF, some 1, none], 0) := by decide

/-- V-SMP-6, V-SMP-7. -/
theorem test_smpPack_errors :
    errOf (exec (.smpPack 65) (stIn [5, 0, 0, 7])) = some (0x10501, 0x41) ∧
    errOf (exec (.smpPack 0) (stIn [5, 0, 0, 7])) = some (0x10501, 0) := by decide

/-- V-SMP-8, V-SMP-12. -/
theorem test_smpUnpack :
    outOf 4 (exec (.smpUnpack 4) (stBlock [9, 5, 7] 3)) = some (4, [some 5, some 0, some 0, some 7], 0) ∧
    outOf 2 (exec (.smpUnpack 2) (stBlock [6, 8] 2)) = some (2, [some 8, some 0], 0) := by decide

/-- V-SMP-9, V-SMP-10, V-SMP-11, V-SMP-16. -/
theorem test_smpUnpack_errors :
    errOf (exec (.smpUnpack 4) (stBlock [9, 5, 7] 2)) = some (0x12103, 2) ∧
    errOf (exec (.smpUnpack 4) (stBlock [9, 5, 7] 0)) = some (0x12003, 0) ∧
    errOf (exec (.smpUnpack 4) (stBlock [9, 5, 7] 66)) = some (0x11102, 0x42) ∧
    errOf (exec (.smpUnpack 0) (stBlock [9, 5, 7] 66)) = some (0x10501, 0) := by decide

/-- V-BLK-6. -/
theorem test_blkEnc :
    outOf 3 (exec (.blkEnc 8 12) (stIn [0, 0, 3, 0, 0, 0, 1, 0])) =
      some (3, [some 0xC00, some 0x44, some 0x4], 0) := by decide

/-- V-BLK-16, V-BLK-12, V-BLK-13. -/
theorem test_blkEnc_errors :
    errOf (exec (.blkEnc 6 2) (stIn [1, 2, 3, 4, 5, 6])) = some (0x10701, 3) ∧
    errOf (exec (.blkEnc 6 65) (stIn [1, 2, 3, 4, 5, 6])) = some (0x10601, 0x41) ∧
    errOf (exec (.blkEnc 0 3) (stIn [1, 2, 3, 4, 5, 6])) = some (0x10501, 0) := by decide

/-- V-BLK-7, V-BLK-10. -/
theorem test_blkDec :
    outOf 8 (exec (.blkDec 8 12) (stBlock [0xC00, 0x44, 0x4] 3)) =
      some (8, [some 0, some 0, some 3, some 0, some 0, some 0, some 1, some 0], 0) ∧
    outOf 2 (exec (.blkDec 2 1) (stBlock [1, 0xFF] 2)) = some (2, [some 1, some 1], 0) := by decide

/-- V-BLK-8, V-BLK-14, V-BLK-15. -/
theorem test_blkDec_errors :
    errOf (exec (.blkDec 8 12) (stBlock [0xC00, 0x44, 0x4] 2)) = some (0x12103, 2) ∧
    errOf (exec (.blkDec 6 3) (stBlock [7, 21, 38, 56] 0)) = some (0x12003, 0) ∧
    errOf (exec (.blkDec 6 3) (stBlock [7, 21, 38, 56] 127)) = some (0x11102, 0x7F) := by decide

/-! ### The port -/

/-- V-RST-2, V-HOST-6: ID and a reserved offset. -/
theorem test_read_constants :
    returnedOf (step (stEvent (.read 8 0x000))) = some [0x0040400142505445] ∧
    returnedOf (step (stEvent (.read 8 0x100))) = some [0] := by decide

/-- V-HOST-1, V-HOST-4. -/
theorem test_write_lengths :
    (answer (step (stEvent (.write 8 0x030 0xFFFFFFFFFFFFFF83)))).map (fun t => t.inLen) = some 3 ∧
    (answer (step { stOut [7, 1, 2, 3] with pending := [.write 8 0x038 9] })).map (fun t => t.outLen) = some 4 := by
  decide

/-- V-HOST-2, V-HOST-3. -/
theorem test_write_status :
    errOf (step { State.reset with err := 1, cause := 5, sticky := 1, pending := [.write 8 0x010 0xFFFF] }) =
      some (0x10501, 0) ∧
    errOf (step { State.reset with err := 1, cause := 5, sticky := 1, pending := [.write 8 0x010 0x10000] }) =
      some (0x0501, 0) := by decide

/-- V-HOST-7 is refused; V-RST-3 and V-HOST-5 fault under the spec's fault reading. -/
theorem test_stops :
    stopOf (step (stEvent (.read 4 0x010))) = some (.inr (.unsupportedAccess 4 0x010)) ∧
    stopOf (strictStep (stEvent (.read 8 0x800))) = some (.inl .uninitRead) ∧
    (answer (step (stEvent (.write 8 0x800 5)))).map (fun t => Memory.read t.outBuf 0) = some none := by
  decide

/-- V-HOST-8: CMD reads back an illegal value. The first step of a placed word runs it. -/
theorem test_cmd_runs :
    (answer (step (stEvent (.write 8 0x008 3)))).map (fun t => (t.cmd, t.statusWord)) = some (3, 0x13104) ∧
    (answer (step (State.reset.withFetchWord 22 0x8012))).map (fun t => (t.cmd, t.statusWord, t.pending)) =
      some (0x8012, 0x10401, []) := by decide

/-- R98 to R101: text to word and back. -/
theorem test_assembler :
    assemble "BPT.INV 6, 3" = some 0x30320#64 ∧ disassemble 0x30320#64 = some "BPT.FWD 3, 6" ∧
    assemble "FWV.INIT 0x80" = none := by decide

/-! ### Witnesses: states and operands that meet the hypotheses of each obligation -/

theorem stIn_read (xs : List Word) (p : Nat) (hx : xs.length ≤ 65) (hp : p < xs.length) :
    Memory.read (stIn xs).inBuf p = some (xs.getD p 0) := by
  rw [show (stIn xs).inBuf = Memory.writeAll [] 0 xs from rfl, Memory.read_store [] xs p hx, if_pos hp]
  simp [hp]

theorem stIn_written (xs : List Word) (n : Nat) (hx : xs.length ≤ 65) (hn : n ≤ xs.length) :
    Memory.Written (stIn xs).inBuf n := by
  intro i hi
  simp [stIn_read xs i hx (by omega)]

theorem stBlock_duty (xs : List Word) (len : Len) (m : Nat) (hx : xs.length ≤ 65) (h1 : 1 ≤ xs.length)
    (hm : popcount m ((stBlock xs len).inAt .check 0).toNat ≤ len.toNat - 1 →
      1 + popcount m ((stBlock xs len).inAt .check 0).toNat ≤ xs.length) : BlockDuty m (stBlock xs len) :=
  fun _ _ => ⟨stIn_written xs 1 hx h1, fun h => stIn_written xs _ hx (hm h)⟩

theorem stOut_legal (xs : List Word) (hx : xs.length ≤ 65) : (stOut xs).OutLegal := by
  have hl : (stOut xs).outLen.toNat = xs.length := by
    simp only [stOut, BitVec.toNat_ofNat]; omega
  refine ⟨by omega, fun i hi => ?_⟩
  rw [show (stOut xs).outBuf = Memory.writeAll [] 0 xs from rfl, Memory.read_store [] xs i hx, if_pos (by omega)]
  simp [show i < xs.length by omega]

theorem stOut_wf (xs : List Word) : (stOut xs).BuffersWf := ⟨rfl, Memory.wf_writeAll [] xs 0 rfl⟩

theorem wit_ResetEventRestoresTheRecord :
    ({ stFwv 4 10 1 with pending := [.reset, .read 8 0] } : State).pending = .reset :: [.read 8 0] := rfl

theorem wit_IdReadsItsConstant : (stEvent (.write 8 0x000 7)).pending = .write 8 0x000 7 :: [] := rfl

theorem wit_StatusWriteClearsStickyOnly :
    (stEvent (.write 8 0x010 0x10000)).pending = .write 8 0x010 0x10000 :: [] ∧
    (0x10000#64).getLsbD 16 = true ∧ (0xFFFF#64).getLsbD 16 = false ∧
    (stEvent (.write 8 0x010 0xFFFF)).pending = .write 8 0x010 0xFFFF :: [] := by decide

theorem wit_ErrInfoChangesOnlyOnErrors :
    (∃ t, exec .nop (stFwv 4 10 2) = .next t ∧ t.err = 0) ∧
    (∃ t, step (stEvent (.write 8 0x008 3)) = .next t ∧ t.errInfo ≠ (stEvent (.write 8 0x008 3)).errInfo) ∧
    (decode 0x400003 = .error .rsvBits ∧ ∃ t, execute 0x400003 State.reset = .next t) ∧
    (∃ t, exec (.blkEnc 2 3) (stIn [7, 8]) = .next t ∧ t.err ≠ 0 ∧ t.cause = 0x07) ∧
    (∃ t, exec (.smpUnpack 4) (stBlock [9, 5, 7] 2) = .next t ∧ t.err ≠ 0) ∧
    (stEvent (.write 8 0x018 7)).pending = .write 8 0x018 7 :: [] :=
  ⟨⟨_, rfl, by decide⟩, ⟨_, rfl, by decide⟩, ⟨rfl, _, rfl⟩, ⟨_, rfl, by decide, by decide⟩, ⟨_, rfl, by decide⟩, rfl⟩

theorem wit_Arg0IsTheHosts :
    (stEvent (.write 8 0x020 7)).pending = .write 8 0x020 7 :: [] ∧ ∃ t, exec .fwvShin (stFwv 4 10 1) = .next t :=
  ⟨rfl, ⟨_, rfl⟩⟩

theorem wit_ResultWriters :
    (∃ t, exec (.fwvInit 64) (stFwv 0 0 5) = .next t ∧ t.err = 0) ∧
    (∃ t, exec (.fwvInit 65) (stFwv 0 0 5) = .next t ∧ t.err ≠ 0) ∧
    (∃ t, exec (.fwvGet 63) (stFwv 64 10 1) = .next t ∧ t.err = 0) ∧
    (∃ t, exec (.fwvSet 63) (stFwv 64 10 1) = .next t ∧ t.err = 0) ∧
    (∃ t, exec .fwvShin (stFwv 64 10 1) = .next t ∧ t.err = 0) ∧
    (∃ t, exec .clr (stFwv 64 10 1) = .next t ∧ t.err = 0) ∧
    (∃ t, exec .xfer (stOut [1]) = .next t ∧ t.err = 0) ∧
    (stEvent (.write 8 0x028 7)).pending = .write 8 0x028 7 :: [] :=
  ⟨⟨_, rfl, by decide⟩, ⟨_, rfl, by decide⟩, ⟨_, rfl, by decide⟩, ⟨_, rfl, by decide⟩, ⟨_, rfl, by decide⟩,
    ⟨_, rfl, by decide⟩, ⟨_, rfl, by decide⟩, rfl⟩

theorem wit_InLenReadersAndWriters :
    (stEvent (.write 8 0x030 0xFF)).pending = .write 8 0x030 0xFF :: [] ∧
    (∃ t, exec .nop (stBlock [] 66) = .next t) ∧ (∃ t, exec .xfer (stOut [7]) = .next t) ∧
    (∃ t, exec .clr (stOut [7]) = .next t) ∧
    (∀ m, Instr.bptFwd 1 1 ≠ .smpUnpack m) ∧ (∀ n b, Instr.bptFwd 1 1 ≠ .blkDec n b) :=
  ⟨rfl, ⟨_, rfl⟩, ⟨_, rfl⟩, ⟨_, rfl⟩, nofun, nofun⟩

/-- Each array command ends without a raise, at least and at greatest counts of this test, and one raises. -/
theorem arrayCommands_succeed :
    (∃ t, exec (.bptFwd 1 64) (stIn [5]) = .next t ∧ t.err = 0) ∧
    (∃ t, exec (.smpPack 1) (stIn [0]) = .next t ∧ t.err = 0) ∧
    (∃ t, exec (.smpUnpack 64) (stBlock [0] 1) = .next t ∧ t.err = 0) ∧
    (∃ t, exec (.blkEnc 1 64) (stIn [5]) = .next t ∧ t.err = 0) ∧
    (∃ t, exec (.blkDec 64 1) (stBlock [0] 1) = .next t ∧ t.err = 0) ∧
    (∃ t, exec .clr (stIn [5]) = .next t ∧ t.err = 0) ∧ (∃ t, exec .nop (stIn [5]) = .next t ∧ t.err = 0) ∧
    (∃ t, exec (.bptFwd 1 65) (stIn [5]) = .next t ∧ t.err ≠ 0) :=
  ⟨⟨_, rfl, by decide⟩, ⟨_, rfl, by decide⟩, ⟨_, rfl, by decide⟩, ⟨_, rfl, by decide⟩, ⟨_, rfl, by decide⟩,
    ⟨_, rfl, by decide⟩, ⟨_, rfl, by decide⟩, ⟨_, rfl, by decide⟩⟩

theorem wit_OutLenWriters :
    (∃ t, exec (.bptFwd 1 64) (stIn [5]) = .next t ∧ t.err = 0) ∧
    (∃ t, step ({ stIn [5] with outLen := 65, pending := [.write 8 0x008 0] } : State) = .next t) ∧
    ({ stIn [5] with outLen := 65 } : State).outLen.toNat ≤ 65 ∧
    (stEvent (.write 8 0x038 7)).pending = .write 8 0x038 7 :: [] ∧
    (HostEvent.write 8 0x038 7 ≠ .reset ∧ (∀ v, HostEvent.write 8 0x038 7 ≠ .write 8 0x008 v) ∧
      ∃ t, step (stEvent (.write 8 0x038 7)) = .next t) ∧
    (∃ t, exec (.smpPack 4) (stIn [5, 0, 0, 7]) = .next t ∧ t.err = 0) ∧
    (∀ p, p < 4 → Memory.read (stIn [5, 0, 0, 7]).inBuf p = some ([5, 0, 0, 7].getD p 0)) :=
  ⟨arrayCommands_succeed.1, ⟨_, rfl⟩, by decide, rfl, ⟨nofun, fun v h => by simp at h, _, rfl⟩, ⟨_, rfl, by decide⟩,
    fun p hp => stIn_read _ p (by decide) hp⟩

theorem wit_FwvRegisterWriters :
    (∀ w, Instr.nop ≠ .fwvInit w) ∧ (∀ j, Instr.nop ≠ .fwvSet j) ∧ Instr.nop ≠ .fwvShin ∧
    (∃ t, exec .nop (stFwv 4 10 0) = .next t) ∧ (∃ t, exec (.fwvInit 1) (stFwv 0 0 1) = .next t ∧ t.err = 0) ∧
    (∃ t, exec (.fwvInit 64) (stFwv 0 0 1) = .next t ∧ t.err = 0) ∧ (stFwv 4 10 0).fwvWidth ≠ 0 ∧
    (∃ t, step ({ stFwv 4 10 0 with pending := [.write 8 0x008 0x13] } : State) = .next t) ∧
    (stEvent (.write 8 0x040 7)).pending = .write 8 0x040 7 :: [] ∧
    (stEvent (.write 8 0x048 7)).pending = .write 8 0x048 7 :: [] :=
  ⟨nofun, nofun, nofun, ⟨_, rfl⟩, ⟨_, rfl, by decide⟩, ⟨_, rfl, by decide⟩, by decide, ⟨_, rfl⟩, rfl, rfl⟩

theorem wit_FwvBoundIsKept :
    (stFwv 0 0 5).FwvBound ∧ (stFwv 0 0 5).fwvWidth = 0 ∧ (stFwv 64 0xFFFFFFFFFFFFFFFF 1).FwvBound ∧
    (∃ t, step ({ stFwv 64 0xFFFFFFFFFFFFFFFF 1 with pending := [.write 8 0x008 0x13] } : State) = .next t) ∧
    (∃ t, core.run 2 ({ State.reset with pending := [.write 8 0x020 1, .write 8 0x008 0x110] } : State) = .next t) :=
  ⟨by decide, rfl, by decide, ⟨_, rfl⟩, ⟨_, rfl⟩⟩

/-- A legal state that is not the one after reset: an output of four words, a value, an error recorded. -/
def stLegal (ps : List HostEvent) : State :=
  { stOut [7, 1, 2, 3] with
    err := 2, cause := 0x10, sticky := 1, fwvWidth := 4, fwvValue := 15, arg0 := 1, pending := ps }

theorem stLegal_inv (ps : List HostEvent) : (stLegal ps).Inv :=
  ⟨by simp [State.StatusLegal, legalStatus, stLegal], show (15#64).toNat < 2 ^ (4#7).toNat by decide,
    show (4#7).toNat ≤ 64 by decide, stOut_legal [7, 1, 2, 3] (by decide), stOut_wf [7, 1, 2, 3]⟩

theorem wit_EveryStepKeepsTheMachineLegal :
    (stLegal [.write 8 0x008 0x2]).Inv ∧ ∃ t, step (stLegal [.write 8 0x008 0x2]) = .next t :=
  ⟨stLegal_inv _, ⟨_, rfl⟩⟩

theorem wit_InBufferWriters :
    (stEvent (.write 8 0x400 7)).pending = .write 8 (BitVec.ofNat 12 (0x400 + 8 * 0)) 7 :: [] ∧
    (stEvent (.write 8 0x600 7)).pending = .write 8 (BitVec.ofNat 12 (0x400 + 8 * 64)) 7 :: [] ∧
    (∃ t, exec .nop (stIn [5]) = .next t) ∧ Instr.nop ≠ .xfer ∧ Instr.nop ≠ .clr :=
  ⟨rfl, rfl, ⟨_, rfl⟩, nofun, nofun⟩

theorem wit_OutBufferWriters :
    (stEvent (.write 8 0x800 7)).pending = .write 8 (BitVec.ofNat 12 (0x800 + 8 * 0)) 7 :: [] ∧
    (stEvent (.write 8 0xA00 7)).pending = .write 8 (BitVec.ofNat 12 (0x800 + 8 * 64)) 7 :: [] ∧
    (∃ t, exec (.smpUnpack 64) (stBlock [0] 1) = .next t ∧ t.err = 0) ∧
    (∃ t, exec (.bptFwd 1 65) (stIn [5]) = .next t ∧ t.err ≠ 0) :=
  ⟨rfl, rfl, arrayCommands_succeed.2.2.1, ⟨_, rfl, by decide⟩⟩

/-- Each edge of each range of offsets, and each read-only register. -/
theorem wit_ReservedAndReadOnlyOffsets :
    (∀ off : Offset, (stEvent (.read 8 off)).pending = .read 8 off :: [] ∧
      (stEvent (.write 8 off 7)).pending = .write 8 off 7 :: []) ∧
    (∀ a ∈ [0x050, 0x3F8, 0x608, 0x7F8, 0xA08, 0xFF8], (BitVec.ofNat 12 a).toNat = a ∧ a % 8 = 0 ∧
      ((0x050 ≤ a ∧ a ≤ 0x3F8) ∨ (0x608 ≤ a ∧ a ≤ 0x7F8) ∨ (0xA08 ≤ a ∧ a ≤ 0xFF8))) ∧
    (∀ a ∈ [0x800, 0xA00, 0x000, 0x018, 0x028, 0x038, 0x040, 0x048], (BitVec.ofNat 12 a).toNat = a ∧ a % 8 = 0 ∧
      ((0x800 ≤ a ∧ a ≤ 0xA00) ∨ a ∈ [0x000, 0x018, 0x028, 0x038, 0x040, 0x048])) ∧
    (0xFFFF#64).getLsbD 16 = false ∧ (stEvent (.write 8 0x010 0xFFFF)).pending = .write 8 0x010 0xFFFF :: [] :=
  ⟨fun _ => ⟨rfl, rfl⟩, by simp, by simp, by decide, rfl⟩

theorem wit_UnsupportedAccessHasNoStep :
    (4 ≠ 8 ∨ (0x010 : Offset).toNat % 8 ≠ 0) ∧ (8 ≠ 8 ∨ (0x011 : Offset).toNat % 8 ≠ 0) ∧
    (stEvent (.read 4 0x010)).pending = .read 4 0x010 :: [] ∧
    (stEvent (.write 8 0x011 7)).pending = .write 8 0x011 7 :: [] ∧
    (8 = 8 ∧ (0xFF8 : Offset).toNat % 8 = 0 ∧ (stEvent (.read 8 0xFF8)).pending = .read 8 0xFF8 :: []) := by decide

theorem wit_ByteLanesAreLittleEndian : 7 < 8 ∧ byteLane 0x0102030405060708 7 = 0x01 := by decide

theorem wit_ReadsAreIdempotent :
    (0x400 : Offset).toNat % 8 = 0 ∧
    ({ stIn [5] with pending := [.read 8 0x400, .read 8 0x400] } : State).peek (targetAt (0x400 : Offset).toNat) =
      some 5 ∧
    ({ stIn [5] with pending := [.read 8 0x400, .read 8 0x400] } : State).pending =
      .read 8 0x400 :: .read 8 0x400 :: [] ∧
    (stEvent (.read 8 0x038)).peek (targetAt (0x038 : Offset).toNat) = some 0 ∧
    (stEvent (.read 8 0x038)).pending = .read 8 0x038 :: [] := by decide

theorem wit_UnwrittenHostReadIsMarked :
    (∀ off : Offset, (stEvent (.read 8 off)).pending = .read 8 off :: []) ∧
    ∀ a ∈ [0x400, 0x600, 0x800, 0xA00], (BitVec.ofNat 12 a).toNat = a ∧ a % 8 = 0 ∧
      (stEvent (.read 8 (BitVec.ofNat 12 a))).peek (targetAt a) = none :=
  ⟨fun _ => rfl, by simp [targetAt, State.peek, stEvent, State.reset]⟩

theorem wit_StrictStepStopsAtUninitReads :
    (∃ t, step (stEvent (.read 8 0x000)) = .next t ∧ t.uninitReads = (stEvent (.read 8 0x000)).uninitReads) ∧
    (∃ t, step (stEvent (.read 8 0xA00)) = .next t ∧ t.uninitReads ≠ (stEvent (.read 8 0xA00)).uninitReads) :=
  ⟨⟨_, rfl, rfl⟩, ⟨_, rfl, by decide⟩⟩

/-- The host's duty is met: by a transpose, by a block of a mask and two elements, and by XFER. -/
theorem wit_DutyKeepsRunsClean :
    (DutyMet (.bptFwd 2 1) (stIn [3, 2]) ∧ (stIn [3, 2]).OutLegal ∧
      ∃ t, exec (.bptFwd 2 1) (stIn [3, 2]) = .next t) ∧
    (DutyMet (.smpUnpack 4) (stBlock [9, 5, 7] 3) ∧ (stBlock [9, 5, 7] 3).OutLegal ∧
      ∃ t, exec (.smpUnpack 4) (stBlock [9, 5, 7] 3) = .next t) ∧
    (DutyMet .xfer (stOut [7, 1]) ∧ (stOut [7, 1]).OutLegal ∧ ∃ t, exec .xfer (stOut [7, 1]) = .next t) :=
  ⟨⟨fun _ _ => stIn_written [3, 2] 2 (by decide) (by decide), ⟨by decide, fun i hi => absurd hi (by simp [stIn, State.reset])⟩,
      ⟨_, rfl⟩⟩,
    ⟨fun _ => stBlock_duty [9, 5, 7] 3 4 (by decide) (by decide) (by decide),
      ⟨by decide, fun i hi => absurd hi (by simp [stBlock, stIn, State.reset])⟩, ⟨_, rfl⟩⟩,
    ⟨trivial, stOut_legal _ (by decide), ⟨_, rfl⟩⟩⟩

theorem wit_OnlyResetUnwrites :
    (∃ t, step ({ stIn [5] with pending := [.write 8 0x020 7] } : State) = .next t ∧ t.arg0 ≠ (stIn [5]).arg0) ∧
    HostEvent.write 8 0x020 7 ≠ .reset ∧ Memory.read (stIn [5]).inBuf 0 ≠ none ∧
    Memory.read (stOut [5]).outBuf 0 ≠ none ∧ (∃ t, exec .clr (stIn [5]) = .next t) :=
  ⟨⟨_, rfl, by decide⟩, nofun, by decide, by decide, ⟨_, rfl⟩⟩

theorem wit_BusAccessesReachTheWindow :
    (BusAccess.mk (Config.bpteBase + 0x1000) 8 none).addr = Config.bpteBase + 0x1000 ∧
    (BusAccess.mk (Config.bpteBase + 0xFFF) 8 (some 7)).addr = Config.bpteBase + 0xFFF ∧
    (BusAccess.mk (Config.bpteBase + 0) 8 none).addr = Config.bpteBase + 0 := ⟨rfl, rfl, rfl⟩

theorem wit_HostLinesMakeTheirAccesses : (List.replicate 65 (7 : Word)).length ≤ 65 := by simp

theorem wit_StepRunsTheDecodedCommand :
    (stEvent (.write 8 0x008 0x18620)).pending = .write 8 0x008 0x18620 :: [] ∧
    decode 0x18620 = .ok (.bptFwd 6 3) ∧ (stEvent (.write 8 0x008 3)).pending = .write 8 0x008 3 :: [] ∧
    decode 3 = .error .badOpc ∧ State.reset.pending = [] := ⟨rfl, rfl, rfl, rfl, rfl⟩

theorem wit_DecodeEncodeRoundTrip :
    Instr.wellFormed (.bptFwd 127 0) = true ∧ Instr.wellFormed (.fwvGet 127) = true := by decide

theorem wit_DecodedValuesAreEncodings : decode 0x3FFF41 = .ok (.blkDec 127 127) := rfl

theorem wit_MatchTableSelectsTheCommand :
    (MatchRow.mk "BPT.FWD" 0x20#64 0xFFFFFFFFFFC000FF#64) ∈ matchTable ∧ decode 0x18620 = .ok (.bptFwd 6 3) ∧
    (0x18620 : Word) &&& 0xFFFFFFFFFFC000FF#64 = 0x20#64 := ⟨by decide, rfl, by decide⟩

/-- One value for each branch: reserved bits, opcode, a P1 and a P2 that must be 0, and a command. -/
theorem wit_ExecuteChecksThenPerforms :
    (0x400003 : Word).toNat / 2 ^ 22 ≠ 0 ∧
    ((0x8103 : Word).toNat / 2 ^ 22 = 0 ∧ (0x8103 : Word).toNat % 2 ^ 8 = 3) ∧
    ((0x100 : Word).toNat / 2 ^ 8 % 2 ^ 7 ≠ 0 ∧ (0x100 : Word).toNat % 2 ^ 8 = 0) ∧
    ((0x8130 : Word).toNat / 2 ^ 15 % 2 ^ 7 ≠ 0 ∧ (0x8130 : Word).toNat % 2 ^ 8 = 0x30) ∧
    decode 0x3FFF20 = .ok (.bptFwd 127 127) := ⟨by decide, by decide, by decide, by decide, rfl⟩

theorem wit_InverseIsForwardSwapped :
    127 < 128 ∧ decode 0x30320 = .ok (.bptFwd 3 6) ∧ (0x30320 : Word).toNat % 2 ^ 8 = 0x20 ∧
    (∀ i, i < 3 → Memory.read (stIn [21, 38, 56]).inBuf i = some ([21, 38, 56].getD i 0)) ∧
    (∀ i, i < 64 → Memory.read (stIn (List.replicate 64 5)).inBuf i = some ((List.replicate 64 5).getD i 0)) :=
  ⟨by decide, rfl, by decide, fun i hi => stIn_read _ i (by decide) hi,
    fun i hi => stIn_read _ i (by simp) (by simpa using hi)⟩

theorem wit_PrintedCommandsAssemble : Instr.wellFormed (.blkEnc 127 0) = true := by decide

theorem wit_XferMovesOutToIn :
    (stOut (List.replicate 65 9)).OutLegal ∧ (stOut []).OutLegal ∧ (stLegal []).Inv ∧
    ∃ t u, exec .xfer (stLegal []) = .next t ∧ exec .xfer t = .next u :=
  ⟨stOut_legal _ (by simp), stOut_legal _ (by decide), stLegal_inv _, ⟨_, _, rfl, rfl⟩⟩

theorem wit_FwvInitConstructs :
    (¬ (1 ≤ 0 ∧ 0 ≤ 64) ∧ ¬ (1 ≤ 65 ∧ 65 ≤ 64) ∧ 127 < 128) ∧
    ((1 ≤ 1 ∧ 1 ≤ 64) ∧ 2 ^ 1 ≤ (stFwv 0 0 2).arg0.toNat) ∧
    ((1 ≤ 63 ∧ 63 ≤ 64) ∧ 2 ^ 63 ≤ (stFwv 0 0 0x8000000000000000).arg0.toNat) ∧
    ((1 ≤ 1 ∧ 1 ≤ 64) ∧ (stFwv 0 0 1).arg0.toNat < 2 ^ 1) ∧
    ((1 ≤ 64 ∧ 64 ≤ 64) ∧ (stFwv 0 0 0xFFFFFFFFFFFFFFFF).arg0.toNat < 2 ^ 64) := by decide

theorem wit_FwvGetReadsOneBit :
    (127 < 128 ∧ State.reset.fwvWidth.toNat = 0) ∧
    ((stFwv 4 10 0).fwvWidth.toNat ≠ 0 ∧ (stFwv 4 10 0).fwvWidth.toNat ≤ 4) ∧
    (3 < (stFwv 4 10 0).fwvWidth.toNat) ∧ (63 < (stFwv 64 10 0).fwvWidth.toNat) := by decide

theorem wit_FwvSetReplacesOneBit :
    (127 < 128 ∧ State.reset.WidthLegal ∧ State.reset.fwvWidth.toNat = 0) ∧
    ((stFwv 4 10 0).WidthLegal ∧ (stFwv 4 10 0).fwvWidth.toNat ≠ 0 ∧ (stFwv 4 10 0).fwvWidth.toNat ≤ 4) ∧
    ((stFwv 64 10 2).WidthLegal ∧ 63 < (stFwv 64 10 2).fwvWidth.toNat ∧ 1 < (stFwv 64 10 2).arg0.toNat) ∧
    ((stFwv 64 10 1).WidthLegal ∧ 63 < (stFwv 64 10 1).fwvWidth.toNat ∧ (stFwv 64 10 1).arg0.toNat ≤ 1 ∧
      (stFwv 64 10 1).FwvBound) := by decide

/-- Two shift-ins of the bits 1, 0 into a width of 2, as the second clause chains them, and each case of the first. -/
theorem wit_FwvShinShiftsIn :
    (State.reset.WidthLegal ∧ State.reset.fwvWidth.toNat = 0) ∧
    ((stFwv 64 10 2).WidthLegal ∧ (stFwv 64 10 2).fwvWidth.toNat ≠ 0 ∧ 1 < (stFwv 64 10 2).arg0.toNat) ∧
    ((stFwv 1 1 1).WidthLegal ∧ (stFwv 1 1 1).fwvWidth.toNat ≠ 0 ∧ (stFwv 1 1 1).arg0.toNat ≤ 1) ∧
    (∃ (st : Nat → State) (c : Nat → Word), (st 0).fwvWidth.toNat = 1 ∧ 1 ≤ 1 ∧ 1 ≤ 64 ∧
      ∀ k, k < 1 → (c k).toNat ≤ 1 ∧ exec .fwvShin { st k with arg0 := c k } = .next (st (k + 1))) := by
  refine ⟨by decide, by decide, by decide, fun k => if k = 0 then stFwv 1 0 1 else
    { stFwv 1 1 1 with result := 1 }, fun _ => 1, rfl, le_refl 1, by decide, fun k hk => ?_⟩
  obtain rfl : k = 0 := by omega
  exact ⟨by decide, rfl⟩

theorem wit_FwvLaws :
    (1 ≤ (stFwv 64 10 1).fwvWidth.toNat ∧ (stFwv 64 10 1).WidthLegal ∧
      ∃ t, exec (.fwvSet 63) (stFwv 64 10 1) = .next t ∧ t.err = 0) ∧
    (62 ≠ 63 ∧ 62 < (stFwv 64 10 1).fwvWidth.toNat) ∧
    ((stFwv 64 10 1).FwvBound ∧ ∃ t, exec .fwvShin (stFwv 64 10 1) = .next t) ∧
    (1 ≤ 63 ∧ 63 ≤ 63 ∧ (stFwv 0 0 0x8000000000000000).arg0 = BitVec.ofNat 64 (2 ^ 63)) ∧
    (1 ≤ 1 ∧ 1 ≤ 63 ∧ (stFwv 0 0 2).arg0 = BitVec.ofNat 64 (2 ^ 1)) :=
  ⟨⟨by decide, by decide, ⟨_, rfl, by decide⟩⟩, by decide, ⟨by decide, ⟨_, rfl⟩⟩, by decide, by decide⟩

theorem wit_FwvUnitIsIndependent :
    (∀ a, Instr.clr ≠ .fwvInit a) ∧ (∀ a, Instr.clr ≠ .fwvGet a) ∧ (∀ a, Instr.clr ≠ .fwvSet a) ∧
    Instr.clr ≠ .fwvShin := ⟨nofun, nofun, nofun, nofun⟩

/-- The least and the greatest counts and widths, on written words. -/
theorem wit_BptFwdTransposes :
    (¬ (1 ≤ 0 ∧ 0 ≤ 64) ∧ ¬ (1 ≤ 65 ∧ 65 ≤ 64) ∧ 127 < 128) ∧
    ((1 ≤ 1 ∧ 1 ≤ 64) ∧ ∀ p, p < 1 → Memory.read (stIn [5]).inBuf p = some ([5].getD p 0)) ∧
    ((1 ≤ 64 ∧ 64 ≤ 64) ∧ ∀ p, p < 64 →
      Memory.read (stIn (List.replicate 64 5)).inBuf p = some ((List.replicate 64 5).getD p 0)) :=
  ⟨by decide, ⟨by decide, fun p hp => stIn_read [5] p (by decide) hp⟩,
    ⟨by decide, fun p hp => stIn_read _ p (by simp) (by simpa using hp)⟩⟩

theorem wit_TransposeInvolution :
    1 ≤ 64 ∧ 64 ≤ 64 ∧ Memory.Written (stIn (List.replicate 64 5)).inBuf 64 ∧
    Memory.Written (stIn [3]).inBuf 1 ∧ Memory.read (stIn [3]).inBuf 0 = some 3 ∧ (3 : Word).toNat < 2 ^ 64 ∧
    ¬ (3 : Word).toNat < 2 ^ 1 :=
  ⟨by decide, by decide, stIn_written _ 64 (by simp) (by simp), stIn_written _ 1 (by decide) (by decide), by decide,
    by decide, by decide⟩

theorem wit_SmpPackDropsZeros :
    (¬ (1 ≤ 0 ∧ 0 ≤ 64) ∧ ¬ (1 ≤ 65 ∧ 65 ≤ 64) ∧ 127 < 128) ∧
    ((1 ≤ 4 ∧ 4 ≤ 64) ∧ ∀ p, p < 4 → Memory.read (stIn [5, 0, 0, 7]).inBuf p = some ([5, 0, 0, 7].getD p 0)) ∧
    ((1 ≤ 64 ∧ 64 ≤ 64) ∧ ∀ p, p < 64 →
      Memory.read (stIn (List.replicate 64 0)).inBuf p = some ((List.replicate 64 0).getD p 0)) :=
  ⟨by decide, ⟨by decide, fun p hp => stIn_read _ p (by decide) hp⟩,
    ⟨by decide, fun p hp => stIn_read _ p (by simp) (by simpa using hp)⟩⟩

/-- Each check of a compressed block at its edge, and a good block. -/
theorem wit_SmpUnpackRestores :
    (¬ (1 ≤ 0 ∧ 0 ≤ 64) ∧ 127 < 128) ∧ (65 < (stBlock [9] 66).inLen.toNat) ∧ ((stBlock [9] 0).inLen.toNat = 0) ∧
    ((1 ≤ (stBlock [9, 5] 2).inLen.toNat ∧ (stBlock [9, 5] 2).inLen.toNat ≤ 65) ∧
      Memory.read (stBlock [9, 5] 2).inBuf 0 = some 9 ∧
      (stBlock [9, 5] 2).inLen.toNat - 1 < popcount 4 (9 : Word).toNat) ∧
    ((1 ≤ (stBlock [9, 5, 7] 3).inLen.toNat ∧ (stBlock [9, 5, 7] 3).inLen.toNat ≤ 65) ∧
      Memory.read (stBlock [9, 5, 7] 3).inBuf 0 = some 9 ∧
      popcount 4 (9 : Word).toNat ≤ (stBlock [9, 5, 7] 3).inLen.toNat - 1 ∧
      ∀ r, 1 ≤ r → r ≤ popcount 4 (9 : Word).toNat →
        Memory.read (stBlock [9, 5, 7] 3).inBuf r = some ([9, 5, 7].getD r 0)) :=
  ⟨by decide, by decide, by decide, by decide, by decide, by decide, by decide,
    fun r _ hr => stIn_read [9, 5, 7] r (by decide) (Nat.lt_succ_of_le hr)⟩

theorem wit_PackUnpackRoundTrip :
    1 ≤ 64 ∧ 64 ≤ 64 ∧ Memory.Written (stIn (List.replicate 64 5)).inBuf 64 ∧
    Memory.Written (stIn [0]).inBuf 1 :=
  ⟨by decide, by decide, stIn_written _ 64 (by simp) (by simp), stIn_written _ 1 (by decide) (by decide)⟩

theorem wit_PackedLength : ∃ t, exec (.smpPack 4) (stIn [5, 0, 0, 7]) = .next t ∧ t.err = 0 := ⟨_, rfl, by decide⟩

theorem wit_BlkEncEncodes :
    (¬ (1 ≤ 0 ∧ 0 ≤ 64) ∧ ¬ (1 ≤ 65 ∧ 65 ≤ 64) ∧ 127 < 128) ∧
    ((∀ p, p ≤ 1 → Memory.read (stIn [7, 8]).inBuf p = some ([7, 8].getD p 0)) ∧ 1 < 2 ∧
      2 ^ 3 ≤ (([7, 8] : List Word).getD 1 0).toNat ∧ ∀ p, p < 1 → (([7, 8] : List Word).getD p 0).toNat < 2 ^ 3) ∧
    (∀ p, p < 2 → Memory.read (stIn [7, 6]).inBuf p = some ([7, 6].getD p 0) ∧
      (([7, 6] : List Word).getD p 0).toNat < 2 ^ 3) ∧
    (∀ p, p < 64 → Memory.read (stIn (List.replicate 64 5)).inBuf p = some 5 ∧ (5 : Word).toNat < 2 ^ 64) := by
  refine ⟨by decide, ⟨fun p hp => stIn_read _ p (by decide) (Nat.lt_succ_of_le hp), by decide, by decide,
    fun p hp => ?_⟩, fun p hp => ⟨stIn_read _ p (by decide) hp, ?_⟩, fun p hp => ⟨?_, by decide⟩⟩
  · obtain rfl : p = 0 := by omega
    decide
  · interval_cases p <;> decide
  · rw [stIn_read _ p (by simp) (by simpa using hp)]
    simp only [List.getD_eq_getElem?_getD, List.getElem?_replicate, hp, if_true, Option.getD_some]

theorem wit_BlkDecDecodes :
    (¬ (1 ≤ 0 ∧ 0 ≤ 64) ∧ ¬ (1 ≤ 65 ∧ 65 ≤ 64) ∧ 127 < 128) ∧ (65 < (stBlock [9] 66).inLen.toNat) ∧
    ((stBlock [9] 0).inLen.toNat = 0) ∧
    (Memory.read (stBlock [0xC00, 0x44, 0x4] 2).inBuf 0 = some 0xC00 ∧
      (stBlock [0xC00, 0x44, 0x4] 2).inLen.toNat - 1 < popcount 12 (0xC00 : Word).toNat) ∧
    ((1 ≤ (stBlock [0xC00, 0x44, 0x4] 3).inLen.toNat ∧ (stBlock [0xC00, 0x44, 0x4] 3).inLen.toNat ≤ 65) ∧
      Memory.read (stBlock [0xC00, 0x44, 0x4] 3).inBuf 0 = some 0xC00 ∧
      popcount 12 (0xC00 : Word).toNat ≤ (stBlock [0xC00, 0x44, 0x4] 3).inLen.toNat - 1 ∧
      ∀ r, 1 ≤ r → r ≤ popcount 12 (0xC00 : Word).toNat →
        Memory.read (stBlock [0xC00, 0x44, 0x4] 3).inBuf r = some ([0xC00, 0x44, 0x4].getD r 0)) :=
  ⟨by decide, by decide, by decide, by decide, by decide, by decide, by decide,
    fun r _ hr => stIn_read [0xC00, 0x44, 0x4] r (by decide) (Nat.lt_succ_of_le hr)⟩

theorem wit_EncodeIsTransposeThenPack :
    1 ≤ 64 ∧ 64 ≤ 64 ∧ ∀ p, p < 2 → ∃ x, Memory.read (stIn [7, 6]).inBuf p = some x ∧ x.toNat < 2 ^ 3 := by
  refine ⟨by decide, by decide, fun p hp => ⟨_, stIn_read _ p (by decide) hp, ?_⟩⟩
  interval_cases p <;> decide

theorem wit_DecodeIsUnpackThenTranspose :
    (∃ e, exec (.blkDec 8 12) (stBlock [0xC00, 0x44, 0x4] 3) = .next e ∧ e.err = 0) ∧
    DutyMet (.blkDec 8 12) (stBlock [0xC00, 0x44, 0x4] 3) :=
  ⟨⟨_, rfl, by decide⟩, fun _ _ => stBlock_duty [0xC00, 0x44, 0x4] 3 12 (by decide) (by decide) (by decide)⟩

theorem wit_EncodeDecodeRoundTrip :
    (∀ p, p < 2 → ∃ x, Memory.read (stIn [7, 6]).inBuf p = some x ∧ x.toNat < 2 ^ 3) ∧
    Memory.Written (stIn [7, 8]).inBuf 2 ∧
    ∃ p x, p < 2 ∧ Memory.read (stIn [7, 8]).inBuf p = some x ∧ 2 ^ 3 ≤ x.toNat :=
  ⟨wit_EncodeIsTransposeThenPack.2.2, stIn_written _ 2 (by decide) (by decide), 1, 8, by decide, by decide, by decide⟩

/-- A block with an empty plane, the all-zero block, and a block with every plane set. -/
theorem wit_EncodedLength :
    (∀ xs ∈ ([[0, 0, 3], [0, 0, 0], [3, 1, 0]] : List (List Word)), ∀ p, p < 3 →
      Memory.read (stIn xs).inBuf p = some (xs.getD p 0)) ∧
    (∃ t, exec (.blkEnc 3 8) (stIn [0, 0, 3]) = .next t ∧ t.err = 0) ∧
    (∃ t, exec (.blkEnc 3 8) (stIn [0, 0, 0]) = .next t ∧ t.err = 0) ∧
    (∃ t, exec (.blkEnc 3 2) (stIn [3, 1, 0]) = .next t ∧ t.err = 0) ∧
    (∀ p, p < 3 → ([0, 0, 0] : List Word).getD p 0 = 0) ∧
    (∀ i, i < 2 → ∃ p, p < 3 ∧ (([3, 1, 0] : List Word).getD p 0).getLsbD i = true) :=
  ⟨by decide, ⟨_, rfl, by decide⟩, ⟨_, rfl, by decide⟩, ⟨_, rfl, by decide⟩, by decide, by decide⟩

/-- A raise by the mask's count, a success, and raises by a count (V-SMP-6, V-BPT-10) that read no IN word. -/
theorem wit_ErrorsArePrecise :
    (decode 0x18641 = .ok (.blkDec 6 3) ∧ DutyMet (.blkDec 6 3) (stBlock [7, 21, 38, 56] 3)) ∧
    (decode 0x4130 = .ok (.smpPack 65) ∧ DutyMet (.smpPack 65) (stIn [5, 0, 0, 7])) ∧
    (decode 0x20C120 = .ok (.bptFwd 65 65) ∧ DutyMet (.bptFwd 65 65) (stIn [1])) ∧
    (∃ t, execute 0x4130 (stIn [5, 0, 0, 7]) = .next t ∧ t.err ≠ 0) ∧
    (∃ t, execute 0x18641 (stBlock [7, 21, 38, 56] 3) = .next t ∧ t.err ≠ 0) ∧
    (∃ t, execute 0x18641 (stBlock [7, 21, 38, 56] 4) = .next t ∧ t.err = 0) :=
  ⟨⟨rfl, fun _ _ => stBlock_duty [7, 21, 38, 56] 3 3 (by decide) (by decide) (by decide)⟩,
    ⟨rfl, fun h => absurd h (by decide)⟩, ⟨rfl, fun h => absurd h (by decide)⟩, ⟨_, rfl, by decide⟩,
    ⟨_, rfl, by decide⟩, ⟨_, rfl, by decide⟩⟩

/-- Among them a block whose element is unwritten, which sets the mark, and the raises by 0x07 and by a width. -/
theorem wit_UnwrittenOperandsAreFreeValues :
    (∃ t, exec (.smpUnpack 4) (stBlock [9] 3) = .next t ∧ t.cause ≠ 0x07 ∧ t.uninitReads = 1) ∧
    (∃ t, exec (.blkEnc 2 3) (stIn [8]) = .next t ∧ t.cause = 0x07 ∧ t.errInfo = 0 ∧ t.uninitReads = 0) ∧
    (∃ n w, Instr.bptFwd 2 1 = .bptFwd n w) ∧ (∃ m, Instr.smpPack 64 = .smpPack m) ∧
    (∃ t, exec (.bptFwd 2 1) State.reset = .next t ∧ t.err = 0) ∧
    (∃ t, exec (.bptFwd 2 65) State.reset = .next t ∧ t.err ≠ 0) ∧
    (Instr.blkDec 1 1 ≠ .nop ∧ Instr.blkDec 1 1 ≠ .clr ∧ Instr.blkDec 1 1 ≠ .xfer ∧
      (∀ w, Instr.blkDec 1 1 ≠ .fwvInit w) ∧ (∀ j, Instr.blkDec 1 1 ≠ .fwvGet j) ∧
      (∀ j, Instr.blkDec 1 1 ≠ .fwvSet j) ∧ Instr.blkDec 1 1 ≠ .fwvShin) :=
  ⟨⟨_, rfl, by decide, by decide⟩, ⟨_, rfl, by decide, by decide, by decide⟩, ⟨2, 1, rfl⟩, ⟨64, rfl⟩,
    ⟨_, rfl, by decide⟩, ⟨_, rfl, by decide⟩, nofun, nofun, nofun, nofun, nofun, nofun, nofun⟩

/-- A raise of each of the fourteen causes, the duty met: the last digit pairs of STATUS are the cause. -/
theorem wit_CauseTableIsComplete :
    (∀ i, decode 0x18641 = .ok i → DutyMet i (stBlock [7, 21, 38, 56] 3)) ∧
    errOf (execute 0x10 State.reset) = some (0x10101, 0) ∧
    errOf (execute 0x410 (stFwv 0 0 16)) = some (0x10201, 16) ∧
    errOf (execute 0x8012 (stFwv 4 10 2)) = some (0x10301, 2) ∧ errOf (execute 0x11 State.reset) = some (0x10401, 0) ∧
    errOf (execute 0x18020 State.reset) = some (0x10501, 0) ∧
    errOf (execute 0x620 State.reset) = some (0x10601, 0) ∧
    errOf (execute 0x18240 (stIn [7, 8])) = some (0x10701, 1) ∧
    errOf (execute 0x20011 (stFwv 4 10 0)) = some (0x11002, 4) ∧
    errOf (execute 0x431 (stBlock [9, 5, 7] 66)) = some (0x11102, 0x42) ∧
    errOf (execute 0x431 (stBlock [9, 5, 7] 0)) = some (0x12003, 0) ∧
    errOf (execute 0x18641 (stBlock [7, 21, 38, 56] 3)) = some (0x12103, 3) ∧
    errOf (execute 0x400000 State.reset) = some (0x13004, 0x400000) ∧
    errOf (execute 0xFF State.reset) = some (0x13104, 0xFF) ∧
    errOf (execute 0x100 State.reset) = some (0x13204, 0x100) := by
  refine ⟨fun i hi => ?_, by decide⟩
  obtain rfl : Instr.blkDec 6 3 = i := by simpa using (show Except.ok (Instr.blkDec 6 3) = .ok i from hi)
  exact fun _ _ => stBlock_duty [7, 21, 38, 56] 3 3 (by decide) (by decide) (by decide)

theorem wit_CausesByCommand :
    (∃ t, exec (.smpUnpack 4) (stBlock [9, 5, 7] 2) = .next t) ∧ decode 0x400003 = .error .rsvBits ∧
    (∃ t, execute 0x400003 State.reset = .next t) := ⟨⟨_, rfl⟩, rfl, ⟨_, rfl⟩⟩

theorem wit_StatusIsWrittenNeverRead :
    (∃ t, exec (.fwvGet 0) State.reset = .next t ∧ t.err ≠ 0) ∧ (∃ t, exec .nop State.reset = .next t ∧ t.err = 0) ∧
    (∃ t, step (stEvent (.write 8 0x008 3)) = .next t ∧ t.sticky = 1) ∧
    (stEvent (.write 8 0x008 3)).sticky ≠ 1 ∧ (stLegal [.write 8 0x010 0x10000]).sticky = 1 ∧
    (∃ t, step (stLegal [.write 8 0x010 0x10000]) = .next t ∧ t.sticky ≠ 1) :=
  ⟨⟨_, rfl, by decide⟩, ⟨_, rfl, by decide⟩, ⟨_, rfl, by decide⟩, by decide, by decide, ⟨_, rfl, by decide⟩⟩

end Sys2Proof.Tests
end

/-! ## What a command leaves

A command raises, or it succeeds with the writes of its rule. `exec_raised` says the first; the `…_success` lemmas
say the second, one per command with checks, each with the checks the command passed. -/

namespace Sys2Proof.Machine

/-! ### Raises and completions -/

theorem raise_err_ne_zero (c : Cause) (info : Word) (s : State) : (raise c info s).err ≠ 0 := c.kind_ne_zero

/-- A command that ends with ERR not 0 has changed nothing but STATUS, ERRINFO and the mark (60_exceptions.md R224). -/
theorem exec_raised {i : Instr} {s t : State} (h : exec i s = .next t) (he : t.err ≠ 0) :
    ∃ c info b, t = raise c info (s.noteReads b) := by
  rcases exec_next_cases h with hr | ⟨u, rfl, -⟩
  · exact hr
  · exact absurd (succeed_err u) he

/-- Where ERR is 0 in the end, the check before the rest of the command has passed. -/
theorem check_passed {p : Prop} [Decidable p] {c : Cause} {info : Word} {s u t : State}
    (h : (if p then raise c info s else u) = t) (he : t.err = 0) : ¬ p ∧ u = t := by
  split at h
  · subst h; exact absurd he (raise_err_ne_zero c info s)
  · exact ⟨‹_›, h⟩

theorem exec_fwvInit_success {w : Nat} {s t : State} (h : exec (.fwvInit w) s = .next t) (he : t.err = 0) :
    InRange w ∧ s.arg0.toNat < 2 ^ w ∧
      t = succeed { s with fwvWidth := BitVec.ofNat 7 w, fwvValue := s.arg0, result := s.arg0 } := by
  obtain ⟨hw, h⟩ := check_passed (Host.Outcome.next.inj h) he
  obtain ⟨ha, rfl⟩ := check_passed h he
  exact ⟨not_not.1 hw, not_le.1 ha, rfl⟩

theorem exec_fwvGet_success {i : Nat} {s t : State} (h : exec (.fwvGet i) s = .next t) (he : t.err = 0) :
    s.fwvWidth ≠ 0 ∧ i < s.fwvWidth.toNat ∧
      t = succeed { s with result := zext64 (s.fwvValue.getLsbD i).toNat } := by
  obtain ⟨hw, h⟩ := check_passed (Host.Outcome.next.inj h) he
  obtain ⟨hi, rfl⟩ := check_passed h he
  exact ⟨hw, not_le.1 hi, rfl⟩

theorem exec_fwvSet_success {i : Nat} {s t : State} (h : exec (.fwvSet i) s = .next t) (he : t.err = 0) :
    s.fwvWidth ≠ 0 ∧ i < s.fwvWidth.toNat ∧ s.arg0.toNat ≤ 1 ∧
      t = succeed
        { s with fwvValue := replaceBit s.fwvValue i s.arg0, result := replaceBit s.fwvValue i s.arg0 } := by
  obtain ⟨hw, h⟩ := check_passed (Host.Outcome.next.inj h) he
  obtain ⟨hi, h⟩ := check_passed h he
  obtain ⟨ha, rfl⟩ := check_passed h he
  exact ⟨hw, not_le.1 hi, not_lt.1 ha, rfl⟩

theorem exec_fwvShin_success {s t : State} (h : exec .fwvShin s = .next t) (he : t.err = 0) :
    s.fwvWidth ≠ 0 ∧ s.arg0.toNat ≤ 1 ∧
      t = succeed
        { s with
          fwvValue := zext64 (shiftIn s.fwvWidth.toNat s.fwvValue.toNat s.arg0.toNat)
          result := zext64 (shiftIn s.fwvWidth.toNat s.fwvValue.toNat s.arg0.toNat) } := by
  obtain ⟨hw, h⟩ := check_passed (Host.Outcome.next.inj h) he
  obtain ⟨ha, rfl⟩ := check_passed h he
  exact ⟨hw, not_lt.1 ha, rfl⟩

theorem exec_bptFwd_success {n w : Nat} {s t : State} (h : exec (.bptFwd n w) s = .next t) (he : t.err = 0) :
    InRange n ∧ InRange w ∧ t = succeed (storeOut (transpose (s.inArray .operand n) w) (s.noteIn n)) := by
  obtain ⟨hn, h⟩ := check_passed (Host.Outcome.next.inj h) he
  obtain ⟨hw, rfl⟩ := check_passed h he
  exact ⟨not_not.1 hn, not_not.1 hw, rfl⟩

theorem exec_smpPack_success {m : Nat} {s t : State} (h : exec (.smpPack m) s = .next t) (he : t.err = 0) :
    InRange m ∧ t = succeed (storeOut (pack (s.inArray .operand m)) (s.noteIn m)) := by
  obtain ⟨hm, rfl⟩ := check_passed (Host.Outcome.next.inj h) he
  exact ⟨not_not.1 hm, rfl⟩

theorem decodeBlock_success {m : Nat} {out : List Word → List Word} {s t : State} (h : decodeBlock m out s = t)
    (he : t.err = 0) :
    1 ≤ s.inLen.toNat ∧ s.inLen.toNat ≤ 65 ∧ popcount m (s.inAt .check 0).toNat ≤ s.inLen.toNat - 1 ∧
      t = succeed (storeOut (out (unpack m (s.blockWord s.inLen.toNat)))
        (s.noteIn (1 + popcount m (s.inAt .check 0).toNat))) := by
  obtain ⟨hL, h⟩ := check_passed h he
  obtain ⟨h0, h⟩ := check_passed h he
  obtain ⟨hc, rfl⟩ := check_passed h he
  exact ⟨Nat.one_le_iff_ne_zero.2 h0, not_lt.1 hL, not_lt.1 hc, rfl⟩

theorem exec_smpUnpack_success {m : Nat} {s t : State} (h : exec (.smpUnpack m) s = .next t) (he : t.err = 0) :
    InRange m ∧ 1 ≤ s.inLen.toNat ∧ s.inLen.toNat ≤ 65 ∧
      popcount m (s.inAt .check 0).toNat ≤ s.inLen.toNat - 1 ∧
      t = succeed (storeOut (unpack m (s.blockWord s.inLen.toNat))
        (s.noteIn (1 + popcount m (s.inAt .check 0).toNat))) := by
  obtain ⟨hm, h⟩ := check_passed (Host.Outcome.next.inj h) he
  exact ⟨not_not.1 hm, decodeBlock_success h he⟩

theorem exec_blkEnc_success {n b : Nat} {s t : State} (h : exec (.blkEnc n b) s = .next t) (he : t.err = 0) :
    InRange n ∧ InRange b ∧ firstWide b (s.inArray .check n) = none ∧
      t = succeed (storeOut (pack (transpose (s.inArray .operand n) b)) (s.noteIn n)) := by
  obtain ⟨hn, h⟩ := check_passed (Host.Outcome.next.inj h) he
  obtain ⟨hb, h⟩ := check_passed h he
  split at h
  · subst h; exact absurd he (raise_err_ne_zero _ _ _)
  · exact ⟨not_not.1 hn, not_not.1 hb, ‹_›, h.symm⟩

theorem exec_blkDec_success {n b : Nat} {s t : State} (h : exec (.blkDec n b) s = .next t) (he : t.err = 0) :
    InRange n ∧ InRange b ∧ 1 ≤ s.inLen.toNat ∧ s.inLen.toNat ≤ 65 ∧
      popcount b (s.inAt .check 0).toNat ≤ s.inLen.toNat - 1 ∧
      t = succeed (storeOut (transpose (unpack b (s.blockWord s.inLen.toNat)) n)
        (s.noteIn (1 + popcount b (s.inAt .check 0).toNat))) := by
  obtain ⟨hn, h⟩ := check_passed (Host.Outcome.next.inj h) he
  obtain ⟨hb, h⟩ := check_passed h he
  exact ⟨not_not.1 hn, not_not.1 hb, decodeBlock_success h he⟩

/-! ### Accesses and runs -/

@[simp] theorem readWord_fwvValue (s : State) (off : Offset) : (s.readWord off).fwvValue = s.fwvValue := by
  simp [State.readWord]

@[simp] theorem readWord_fwvWidth (s : State) (off : Offset) : (s.readWord off).fwvWidth = s.fwvWidth := by
  simp [State.readWord]

@[simp] theorem readWord_sticky (s : State) (off : Offset) : (s.readWord off).sticky = s.sticky := by
  simp [State.readWord]

/-- What a STATUS write leaves (10_state.md R25). -/
theorem writeStatus_eq (v : Word) (s : State) :
    s.writeStatus v = { s with sticky := if v.getLsbD 16 = true then 0 else s.sticky } := by
  unfold State.writeStatus; split <;> rfl

/-- The step of a pending aligned write is the write at its target (20_memory.md R62, R64). -/
theorem step_write {s : State} {off : Offset} {v : Word} {rest : List HostEvent}
    (hp : s.pending = .write 8 off v :: rest) (ha : off.toNat % 8 = 0) :
    step s = State.writeTarget { s with pending := rest } v (targetAt off.toNat) := by
  rw [step_of_pending hp]
  exact if_pos (by simp [supported, ha])

/-- What every step keeps, every run keeps. -/
theorem run_keeps {P : State → Prop} (hstep : ∀ s t, P s → step s = .next t → P t) (k : Nat) {s t : State} (hs : P s)
    (h : core.run k s = .next t) : P t := by
  induction k generalizing s with
  | zero => cases h; exact hs
  | succ k ih =>
    simp only [Host.Core.run] at h
    split at h
    next u hu => exact ih (hstep s u hs hu) h
    next => cases h
    next => cases h

end Sys2Proof.Machine

/-! ## The FixedWidthValue bound (10_state.md R33) -/

namespace Sys2Proof.Machine

theorem State.FwvBound.of_eq {s t : State} (hs : s.FwvBound) (hv : t.fwvValue = s.fwvValue)
    (hw : t.fwvWidth = s.fwvWidth) : t.FwvBound := by rwa [State.FwvBound, hv, hw]

/-- Replacing a bit below the width keeps the value below 2^w: no bit at or above the width is set. -/
theorem replaceBit_lt {value bit : Word} {i w : Nat} (hv : value.toNat < 2 ^ w) (hi : i < w) (hb : bit.toNat ≤ 1) :
    (replaceBit value i bit).toNat < 2 ^ w := by
  refine Nat.lt_pow_two_of_testBit _ fun p hp => ?_
  have hvalue : value.getLsbD p = false :=
    Nat.testBit_lt_two_pow (hv.trans_le (Nat.pow_le_pow_right (by omega) hp))
  have hbit : bit.getLsbD (p - i) = false :=
    Nat.testBit_lt_two_pow (Nat.lt_of_le_of_lt hb (Nat.one_lt_two_pow (by omega)))
  rw [BitVec.testBit_toNat, replaceBit]
  simp [hvalue, hbit]

theorem zext64_shiftIn_lt (w value bit : Nat) : (zext64 (shiftIn w value bit)).toNat < 2 ^ w := by
  rw [zext64_toNat]
  exact (Nat.mod_le _ _).trans_lt (shiftIn_lt w value bit)

/-- Every command keeps the bound: a raise and the commands without an FWV result leave both registers, and FWV.INIT,
FWV.SET and FWV.SHIN establish or keep it by their checks. -/
theorem exec_fwvBound {i : Instr} {s t : State} (hs : s.FwvBound) (h : exec i s = .next t) : t.FwvBound := by
  by_cases he : t.err = 0
  · cases i with
    | nop => cases h; exact hs
    | clr => cases h; exact hs
    | xfer => cases h; exact hs.of_eq (by simp) (by simp)
    | fwvInit w =>
      obtain ⟨⟨-, hw⟩, ha, rfl⟩ := exec_fwvInit_success h he
      have hwidth : (BitVec.ofNat 7 w).toNat = w := by rw [BitVec.toNat_ofNat]; omega
      simpa [State.FwvBound, hwidth] using ha
    | fwvGet j => obtain ⟨-, -, rfl⟩ := exec_fwvGet_success h he; exact hs
    | fwvSet j => obtain ⟨-, hj, ha, rfl⟩ := exec_fwvSet_success h he; exact replaceBit_lt hs hj ha
    | fwvShin => obtain ⟨-, -, rfl⟩ := exec_fwvShin_success h he; exact zext64_shiftIn_lt _ _ _
    | bptFwd n w => obtain ⟨-, -, rfl⟩ := exec_bptFwd_success h he; exact hs.of_eq (by simp) (by simp)
    | smpPack m => obtain ⟨-, rfl⟩ := exec_smpPack_success h he; exact hs.of_eq (by simp) (by simp)
    | smpUnpack m => obtain ⟨-, -, -, -, rfl⟩ := exec_smpUnpack_success h he; exact hs.of_eq (by simp) (by simp)
    | blkEnc n b => obtain ⟨-, -, -, rfl⟩ := exec_blkEnc_success h he; exact hs.of_eq (by simp) (by simp)
    | blkDec n b => obtain ⟨-, -, -, -, -, rfl⟩ := exec_blkDec_success h he; exact hs.of_eq (by simp) (by simp)
  · obtain ⟨c, info, b, rfl⟩ := exec_raised h he
    exact hs.of_eq (by simp) (by simp)

theorem execute_fwvBound {v : Word} {s t : State} (hs : s.FwvBound) (h : execute v s = .next t) : t.FwvBound := by
  rcases execute_eq v s with ⟨i, -, hx⟩ | ⟨e, -, hx⟩ <;> rw [hx] at h
  · exact exec_fwvBound hs h
  · cases h; exact hs

theorem reset_fwvBound : State.reset.FwvBound := Nat.one_pos

/-- Every step keeps the bound: only a CMD write and reset reach the two registers. -/
theorem step_fwvBound {s t : State} (hs : s.FwvBound) (h : step s = .next t) : t.FwvBound := by
  rcases step_cases s with ⟨-, hx⟩ | ⟨e, rest, hp, hx⟩
  · rw [hx] at h; cases h; exact hs
  · by_cases hr : e = .reset
    · subst hr; rw [hx] at h; cases h; exact reset_fwvBound
    · rcases step_access_cases hp hr h with ⟨off, -, rfl⟩ | ⟨v, -, hv⟩ | ⟨v, -, rfl⟩ | ⟨v, -, rfl⟩ | ⟨v, -, rfl⟩ |
        ⟨off, i, v, -, rfl⟩ | ⟨off, v, -, rfl⟩
      · exact hs.of_eq (by simp) (by simp)
      · exact execute_fwvBound (s := { s with pending := rest, cmd := v }) hs hv
      · rw [writeStatus_eq]; exact hs
      · exact hs
      · exact hs
      · exact hs
      · exact hs

/-- Settles O12: the bound holds at reset and every step keeps it, so every run from reset does. -/
theorem fwvBoundIsKept : Obligations.FwvBoundIsKept := by
  refine ⟨reset_fwvBound, fun s hs hw => ?_, fun s t => step_fwvBound, fun p k t h => ?_⟩
  · have hv : s.fwvValue.toNat < 1 := by simpa [State.FwvBound, hw] using hs
    exact BitVec.eq_of_toNat_eq (Nat.lt_one_iff.1 hv)
  · exact run_keeps (P := State.FwvBound) (s := { State.reset with pending := p }) (fun _ _ => step_fwvBound) k
      reset_fwvBound h

end Sys2Proof.Machine

/-! ## RESULT, STATUS and ID (10_state.md R22, R25, R28, R37) -/

namespace Sys2Proof.Machine

/-- Settles O8: each command by the writes of its success, and every raise by `exec_raised`. -/
theorem resultWriters : Obligations.ResultWriters := by
  refine ⟨fun i s t h => ⟨fun he => ?_, fun he => ?_⟩, fun s v rest hp => step_write hp rfl, fun s => rfl, rfl⟩
  · obtain ⟨c, info, b, rfl⟩ := exec_raised h he
    simp
  · cases i with
    | nop => cases h; rfl
    | clr => cases h; rfl
    | xfer => cases h; simp
    | fwvInit w => obtain ⟨-, -, rfl⟩ := exec_fwvInit_success h he; rfl
    | fwvGet j =>
      obtain ⟨-, -, rfl⟩ := exec_fwvGet_success h he
      show zext64 (s.fwvValue.getLsbD j).toNat = _
      cases s.fwvValue.getLsbD j <;> rfl
    | fwvSet j => obtain ⟨-, -, -, rfl⟩ := exec_fwvSet_success h he; rfl
    | fwvShin => obtain ⟨-, -, rfl⟩ := exec_fwvShin_success h he; rfl
    | bptFwd n w => obtain ⟨-, -, rfl⟩ := exec_bptFwd_success h he; simp
    | smpPack m => obtain ⟨-, rfl⟩ := exec_smpPack_success h he; simp
    | smpUnpack m => obtain ⟨-, -, -, -, rfl⟩ := exec_smpUnpack_success h he; simp
    | blkEnc n b => obtain ⟨-, -, -, rfl⟩ := exec_blkEnc_success h he; simp
    | blkDec n b => obtain ⟨-, -, -, -, -, rfl⟩ := exec_blkDec_success h he; simp

/-- Settles O3: the constant's fields by computation, and the address map sends offset 0 to ID. -/
theorem idReadsItsConstant : Obligations.IdReadsItsConstant :=
  ⟨idValue, fun _ => rfl, rfl, rfl, rfl, rfl, rfl, rfl, fun _ _ _ hp => step_write hp rfl⟩

/-- Settles O5: the write reaches STATUS, where `writeStatus` touches STICKY alone. -/
theorem statusWriteClearsStickyOnly : Obligations.StatusWriteClearsStickyOnly := by
  intro s v rest hp
  rw [step_write hp rfl]
  exact congrArg Host.Outcome.next (writeStatus_eq v _)

/-! ### Commands do not read STATUS -/

/-- The state with other STATUS fields. -/
def State.setStatus (s : State) (e : BitVec 4) (c : BitVec 8) (k : BitVec 1) : State :=
  { s with err := e, cause := c, sticky := k }

/-- The state after a command whose STICKY was `k` before it. -/
def State.restick (t : State) (k : BitVec 1) : State := { t with sticky := if t.err = 0 then k else 1 }

section
variable {s : State} {e : BitVec 4} {c : BitVec 8} {k : BitVec 1}

/-- A raise writes all of STATUS. -/
theorem raise_setStatus (a : Cause) (info : Word) :
    raise a info (s.setStatus e c k) = (raise a info s).restick k := by
  rw [State.restick, if_neg (raise_err_ne_zero a info s)]; rfl

theorem noteReads_setStatus (b : Bool) : (s.setStatus e c k).noteReads b = (s.noteReads b).setStatus e c k := by
  rw [noteReads_eq, noteReads_eq]; rfl

theorem inArray_setStatus (pass : ReadPass) (n : Nat) : (s.setStatus e c k).inArray pass n = s.inArray pass n := rfl

/-- An array result does not depend on STATUS. -/
theorem storeOut_noteReads_setStatus (d : List Word) (b : Bool) :
    succeed (storeOut d ((s.setStatus e c k).noteReads b)) = (succeed (storeOut d (s.noteReads b))).restick k := by
  rw [noteReads_setStatus]; rfl

/-- A check that does not read STATUS, before a rest that does not. -/
theorem check_setStatus {p : Prop} [Decidable p] {a : Cause} {info : Word} {r u u' : State}
    (hr : r = s.setStatus e c k) (hu : u' = u.restick k) :
    (if p then raise a info r else u') = (if p then raise a info s else u).restick k := by
  subst hr hu
  split
  · exact raise_setStatus a info
  · rfl

theorem decodeBlock_setStatus (m : Nat) (out : List Word → List Word) :
    decodeBlock m out (s.setStatus e c k) = (decodeBlock m out s).restick k :=
  check_setStatus rfl (check_setStatus rfl
    (check_setStatus (noteReads_setStatus _) (storeOut_noteReads_setStatus _ _)))

end

/-- No command reads STATUS: from other STATUS fields it ends in the same state, but that a STICKY it does not set is
the one found. Each case follows the command's checks, in their order, to the state it completes with. -/
theorem exec_setStatus (i : Instr) (s : State) (e : BitVec 4) (c : BitVec 8) (k : BitVec 1) :
    ∃ t, exec i s = .next t ∧ exec i (s.setStatus e c k) = .next (t.restick k) := by
  cases i with
  | nop => exact ⟨_, rfl, rfl⟩
  | clr =>
    refine ⟨_, rfl, ?_⟩
    -- Record updates only: `rfl` would evaluate the 65 writes of CLR.
    simp only [exec, execClr, State.setStatus, State.restick, succeed, State.markOk, if_true]
  | xfer =>
    refine ⟨_, rfl, ?_⟩
    simp only [exec, execXfer, noteOut_def, noteReads_setStatus]
    rfl
  | fwvInit w => exact ⟨_, rfl, congrArg Host.Outcome.next (check_setStatus rfl (check_setStatus rfl rfl))⟩
  | fwvGet j => exact ⟨_, rfl, congrArg Host.Outcome.next (check_setStatus rfl (check_setStatus rfl rfl))⟩
  | fwvSet j =>
    exact ⟨_, rfl, congrArg Host.Outcome.next (check_setStatus rfl (check_setStatus rfl (check_setStatus rfl rfl)))⟩
  | fwvShin => exact ⟨_, rfl, congrArg Host.Outcome.next (check_setStatus rfl (check_setStatus rfl rfl))⟩
  | bptFwd n w =>
    exact ⟨_, rfl, congrArg Host.Outcome.next
      (check_setStatus rfl (check_setStatus rfl (storeOut_noteReads_setStatus _ _)))⟩
  | smpPack m => exact ⟨_, rfl, congrArg Host.Outcome.next (check_setStatus rfl (storeOut_noteReads_setStatus _ _))⟩
  | smpUnpack m => exact ⟨_, rfl, congrArg Host.Outcome.next (check_setStatus rfl (decodeBlock_setStatus _ _))⟩
  | blkEnc n b =>
    refine ⟨_, rfl, congrArg Host.Outcome.next (check_setStatus rfl (check_setStatus rfl ?_))⟩
    rw [inArray_setStatus]
    cases firstWide b (s.inArray .check n) with
    | none => exact storeOut_noteReads_setStatus _ _
    | some j => exact (congrArg _ (noteReads_setStatus _)).trans (raise_setStatus _ _)
  | blkDec n b =>
    exact ⟨_, rfl, congrArg Host.Outcome.next (check_setStatus rfl (check_setStatus rfl (decodeBlock_setStatus _ _)))⟩

/-- However a command ends, a raise has set STICKY and a completion has kept it. -/
theorem sticky_of_ending {s t : State}
    (h : (∃ c info b, t = raise c info (s.noteReads b)) ∨ (∃ u, t = succeed u ∧ Keeps s u)) :
    (t.err = 0 → t.sticky = s.sticky) ∧ (t.err ≠ 0 → t.sticky = 1) := by
  rcases h with ⟨c, info, b, rfl⟩ | ⟨u, rfl, -, hsticky, -⟩
  · exact ⟨fun he => absurd he (raise_err_ne_zero _ _ _), fun _ => rfl⟩
  · exact ⟨fun _ => hsticky, fun he => absurd rfl he⟩

/-- An access that changes STICKY is a CMD write that raises, or a STATUS write with bit 16 set. -/
theorem access_sticky_cases {s t : State} {e : HostEvent} {rest : List HostEvent} (hp : s.pending = e :: rest)
    (hr : e ≠ .reset) (h : step s = .next t) :
    t.sticky = s.sticky ∨ (t.sticky = 1 ∧ t.err ≠ 0 ∧ ∃ v, e = .write 8 0x008 v) ∨
      (t.sticky = 0 ∧ ∃ v : Word, e = .write 8 0x010 v ∧ v.getLsbD 16 = true) := by
  rcases step_access_cases hp hr h with ⟨off, -, rfl⟩ | ⟨v, rfl, hv⟩ | ⟨v, rfl, rfl⟩ | ⟨v, -, rfl⟩ | ⟨v, -, rfl⟩ |
    ⟨off, i, v, -, rfl⟩ | ⟨off, v, -, rfl⟩
  · exact .inl (readWord_sticky _ _)
  · obtain ⟨kept, set⟩ := sticky_of_ending (execute_next_cases hv)
    by_cases he : t.err = 0
    · exact .inl (kept he)
    · exact .inr (.inl ⟨set he, he, v, rfl⟩)
  · rw [writeStatus_eq]
    by_cases hb : v.getLsbD 16 = true
    · exact .inr (.inr ⟨if_pos hb, v, rfl, hb⟩)
    · exact .inl (if_neg hb)
  · exact .inl rfl
  · exact .inl rfl
  · exact .inl rfl
  · exact .inl rfl

/-- Settles O60: commands by `exec_setStatus` and by how they end, and events by what can change STICKY. -/
theorem statusIsWrittenNeverRead : Obligations.StatusIsWrittenNeverRead := by
  refine ⟨fun i s e c k => ?_, fun s t e rest hp h => ?_⟩
  · obtain ⟨t, ht, hblind⟩ := exec_setStatus i s e c k
    exact ⟨t, ht, hblind, sticky_of_ending (exec_next_cases ht)⟩
  · by_cases hr : e = .reset
    · subst hr
      rw [step_of_pending hp] at h
      cases h
      exact ⟨fun _ h1 => absurd (show (0 : BitVec 1) = 1 from h1) (by decide), fun _ _ => .inl rfl⟩
    · rcases access_sticky_cases hp hr h with hkept | ⟨h1, he, hv⟩ | ⟨h0, hv⟩
      · exact ⟨fun hs ht => absurd (hkept ▸ ht) hs, fun hs ht => absurd (hkept.trans hs) ht⟩
      · exact ⟨fun _ _ => ⟨hv, he⟩, fun _ ht => absurd h1 ht⟩
      · exact ⟨fun _ ht => absurd (h0.symm.trans ht) (by decide), fun _ _ => .inr hv⟩

end Sys2Proof.Machine

/-! ## The port's accesses and the window (20_memory.md R61, R63 to R65) -/

namespace Sys2Proof.Machine

/-! ### Which accesses have a step (20_memory.md R64) -/

theorem supported_iff (width : Nat) (off : Offset) :
    supported width off = true ↔ width = 8 ∧ off.toNat % 8 = 0 := by
  simp [supported]

theorem not_supported {width : Nat} {off : Offset} (h : width ≠ 8 ∨ off.toNat % 8 ≠ 0) :
    ¬ supported width off = true := by
  rw [supported_iff]; omega

/-- The step of a pending aligned read returns the word at its target (20_memory.md R70). -/
theorem step_read {s : State} {off : Offset} {rest : List HostEvent} (hp : s.pending = .read 8 off :: rest)
    (ha : off.toNat % 8 = 0) : step s = .next (State.readWord { s with pending := rest } off) := by
  rw [step_of_pending hp]
  exact if_pos ((supported_iff 8 off).2 ⟨rfl, ha⟩)

theorem exec_total (i : Instr) (s : State) : ∃ t, exec i s = .next t := by
  rcases exec_cases i s with ⟨c, info, b, h⟩ | ⟨u, h, -⟩
  · exact ⟨_, h⟩
  · exact ⟨_, h⟩

theorem execute_total (v : Word) (s : State) : ∃ t, execute v s = .next t := by
  rcases execute_eq v s with ⟨i, -, h⟩ | ⟨e, -, h⟩ <;> rw [h]
  · exact exec_total i s
  · exact ⟨_, rfl⟩

/-- A write at a target always ends in a next state: only CMD runs a command, and every command does. -/
theorem writeTarget_total (s : State) (v : Word) (target : Target) : ∃ t, s.writeTarget v target = .next t := by
  cases target with
  | cmd => exact execute_total v _
  | _ => exact ⟨_, rfl⟩

/-- Settles O18: an unsupported access is refused, and reads and writes of a supported one always end. -/
theorem unsupportedAccessHasNoStep : Obligations.UnsupportedAccessHasNoStep := by
  refine fun s width off v rest => ⟨fun h => ⟨fun hp => ?_, fun hp => ?_⟩, ?_⟩
  · rw [step_of_pending hp]
    exact if_neg (not_supported h)
  · rw [step_of_pending hp]
    exact if_neg (not_supported h)
  · rintro ⟨rfl, ha⟩ (hp | hp)
    · exact ⟨_, step_read hp ha⟩
    · rw [step_write hp ha]
      exact writeTarget_total _ _ _

/-! ### Reserved and read-only offsets (20_memory.md R63) -/

theorem targetAt_reserved {off : Nat} (h : (0x050 ≤ off ∧ off ≤ 0x3F8) ∨ (0x608 ≤ off ∧ off ≤ 0x7F8) ∨
    (0xA08 ≤ off ∧ off ≤ 0xFF8)) : targetAt off = .reserved := by
  simp (disch := omega) only [targetAt, if_neg]

theorem targetAt_outRange {off : Nat} (h : 0x800 ≤ off ∧ off ≤ 0xA00) :
    targetAt off = .outWord ((off - 0x800) / 8) := by
  simp (disch := omega) only [targetAt, if_neg, if_pos]

/-- The port ignores a write at a reserved offset, an OUT word or a read-only register. -/
theorem writeTarget_readOnly (s : State) (v : Word) {off : Nat} (h : (0x050 ≤ off ∧ off ≤ 0x3F8) ∨
    (0x608 ≤ off ∧ off ≤ 0x7F8) ∨ (0xA08 ≤ off ∧ off ≤ 0xFF8) ∨ (0x800 ≤ off ∧ off ≤ 0xA00) ∨
    off ∈ [0x000, 0x018, 0x028, 0x038, 0x040, 0x048]) : s.writeTarget v (targetAt off) = .next s := by
  rcases h with h | h | h | h | h
  · rw [targetAt_reserved (.inl h)]; rfl
  · rw [targetAt_reserved (.inr (.inl h))]; rfl
  · rw [targetAt_reserved (.inr (.inr h))]; rfl
  · rw [targetAt_outRange h]; rfl
  · simp only [List.mem_cons, List.not_mem_nil, or_false] at h
    rcases h with rfl | rfl | rfl | rfl | rfl | rfl <;> rfl

theorem readWord_reserved (s : State) {off : Offset} (h : targetAt off.toNat = .reserved) :
    s.readWord off = { s with returned := s.returned ++ [0] } := by
  rw [State.readWord, h]; rfl

theorem writeStatus_of_bit16_clear {v : Word} (h : v.getLsbD 16 = false) (s : State) : s.writeStatus v = s :=
  if_neg (ne_true_of_eq_false h)

/-- Settles O17: by the targets of the named offsets, and by STATUS's one writable bit. -/
theorem reservedAndReadOnlyOffsets : Obligations.ReservedAndReadOnlyOffsets := by
  refine ⟨fun s off rest ha h hp => ?_, fun s off v rest ha h hp => ?_, fun s v rest hv hp => ?_⟩
  · rw [step_read hp ha, readWord_reserved _ (targetAt_reserved h)]
  · rw [step_write hp ha, writeTarget_readOnly _ v h]
  · rw [step_write hp rfl]
    exact congrArg Host.Outcome.next (writeStatus_of_bit16_clear hv _)

/-! ### Byte lanes (20_memory.md R65) -/

/-- Lane `k` is digit `k` of the word in base 256. -/
theorem byteLane_toNat (v : Word) (k : Nat) : (byteLane v k).toNat = v.toNat / 256 ^ k % 256 := by
  rw [byteLane, BitVec.extractLsb'_toNat, Nat.shiftRight_eq_div_pow, Nat.pow_mul]

/-- The lowest `n` digits of a number in base 256, summed at their places. -/
theorem mod_pow_eq_sum_bytes (x n : Nat) :
    x % 256 ^ n = ((List.range n).map fun k => x / 256 ^ k % 256 * 256 ^ k).sum := by
  induction n with
  | zero => simp [Nat.mod_one]
  | succ n ih => rw [Nat.mod_pow_succ, List.sum_range_succ, ih, Nat.mul_comm (256 ^ n)]

/-- Settles O19: the lanes are the word's eight digits in base 256. -/
theorem byteLanesAreLittleEndian : Obligations.ByteLanesAreLittleEndian := by
  refine ⟨fun v k j _ hj => ?_, fun v => ?_, fun s a => rfl⟩
  · rw [byteLane, BitVec.getLsbD_extractLsb', decide_eq_true hj, Bool.true_and]
  · simp only [byteLane_toNat]
    rw [← mod_pow_eq_sum_bytes, Nat.mod_eq_of_lt (show v.toNat < 256 ^ 8 from v.isLt)]

/-! ### The window (20_memory.md R61) -/

/-- The register or buffer word a target is, if it is one. -/
def Target.regName : Target → Option RegName
  | .id => some .id
  | .cmd => some .cmd
  | .status => some .status
  | .errInfo => some .errInfo
  | .arg0 => some .arg0
  | .result => some .result
  | .inLenReg => some .inLen
  | .outLenReg => some .outLen
  | .fwvValue => some .fwvValue
  | .fwvWidth => some .fwvWidth
  | .inWord i => if h : i < 65 then some (.inWord ⟨i, h⟩) else none
  | .outWord i => if h : i < 65 then some (.outWord ⟨i, h⟩) else none
  | .reserved => none

/-- The address map names each register and buffer word back from its offset. -/
theorem regName_targetAt_offset (r : RegName) : (targetAt r.offset).regName = some r := by
  cases r with
  | inWord i => rw [RegName.offset, targetAt_in i.val (by omega), Target.regName, dif_pos i.isLt]
  | outWord i => rw [RegName.offset, targetAt_out i.val (by omega), Target.regName, dif_pos i.isLt]
  | _ => rfl

theorem RegName.offset_injective : Function.Injective RegName.offset := by
  intro r r' h
  refine Option.some.inj ?_
  rw [← regName_targetAt_offset r, h, regName_targetAt_offset r']

/-- The 8 bytes of a register or buffer word stand at a multiple of 8, inside the window. -/
theorem RegName.offset_in_window (r : RegName) : r.offset % 8 = 0 ∧ r.offset + 8 ≤ 0x1000 := by
  cases r with
  | inWord i => rw [RegName.offset]; omega
  | outWord i => rw [RegName.offset]; omega
  | _ => decide

theorem BusAccess.toEvent_outside {a : BusAccess}
    (h : a.addr < Config.bpteBase ∨ Config.bpteBase + 0x1000 ≤ a.addr) : a.toEvent = none :=
  if_neg (by omega)

/-- An access at offset `k` from BPTE_BASE reaches the port at that offset. -/
theorem BusAccess.toEvent_inside {k : Nat} (hk : k ≤ 0xFFF) (width : Nat) (data : Option Word) :
    (BusAccess.mk (Config.bpteBase + k) width data).toEvent = some (match data with
      | none => .read width (BitVec.ofNat 12 k)
      | some v => .write width (BitVec.ofNat 12 k) v) := by
  rw [BusAccess.toEvent, if_pos ⟨Nat.le_add_right _ _, Nat.add_lt_add_left (Nat.lt_succ_of_le hk) _⟩]
  cases data <;> simp

/-- Settles O25: each register by its offset, which the address map inverts, and each access by its offset. -/
theorem busAccessesReachTheWindow : Obligations.BusAccessesReachTheWindow := by
  refine ⟨fun r => ?_, fun a => ⟨BusAccess.toEvent_outside, fun k hk ha => ?_, Nat.mul_mod_right 4096 _⟩⟩
  · obtain ⟨aligned, inside⟩ := r.offset_in_window
    exact ⟨aligned, inside, fun r' h => RegName.offset_injective h⟩
  · obtain ⟨addr, width, data⟩ := a
    obtain rfl : addr = Config.bpteBase + k := ha
    exact ⟨BitVec.ofNat 12 k, by rw [BitVec.toNat_ofNat]; omega, BusAccess.toEvent_inside hk width data⟩

end Sys2Proof.Machine

/-! ## The opcode map and decoding (30_encoding.md R91, R93, R95) -/

namespace Sys2Proof

/-- The OPC value of a command (30_encoding.md R93). -/
def Instr.opc : Instr → Nat
  | .nop => 0x00
  | .clr => 0x01
  | .xfer => 0x02
  | .fwvInit _ => 0x10
  | .fwvGet _ => 0x11
  | .fwvSet _ => 0x12
  | .fwvShin => 0x13
  | .bptFwd _ _ => 0x20
  | .smpPack _ => 0x30
  | .smpUnpack _ => 0x31
  | .blkEnc _ _ => 0x40
  | .blkDec _ _ => 0x41

/-- The P1 a command encodes, 0 where it uses none. -/
def Instr.p1 : Instr → Nat
  | .fwvInit w => w
  | .bptFwd n _ => n
  | .smpPack m => m
  | .smpUnpack m => m
  | .blkEnc n _ => n
  | .blkDec n _ => n
  | _ => 0

/-- The P2 a command encodes, 0 where it uses none. -/
def Instr.p2 : Instr → Nat
  | .fwvGet i => i
  | .fwvSet i => i
  | .bptFwd _ w => w
  | .blkEnc _ b => b
  | .blkDec _ b => b
  | _ => 0

/-- The assigned OPC values (30_encoding.md R93). -/
abbrev assignedOpcs : List Nat := [0x00, 0x01, 0x02, 0x10, 0x11, 0x12, 0x13, 0x20, 0x30, 0x31, 0x40, 0x41]

/-- The OPC values whose P1 must be 0. -/
abbrev zeroP1Opcs : List Nat := [0x00, 0x01, 0x02, 0x11, 0x12, 0x13]

/-- The OPC values whose P2 must be 0. -/
abbrev zeroP2Opcs : List Nat := [0x00, 0x01, 0x02, 0x10, 0x13, 0x30, 0x31]

/-- A field that must be 0 is not: the third illegality check of 30_encoding.md R95. -/
abbrev BadField (opc p1 p2 : Nat) : Prop := (p1 ≠ 0 ∧ opc ∈ zeroP1Opcs) ∨ (p2 ≠ 0 ∧ opc ∈ zeroP2Opcs)

theorem encode_eq (i : Instr) : encode i = encodeFields i.opc i.p1 i.p2 := by cases i <;> rfl

/-! ### What the opcode map answers -/

theorem decodeFields_instr (i : Instr) : decodeFields i.opc i.p1 i.p2 = .ok i := by cases i <;> rfl

theorem decodeFields_badOpc {opc : Nat} (p1 p2 : Nat) (h : opc ∉ assignedOpcs) :
    decodeFields opc p1 p2 = .error .badOpc := by
  simp only [List.mem_cons, List.not_mem_nil, or_false, not_or] at h
  simp [decodeFields, h]

theorem decodeFields_badField {opc p1 p2 : Nat} (h : BadField opc p1 p2) :
    decodeFields opc p1 p2 = .error .badField := by
  simp only [BadField, List.mem_cons, List.not_mem_nil, or_false] at h
  rcases h with ⟨h, rfl | rfl | rfl | rfl | rfl | rfl⟩ | ⟨h, rfl | rfl | rfl | rfl | rfl | rfl | rfl⟩ <;>
    simp [decodeFields, decodeNone, decodeP1, decodeP2, h]

/-- An assigned OPC with the fields it allows is a command's. -/
theorem exists_instr {opc p1 p2 : Nat} (ho : opc ∈ assignedOpcs) (hf : ¬ BadField opc p1 p2) :
    ∃ i : Instr, i.opc = opc ∧ i.p1 = p1 ∧ i.p2 = p2 := by
  have zero1 (h : opc ∈ zeroP1Opcs) : 0 = p1 := by_contra fun hne => hf (.inl ⟨Ne.symm hne, h⟩)
  have zero2 (h : opc ∈ zeroP2Opcs) : 0 = p2 := by_contra fun hne => hf (.inr ⟨Ne.symm hne, h⟩)
  simp only [List.mem_cons, List.not_mem_nil, or_false] at ho
  rcases ho with rfl | rfl | rfl | rfl | rfl | rfl | rfl | rfl | rfl | rfl | rfl | rfl
  · exact ⟨.nop, rfl, zero1 (by decide), zero2 (by decide)⟩
  · exact ⟨.clr, rfl, zero1 (by decide), zero2 (by decide)⟩
  · exact ⟨.xfer, rfl, zero1 (by decide), zero2 (by decide)⟩
  · exact ⟨.fwvInit p1, rfl, rfl, zero2 (by decide)⟩
  · exact ⟨.fwvGet p2, rfl, zero1 (by decide), rfl⟩
  · exact ⟨.fwvSet p2, rfl, zero1 (by decide), rfl⟩
  · exact ⟨.fwvShin, rfl, zero1 (by decide), zero2 (by decide)⟩
  · exact ⟨.bptFwd p1 p2, rfl, rfl, rfl⟩
  · exact ⟨.smpPack p1, rfl, rfl, zero2 (by decide)⟩
  · exact ⟨.smpUnpack p1, rfl, rfl, zero2 (by decide)⟩
  · exact ⟨.blkEnc p1 p2, rfl, rfl, rfl⟩
  · exact ⟨.blkDec p1 p2, rfl, rfl, rfl⟩

/-! ### What decoding answers (30_encoding.md R95) -/

theorem decode_of_rsv {v : Word} (h : rsvField v = 0) : decode v = decodeFields (opcField v) (p1Field v) (p2Field v) :=
  if_neg (not_not.2 h)

theorem decode_rsvBits {v : Word} (h : rsvField v ≠ 0) : decode v = .error .rsvBits := if_pos h

theorem decode_badOpc {v : Word} (hr : rsvField v = 0) (ho : opcField v ∉ assignedOpcs) :
    decode v = .error .badOpc := by
  rw [decode_of_rsv hr, decodeFields_badOpc _ _ ho]

theorem decode_badField {v : Word} (hr : rsvField v = 0) (hf : BadField (opcField v) (p1Field v) (p2Field v)) :
    decode v = .error .badField := by
  rw [decode_of_rsv hr, decodeFields_badField hf]

/-- A CMD value that passes the three checks is the encoding of the command it decodes to. -/
theorem decode_legal {v : Word} (hr : rsvField v = 0) (ho : opcField v ∈ assignedOpcs)
    (hf : ¬ BadField (opcField v) (p1Field v) (p2Field v)) :
    ∃ i, decode v = .ok i ∧ i.opc = opcField v ∧ encode i = v := by
  obtain ⟨i, hopc, hp1, hp2⟩ := exists_instr ho hf
  refine ⟨i, ?_, hopc, ?_⟩
  · rw [decode_of_rsv hr, ← hopc, ← hp1, ← hp2, decodeFields_instr]
  · rw [encode_eq, hopc, hp1, hp2, encodeFields_fields v hr]

/-- What a CMD value that decodes has passed, and what it decodes to. -/
theorem decode_eq_ok {v : Word} {i : Instr} (h : decode v = .ok i) :
    rsvField v = 0 ∧ opcField v ∈ assignedOpcs ∧ ¬ BadField (opcField v) (p1Field v) (p2Field v) ∧
      i.opc = opcField v ∧ encode i = v := by
  have hr : rsvField v = 0 := by_contra fun hr => by simp [decode_rsvBits hr] at h
  have ho : opcField v ∈ assignedOpcs := by_contra fun ho => by simp [decode_badOpc hr ho] at h
  have hf : ¬ BadField (opcField v) (p1Field v) (p2Field v) := fun hf => by simp [decode_badField hr hf] at h
  obtain ⟨j, hj, hopc, henc⟩ := decode_legal hr ho hf
  obtain rfl : j = i := Except.ok.inj (hj.symm.trans h)
  exact ⟨hr, ho, hf, hopc, henc⟩

end Sys2Proof

/-! ## Execute (30_encoding.md R95) -/

namespace Sys2Proof.Machine

theorem execute_error {v : Word} {e : DecodeError} (h : decode v = .error e) (s : State) :
    execute v s = .next (raise (decodeCause e) v s) := by rw [execute, h]

theorem execute_ok {v : Word} {i : Instr} (h : decode v = .ok i) (s : State) : execute v s = exec i s := by
  rw [execute, h]

/-- However a command ends, STATUS records its raise, or ERR and CAUSE are cleared and STICKY is kept. -/
theorem status_of_ending {s t : State}
    (h : (∃ c info b, t = raise c info (s.noteReads b)) ∨ (∃ u, t = succeed u ∧ Keeps s u)) :
    t.sticky = s.sticky ∧ t.err = 0 ∧ t.cause = 0 ∨ t.sticky = 1 ∧ t.err ≠ 0 ∧ t.cause ≠ 0 := by
  rcases h with ⟨c, info, b, rfl⟩ | ⟨u, rfl, -, hsticky, -⟩
  · exact .inr ⟨rfl, c.kind_ne_zero, c.code_ne_zero⟩
  · exact .inl ⟨hsticky, rfl, rfl⟩

/-- Settles O32: the value's fields as remainders, then one lemma on `decode` for each check. -/
theorem executeChecksThenPerforms : Obligations.ExecuteChecksThenPerforms := by
  intro v s
  rw [← rsvField_eq, ← opcField_eq, ← p1Field_eq, ← p2Field_eq]
  split_ifs with hr ho hf
  · exact execute_error (decode_rsvBits hr) s
  · exact execute_error (decode_badField (not_not.1 hr) hf) s
  · obtain ⟨i, hi, -, henc⟩ := decode_legal (not_not.1 hr) ho hf
    obtain ⟨t, ht⟩ := exec_total i s
    exact ⟨i, t, hi, henc, execute_ok hi s, ht, status_of_ending (exec_next_cases ht)⟩
  · exact execute_error (decode_badOpc (not_not.1 hr) ho) s

end Sys2Proof.Machine

/-! ## The match and mask table (30_encoding.md R94) -/

namespace Sys2Proof

/-- Two CMD values are equal where their fields are. -/
theorem eq_iff_fields (v w : Word) :
    v = w ↔ rsvField v = rsvField w ∧ opcField v = opcField w ∧ p1Field v = p1Field w ∧ p2Field v = p2Field w := by
  refine ⟨by rintro rfl; exact ⟨rfl, rfl, rfl, rfl⟩, fun h => BitVec.eq_of_toNat_eq ?_⟩
  simp only [rsvField_eq, opcField_eq, p1Field_eq, p2Field_eq] at h
  omega

theorem rsvField_and (v w : Word) : rsvField (v &&& w) = rsvField v &&& rsvField w := by
  simp [rsvField, BitVec.extractLsb'_and]

theorem opcField_and (v w : Word) : opcField (v &&& w) = opcField v &&& opcField w := by
  simp [opcField, BitVec.extractLsb'_and]

theorem p1Field_and (v w : Word) : p1Field (v &&& w) = p1Field v &&& p1Field w := by
  simp [p1Field, BitVec.extractLsb'_and]

theorem p2Field_and (v w : Word) : p2Field (v &&& w) = p2Field v &&& p2Field w := by
  simp [p2Field, BitVec.extractLsb'_and]

/-- The fields of the rows: a mask covers RSV, OPC and the fields that must be 0, and a pattern is an OPC alone. -/
theorem matchTable_fields : ∀ r ∈ matchTable,
    (rsvField r.mask = 2 ^ 42 - 1 ∧ opcField r.mask = 2 ^ 8 - 1 ∧
      p1Field r.mask = (if opcField r.pattern ∈ zeroP1Opcs then 2 ^ 7 - 1 else 0) ∧
      p2Field r.mask = if opcField r.pattern ∈ zeroP2Opcs then 2 ^ 7 - 1 else 0) ∧
    (rsvField r.pattern = 0 ∧ p1Field r.pattern = 0 ∧ p2Field r.pattern = 0) ∧
    opcField r.pattern ∈ assignedOpcs := by decide

/-- A 7-bit field agrees with 0 under its mask where it is 0 or need not be. -/
theorem and_fieldMask_eq_zero {x : Nat} (hx : x < 2 ^ 7) (p : Prop) [Decidable p] :
    (x &&& if p then 2 ^ 7 - 1 else 0) = 0 ↔ ¬ (x ≠ 0 ∧ p) := by
  split
  · rw [Nat.and_two_pow_sub_one_of_lt_two_pow hx]; tauto
  · simp [*]

/-- A row selects the CMD values with its OPC that pass the reserved-bit and field checks. -/
theorem row_selects_iff {r : MatchRow} (hr : r ∈ matchTable) (v : Word) :
    v &&& r.mask = r.pattern ↔ rsvField v = 0 ∧ opcField v = opcField r.pattern ∧
      ¬ BadField (opcField v) (p1Field v) (p2Field v) := by
  obtain ⟨⟨mrsv, mopc, mp1, mp2⟩, ⟨prsv, pp1, pp2⟩, -⟩ := matchTable_fields r hr
  have hrsv : rsvField v < 2 ^ 42 := (v.extractLsb' 22 42).isLt
  rw [eq_iff_fields, rsvField_and, opcField_and, p1Field_and, p2Field_and, mrsv, mopc, mp1, mp2, prsv, pp1, pp2,
    Nat.and_two_pow_sub_one_of_lt_two_pow hrsv, Nat.and_two_pow_sub_one_of_lt_two_pow (opcField_lt v),
    and_fieldMask_eq_zero (p1Field_lt v), and_fieldMask_eq_zero (p2Field_lt v), ← not_or]
  refine and_congr_right fun _ => and_congr_right fun ho => ?_
  rw [ho]

/-- The OPC of a row tells it from the others. -/
theorem row_of_opc : ∀ r ∈ matchTable, ∀ r' ∈ matchTable, opcField r.pattern = opcField r'.pattern → r = r' := by
  decide

theorem exists_row_of_opc : ∀ opc ∈ assignedOpcs, ∃ r ∈ matchTable, opc = opcField r.pattern := by decide

/-- The row with a command's OPC names the command. -/
theorem row_mnemonic {i : Instr} : ∀ r ∈ matchTable, i.opc = opcField r.pattern → r.mnemonic = i.mnemonic := by
  cases i <;> simp only [Instr.opc, Instr.mnemonic] <;> decide

/-- Settles O31: a row selects by its OPC and the checks that decoding makes, and the rows' OPC values differ. -/
theorem matchTableSelectsTheCommand : Obligations.MatchTableSelectsTheCommand := by
  refine ⟨fun v => ⟨fun ⟨i, hi⟩ => ?_, fun ⟨r, hr, hsel⟩ => ?_⟩, fun v i r hr hi hsel => ?_,
    fun v r r' hr hr' hsel hsel' => ?_, rfl⟩
  · obtain ⟨hrsv, ho, hf, -⟩ := decode_eq_ok hi
    obtain ⟨r, hr, hopc⟩ := exists_row_of_opc _ ho
    exact ⟨r, hr, (row_selects_iff hr v).2 ⟨hrsv, hopc, hf⟩⟩
  · obtain ⟨hrsv, hopc, hf⟩ := (row_selects_iff hr v).1 hsel
    obtain ⟨-, -, ho⟩ := matchTable_fields r hr
    obtain ⟨i, hi, -⟩ := decode_legal hrsv (hopc ▸ ho) hf
    exact ⟨i, hi⟩
  · obtain ⟨-, hopc, -⟩ := (row_selects_iff hr v).1 hsel
    obtain ⟨-, -, -, hi, -⟩ := decode_eq_ok hi
    exact row_mnemonic r hr (hi.trans hopc)
  · obtain ⟨-, hopc, -⟩ := (row_selects_iff hr v).1 hsel
    obtain ⟨-, hopc', -⟩ := (row_selects_iff hr' v).1 hsel'
    exact row_of_opc r hr r' hr' (hopc.symm.trans hopc')

/-- Settles O28: sixteen fixed words, by computation. -/
theorem workedEncodings : Obligations.WorkedEncodings := by
  unfold Obligations.WorkedEncodings
  decide

end Sys2Proof

/-! ## Host-program lines (30_encoding.md R100) -/

namespace Sys2Proof.Machine

theorem issue_pending (s : State) (p : List HostLine) :
    (s.issue p).pending = s.pending ++ (p.flatMap HostLine.accesses).filterMap BusAccess.toEvent := rfl

theorem RegName.offset_le (r : RegName) : r.offset ≤ 0xFFF := by
  obtain ⟨-, inside⟩ := r.offset_in_window
  omega

/-- A line that is one access leaves that access pending last. -/
theorem issue_single {l : HostLine} {a : BusAccess} {e : HostEvent} (hl : l.accesses = [a]) (ha : a.toEvent = some e)
    (s : State) : (s.issue [l]).pending = s.pending ++ [e] := by
  simp [issue_pending, hl, ha]

/-- The writes of WR IN reach the port at the words from index `i` on. -/
theorem filterMap_inWrites (i : Nat) (vs : List Word) (h : i + vs.length ≤ 65) :
    (inWrites i vs).filterMap BusAccess.toEvent =
      (vs.zipIdx i).map fun e => .write 8 (BitVec.ofNat 12 (0x400 + 8 * e.2)) e.1 := by
  induction vs generalizing i with
  | nil => rfl
  | cons v t ih =>
    rw [List.length_cons] at h
    rw [inWrites, List.filterMap_cons_some (BusAccess.toEvent_inside (by omega) 8 (some v)), ih (i + 1) (by omega)]
    rfl

/-- Settles O26: each access of a line by the offset it names, and WR IN by induction on its words. -/
theorem hostLinesMakeTheirAccesses : Obligations.HostLinesMakeTheirAccesses := by
  refine ⟨rfl, fun i => ⟨rfl, rfl⟩, fun s r v => ?_, fun s r => ?_, fun s i => ?_, fun s vs h => ?_, fun s p q => ?_⟩
  · exact issue_single rfl (BusAccess.toEvent_inside r.offset_le 8 (some v)) s
  · exact issue_single rfl (BusAccess.toEvent_inside r.offset_le 8 none) s
  · exact issue_single rfl (BusAccess.toEvent_inside (k := 0x008) (by decide) 8 (some (encode i))) s
  · rw [issue_pending, List.flatMap_singleton, HostLine.accesses, filterMap_inWrites 0 vs (by omega)]
  · simp [issue_pending]

end Sys2Proof.Machine

/-! ## The text of a command (30_encoding.md R98) -/

namespace Sys2Proof.Machine

/-! ### Numbers -/

theorem digitValue_of_isDigit {c : Char} (h : c.isDigit = true) : digitValue 10 c = some (c.toNat - '0'.toNat) := by
  have hc : '0' ≤ c ∧ c ≤ '9' := by
    simp only [Char.isDigit, Bool.and_eq_true, decide_eq_true_eq] at h
    exact h
  have hle : c.toNat ≤ '9'.toNat := hc.2
  have hlt : c.toNat - '0'.toNat < 10 := by
    simp only [Char.reduceToNat] at hle ⊢
    omega
  simp only [digitValue, if_pos hc, if_pos hlt]

theorem digitsValue_of_isDigit (acc : Nat) (t : List Char) (h : ∀ c ∈ t, c.isDigit = true) :
    digitsValue 10 acc t = some (Nat.ofDigitChars 10 t acc) := by
  induction t generalizing acc with
  | nil => simp [digitsValue]
  | cons c r ih =>
    rw [digitsValue, digitValue_of_isDigit (h c List.mem_cons_self), Nat.ofDigitChars_cons]
    exact ih _ fun d hd => h d (List.mem_cons_of_mem c hd)

theorem toList_toString (n : Nat) : (toString n).toList = Nat.toDigits 10 n := by
  rw [Nat.toString_eq_ofList_toDigits, String.toList_ofList]

theorem isDigit_of_mem_toString {n : Nat} {c : Char} (h : c ∈ (toString n).toList) : c.isDigit = true := by
  rw [toList_toString] at h
  exact Nat.isDigit_of_mem_toDigits (by decide) le_rfl h

/-- A number without a letter is read in base 10. -/
theorem parseNumber_of_isDigit {t : List Char} (ht : t ≠ []) (h : ∀ c ∈ t, c.isDigit = true) :
    parseNumber t = digitsValue 10 0 t := by
  unfold parseNumber
  split
  · exact absurd rfl ht
  · exact absurd (h 'x' (by simp)) (by decide)
  · exact absurd (h 'x' (by simp)) (by decide)
  · rfl

/-- The assembler reads the decimal numbers that are printed. -/
theorem parseNumber_toString (n : Nat) : parseNumber (toString n).toList = some n := by
  have hd := fun c => isDigit_of_mem_toString (n := n) (c := c)
  rw [toList_toString] at hd ⊢
  rw [parseNumber_of_isDigit Nat.toDigits_ne_nil hd, digitsValue_of_isDigit 0 _ hd, Nat.ofDigitChars_ten_toDigits]

/-! ### Blanks, separators and fields -/

theorem skipBlanks_eq_self {t : List Char} (h : t.head? ≠ some ' ') : skipBlanks t = t := by
  cases t with
  | nil => rfl
  | cons c r => exact if_neg fun hc => h (congrArg some hc)

theorem head?_ne_of_notMem {c : Char} {t : List Char} (h : c ∉ t) : t.head? ≠ some c :=
  fun he => h (List.mem_of_head? he)

theorem trimBlanks_of_notMem {t : List Char} (h : ' ' ∉ t) : trimBlanks t = t := by
  have hr : ' ' ∉ t.reverse := mt List.mem_reverse.1 h
  rw [trimBlanks, skipBlanks_eq_self (head?_ne_of_notMem h), skipBlanks_eq_self (head?_ne_of_notMem hr),
    List.reverse_reverse]

theorem trimBlanks_blank_cons (t : List Char) : trimBlanks (' ' :: t) = trimBlanks t := rfl

theorem mem_skipBlanks {c : Char} (hc : c ≠ ' ') {t : List Char} (h : c ∈ t) : c ∈ skipBlanks t := by
  induction t with
  | nil => exact h
  | cons d r ih =>
    rw [skipBlanks]
    split
    next hd => exact ih ((List.mem_cons.1 h).resolve_left (hd ▸ hc))
    next => exact h

theorem mem_trimBlanks {c : Char} (hc : c ≠ ' ') {t : List Char} (h : c ∈ t) : c ∈ trimBlanks t :=
  List.mem_reverse.2 (mem_skipBlanks hc (List.mem_reverse.2 (mem_skipBlanks hc h)))

theorem cutAt_append {sep : Char} {a : List Char} (h : sep ∉ a) (r : List Char) :
    cutAt sep (a ++ sep :: r) = (a, r) := by
  induction a with
  | nil => simp [cutAt]
  | cons c a ih =>
    rw [List.mem_cons, not_or] at h
    rw [List.cons_append, cutAt, if_neg (Ne.symm h.1), ih h.2]

theorem notMem_toString {c : Char} (hc : c.isDigit = false) (n : Nat) : c ∉ (toString n).toList := fun h => by
  simp [isDigit_of_mem_toString h] at hc

/-- Two printed numbers after a mnemonic are read back as its fields. -/
theorem parseFields_pair (a b : Nat) :
    parseFields ((toString a).toList ++ ',' :: ' ' :: (toString b).toList) = some [a, b] := by
  have hcomma : ',' ∈ (toString a).toList ++ ',' :: ' ' :: (toString b).toList := by simp
  rw [parseFields, if_neg (List.ne_nil_of_mem (mem_trimBlanks (by decide) hcomma)),
    if_pos (List.contains_iff_mem.2 hcomma), cutAt_append (notMem_toString (by decide) a), trimBlanks_blank_cons,
    trimBlanks_of_notMem (notMem_toString (by decide) a), trimBlanks_of_notMem (notMem_toString (by decide) b),
    parseNumber_toString, parseNumber_toString]

/-- A mnemonic, a blank and the text of its fields are the command they spell. -/
theorem parseCommand_spelled {m t : List Char} {fields : List Nat} {i : Instr} (hne : m ≠ []) (hm : ' ' ∉ m)
    (hf : parseFields t = some fields) (hs : spelled m fields = some i) (hw : i.wellFormed = true) :
    parseCommand (m ++ ' ' :: t) = some i := by
  have hhead : (m ++ ' ' :: t).head? ≠ some ' ' := by
    rw [List.head?_append_of_ne_nil _ hne]; exact head?_ne_of_notMem hm
  rw [parseCommand, skipBlanks_eq_self hhead, cutAt_append hm, hf]
  simp only [hs, hw, if_true]

end Sys2Proof.Machine

/-! ## BPT.INV (30_encoding.md R99) -/

namespace Sys2Proof.Machine

theorem encode_bptInv {n b : Nat} (hn : n < 128) (hb : b < 128) :
    encode (.bptInv n b) = BitVec.ofNat 64 (0x20 + b * 2 ^ 8 + n * 2 ^ 15) :=
  encodeFields_eq 0x20 b n (by decide) hb hn

theorem assemble_bptInv {n b : Nat} (hn : n < 128) (hb : b < 128) :
    assemble ("BPT.INV " ++ toString n ++ ", " ++ toString b) = some (encode (.bptInv n b)) := by
  have hw : (Instr.bptInv n b).wellFormed = true := by simp [Instr.bptInv, Instr.wellFormed, fitsField, hn, hb]
  have hp := parseCommand_spelled (m := "BPT.INV".toList) (by decide) (by decide) (parseFields_pair n b) rfl hw
  have ht : ("BPT.INV " ++ toString n ++ ", " ++ toString b).toList =
      "BPT.INV".toList ++ ' ' :: ((toString n).toList ++ ',' :: ' ' :: (toString b).toList) := by
    simp
  rw [assemble, ht, hp, Option.map_some]

/-- BPT.FWD on written words leaves `w` planes in OUT, bit `p` of plane `i` being bit `i` of source word `p`. -/
theorem execBptFwd_transposes {n w : Nat} {s : State} {src : Nat → Word} (hn : InRange n) (hw : InRange w)
    (h : ∀ p, p < n → Memory.read s.inBuf p = some (src p)) :
    ∃ t, exec (.bptFwd n w) s = .next t ∧ t.err = 0 ∧ t.outLen.toNat = w ∧
      ∀ i, i < w → ∃ d, Memory.read t.outBuf i = some d ∧
        ∀ p, d.getLsbD p = (decide (p < n) && (src p).getLsbD i) := by
  have hin : Memory.Written s.inBuf n := fun p hp => by simp [h p hp]
  have hlen : (transpose (s.inArray .operand n) w).length ≤ 65 := by rw [transpose_length]; omega
  refine ⟨_, execBptFwd_written hn hw hin, rfl, ?_, fun i hi =>
    ⟨(transpose (s.inArray .operand n) w).getD i 0#64, ?_, fun p => ?_⟩⟩
  · rw [succeed_outLen, storeOut_outLen_toNat _ _ hlen, transpose_length]
  · rw [succeed_outBuf, read_storeOut _ _ _ hlen, transpose_length, if_pos hi]
    simp [hi]
  · rw [transpose_getLsbD _ _ _ _ (by rw [inArray_length]; exact hn.2) hi, inArray_length]
    by_cases hp : p < n
    · rw [inArray_getD _ _ _ _ hp, inAt_of_read (h p hp)]
    · simp [hp]

theorem eq_bptFwd_of_opc {i : Instr} (h : i.opc = 0x20) : ∃ n w, i = .bptFwd n w := by
  cases i with
  | bptFwd n w => exact ⟨n, w, rfl⟩
  | _ => simp [Instr.opc] at h

theorem disassemble_of_decode {v : Word} {i : Instr} (h : decode v = .ok i) : disassemble v = some (printCommand i) := by
  rw [disassemble, h]; rfl

/-- Settles O33: the text by reading its fields back, the meaning by the closed form of Transpose, and the disassembly by
the command's OPC. -/
theorem inverseIsForwardSwapped : Obligations.InverseIsForwardSwapped := by
  refine ⟨fun n b hn hb => ?_, fun n b s => rfl, fun n b s pl hn hn' hb hb' h => ?_, fun v i hi hopc => ?_⟩
  · exact ⟨encode_bptInv hn hb ▸ assemble_bptInv hn hb, encode_bptInv hn hb⟩
  · exact execBptFwd_transposes ⟨hb, hb'⟩ ⟨hn, hn'⟩ h
  · obtain ⟨-, -, -, hi', -⟩ := decode_eq_ok hi
    obtain ⟨n, w, rfl⟩ := eq_bptFwd_of_opc (hi'.trans ((opcField_eq v).trans hopc))
    exact ⟨n, w, rfl, disassemble_of_decode hi⟩

end Sys2Proof.Machine

/-! ## The value that encodes a command (30_encoding.md R91, R95) -/

namespace Sys2Proof

theorem p1_p2_of_wellFormed {i : Instr} (h : i.wellFormed = true) : i.p1 < 128 ∧ i.p2 < 128 := by
  cases i <;> simp_all [Instr.wellFormed, fitsField, Instr.p1, Instr.p2]

/-- The one CMD value that decodes to a well-formed command, as the sum of its shifted fields. -/
theorem decode_eq_ok_iff {i : Instr} (h : i.wellFormed = true) (v : Word) :
    decode v = .ok i ↔ v = BitVec.ofNat 64 (i.opc + i.p1 * 2 ^ 8 + i.p2 * 2 ^ 15) := by
  obtain ⟨h1, h2⟩ := p1_p2_of_wellFormed h
  have ho : i.opc < 256 := by cases i <;> simp [Instr.opc]
  rw [← encodeFields_eq _ _ _ ho h1 h2]
  refine ⟨fun hv => ?_, fun hv => ?_⟩
  · obtain ⟨-, -, -, -, henc⟩ := decode_eq_ok hv
    rw [← henc, encode_eq]
  · rw [hv, decode_encodeFields _ _ _ ho h1 h2, decodeFields_instr]

end Sys2Proof

/-! ## The FixedWidthValue commands (40_fwv.md R120 to R123, R125) -/

namespace Sys2Proof.Machine

section
variable {i w : Nat} {s : State}

/-! ### What each command does once its checks have passed -/

theorem exec_fwvInit_wide (hw : InRange w) (ha : 2 ^ w ≤ s.arg0.toNat) :
    exec (.fwvInit w) s = .next (recorded 1 0x02 s.arg0 s) := by
  rw [exec, execFwvInit, if_neg (not_not.2 hw), if_pos ha]; rfl

theorem exec_fwvInit_ok (hw : InRange w) (ha : s.arg0.toNat < 2 ^ w) :
    exec (.fwvInit w) s =
      .next (succeed { s with fwvWidth := BitVec.ofNat 7 w, fwvValue := s.arg0, result := s.arg0 }) := by
  rw [exec, execFwvInit, if_neg (not_not.2 hw), if_neg (not_le.2 ha)]

theorem fwvWidth_eq_zero_iff : s.fwvWidth = 0 ↔ s.fwvWidth.toNat = 0 := BitVec.toNat_inj.symm

theorem fwvWidth_ne_zero_of_lt (h : i < s.fwvWidth.toNat) : s.fwvWidth ≠ 0 := by
  rw [Ne, fwvWidth_eq_zero_iff]; omega

theorem exec_fwvGet_ok (hi : i < s.fwvWidth.toNat) :
    exec (.fwvGet i) s = .next (succeed { s with result := zext64 (s.fwvValue.getLsbD i).toNat }) := by
  rw [exec, execFwvGet, if_neg (fwvWidth_ne_zero_of_lt hi), if_neg (not_le.2 hi)]

theorem exec_fwvSet_ok (hi : i < s.fwvWidth.toNat) (ha : s.arg0.toNat ≤ 1) :
    exec (.fwvSet i) s = .next (succeed
      { s with fwvValue := replaceBit s.fwvValue i s.arg0, result := replaceBit s.fwvValue i s.arg0 }) := by
  rw [exec, execFwvSet, if_neg (fwvWidth_ne_zero_of_lt hi), if_neg (not_le.2 hi), if_neg (not_lt.2 ha)]

theorem exec_fwvShin_ok (hw : s.fwvWidth ≠ 0) (ha : s.arg0.toNat ≤ 1) :
    exec .fwvShin s = .next (succeed
      { s with
        fwvValue := zext64 (shiftIn s.fwvWidth.toNat s.fwvValue.toNat s.arg0.toNat)
        result := zext64 (shiftIn s.fwvWidth.toNat s.fwvValue.toNat s.arg0.toNat) }) := by
  rw [exec, execFwvShin, if_neg hw, if_neg (not_lt.2 ha)]

end

/-! ### The values they compute -/

theorem zext64_bool_toNat (b : Bool) : (zext64 b.toNat).toNat = b.toNat := by cases b <;> rfl

theorem eq_zero_or_one_of_le {bit : Word} (hb : bit.toNat ≤ 1) : bit = 0 ∨ bit = 1 :=
  (Nat.le_one_iff_eq_zero_or_eq_one.1 hb).imp BitVec.eq_of_toNat_eq BitVec.eq_of_toNat_eq

theorem zext64_eq_one_toNat {bit : Word} (hb : bit.toNat ≤ 1) : zext64 (decide (bit = 1)).toNat = bit := by
  obtain rfl | rfl := eq_zero_or_one_of_le hb <;> rfl

theorem getLsbD_of_le_one {bit : Word} (hb : bit.toNat ≤ 1) (k : Nat) :
    bit.getLsbD k = (decide (k = 0) && decide (bit = 1)) := by
  obtain rfl | rfl := eq_zero_or_one_of_le hb <;> simp

/-- Replacing bit `i` by a bit sets bit `i` to it and keeps every other (40_fwv.md R122). -/
theorem replaceBit_getLsbD {value bit : Word} {i : Nat} (hi : i < 64) (hb : bit.toNat ≤ 1) (j : Nat) :
    (replaceBit value i bit).getLsbD j = if j = i then decide (bit = 1) else value.getLsbD j := by
  have hbit := getLsbD_of_le_one hb
  rcases Nat.lt_trichotomy j i with hj | rfl | hj
  · simp [replaceBit, hj, hj.ne, hj.trans hi]
  · simpa [replaceBit, hi] using hbit 0
  · simpa [replaceBit, hbit, hj.ne', Nat.sub_ne_zero_of_lt hj] using BitVec.lt_of_getLsbD

theorem zext64_shiftIn_toNat {w value bit : Nat} (hw : w ≤ 64) (hb : bit ≤ 1) :
    (zext64 (shiftIn w value bit)).toNat = (2 * value + bit) % 2 ^ w := by
  rw [zext64_toNat, Nat.mod_eq_of_lt ((shiftIn_lt w value bit).trans_le (Nat.pow_le_pow_right (by decide) hw)),
    shiftIn_eq w value bit hb]

/-! ### The obligations on single commands -/

/-- Settles O38: each case by the checks of FWV.INIT, in their order. -/
theorem fwvInitConstructs : Obligations.FwvInitConstructs := by
  refine fun w s hw => ⟨fun v => ?_, fun h => congrArg _ (if_pos h), exec_fwvInit_wide,
    fun h ha => ⟨BitVec.ofNat 7 w, ?_, exec_fwvInit_ok h ha⟩, s.arg0.isLt⟩
  · simpa [Instr.opc, Instr.p1, Instr.p2] using decode_eq_ok_iff (i := .fwvInit w) (decide_eq_true hw) v
  · rw [BitVec.toNat_ofNat]; omega

/-- Settles O39: each case by the checks of FWV.GET, in their order, and the bit as a remainder. -/
theorem fwvGetReadsOneBit : Obligations.FwvGetReadsOneBit := by
  refine fun i s hi => ⟨fun v => ?_, fun h => ?_, fun h hle => ?_, fun hlt => ⟨_, ?_, exec_fwvGet_ok hlt⟩⟩
  · simpa [Instr.opc, Instr.p1, Instr.p2] using decode_eq_ok_iff (i := .fwvGet i) (decide_eq_true hi) v
  · exact congrArg _ (if_pos (fwvWidth_eq_zero_iff.2 h))
  · rw [exec, execFwvGet, if_neg (mt fwvWidth_eq_zero_iff.1 h), if_pos hle]; rfl
  · rw [zext64_bool_toNat, ← BitVec.testBit_toNat, Nat.toNat_testBit]

/-- Settles O40: each case by the checks of FWV.SET, in their order, and the value bit by bit. -/
theorem fwvSetReplacesOneBit : Obligations.FwvSetReplacesOneBit := by
  refine fun i s hi hw => ⟨fun v => ?_, fun h => ?_, fun h hle => ?_, fun hlt ha => ?_, fun hlt ha =>
    ⟨_, exec_fwvSet_ok hlt ha, replaceBit_getLsbD (hlt.trans_le hw) ha, fun hs => replaceBit_lt hs hlt ha⟩⟩
  · simpa [Instr.opc, Instr.p1, Instr.p2] using decode_eq_ok_iff (i := .fwvSet i) (decide_eq_true hi) v
  · exact congrArg _ (if_pos (fwvWidth_eq_zero_iff.2 h))
  · rw [exec, execFwvSet, if_neg (mt fwvWidth_eq_zero_iff.1 h), if_pos hle]; rfl
  · rw [exec, execFwvSet, if_neg (fwvWidth_ne_zero_of_lt hlt), if_neg (not_le.2 hlt), if_pos ha]; rfl

/-! ### A chain of shift-ins -/

/-- The number that the first `k` bits spell, the first of them highest (40_fwv.md R123). -/
def bitsSpelled (c : Nat → Word) (k : Nat) : Nat := ((List.range k).map fun j => (c j).toNat * 2 ^ (k - 1 - j)).sum

theorem bitsSpelled_succ (c : Nat → Word) (k : Nat) : bitsSpelled c (k + 1) = 2 * bitsSpelled c k + (c k).toNat := by
  have double : ∀ j ∈ List.range k, (c j).toNat * 2 ^ (k - j) = 2 * ((c j).toNat * 2 ^ (k - 1 - j)) := by
    intro j hj
    rw [List.mem_range] at hj
    rw [show k - j = k - 1 - j + 1 by omega, Nat.pow_succ]
    ring
  simp only [bitsSpelled, List.sum_range_succ, Nat.add_sub_cancel, Nat.sub_self, pow_zero, mul_one]
  rw [List.map_congr_left double, List.sum_map_mul_left]

theorem two_mul_add_mod_two_pow_succ {v b : Nat} (hb : b ≤ 1) (k : Nat) :
    (2 * v + b) % 2 ^ (k + 1) = 2 * (v % 2 ^ k) + b := by
  have hdiv : (2 * v + b) / 2 = v := by omega
  have hmod : (2 * v + b) % 2 = b := by omega
  rw [Nat.pow_succ', Nat.mod_mul, hdiv, hmod, Nat.add_comm]

/-- After `k` shift-ins, at most as many as the width, the low `k` bits are those shifted in, whatever the old value. -/
theorem fwvShin_chain {st : Nat → State} {c : Nat → Word} {w k : Nat} (hw : (st 0).fwvWidth.toNat = w) (hk : k ≤ w)
    (h64 : w ≤ 64) (h : ∀ j, j < k → (c j).toNat ≤ 1 ∧ exec .fwvShin { st j with arg0 := c j } = .next (st (j + 1))) :
    (st k).fwvWidth.toNat = w ∧ (st k).fwvValue.toNat % 2 ^ k = bitsSpelled c k ∧
      (1 ≤ k → (st k).fwvValue.toNat < 2 ^ w) := by
  induction k with
  | zero => exact ⟨hw, Nat.mod_one _, nofun⟩
  | succ k ih =>
    obtain ⟨hwk, hvk, -⟩ := ih (by omega) fun j hj => h j (by omega)
    obtain ⟨hbit, hexec⟩ := h k (Nat.lt_succ_self k)
    have hne : (st k).fwvWidth ≠ 0 := fwvWidth_ne_zero_of_lt (i := 0) (by omega)
    rw [exec_fwvShin_ok (s := { st k with arg0 := c k }) hne hbit] at hexec
    rw [← Host.Outcome.next.inj hexec]
    refine ⟨hwk, ?_, fun _ => hwk ▸ zext64_shiftIn_lt _ _ _⟩
    rw [succeed_fwvValue, hwk, zext64_shiftIn_toNat h64 hbit, Nat.mod_mod_of_dvd _ (Nat.pow_dvd_pow 2 hk),
      two_mul_add_mod_two_pow_succ hbit, hvk, bitsSpelled_succ]

/-- Settles O41: each case by the checks of FWV.SHIN, and the chain by what `k` shift-ins leave, at `k = w`. -/
theorem fwvShinShiftsIn : Obligations.FwvShinShiftsIn := by
  refine ⟨fun s hw => ⟨decode_eq_ok_iff rfl, fun h => ?_, fun h ha => ?_, fun h ha => ?_⟩,
    fun st c w hw h1 h64 h => ?_⟩
  · exact congrArg _ (if_pos (fwvWidth_eq_zero_iff.2 h))
  · rw [exec, execFwvShin, if_neg (mt fwvWidth_eq_zero_iff.1 h), if_pos ha]; rfl
  · exact ⟨_, zext64_shiftIn_toNat hw ha, exec_fwvShin_ok (mt fwvWidth_eq_zero_iff.1 h) ha⟩
  · obtain ⟨-, hlow, hlt⟩ := fwvShin_chain hw le_rfl h64 h
    rw [← Nat.mod_eq_of_lt (hlt h1), hlow, bitsSpelled]

/-- Settles O42: GET reads the bits of SET's value, every command keeps the bound, and 2^w does not fit w bits. -/
theorem fwvLaws : Obligations.FwvLaws := by
  refine ⟨fun i s t _ hw h he => ?_, fun _ _ _ => exec_fwvBound, fun w s h1 h63 ha => ?_⟩
  · obtain ⟨-, hi, hbit, rfl⟩ := exec_fwvSet_success h he
    have hvalue := replaceBit_getLsbD (value := s.fwvValue) (hi.trans_le hw) hbit
    refine ⟨⟨_, exec_fwvGet_ok hi, rfl, ?_⟩, fun j hne hj =>
      ⟨_, _, exec_fwvGet_ok hj, exec_fwvGet_ok hj, rfl, rfl, ?_⟩⟩
    · show zext64 ((replaceBit s.fwvValue i s.arg0).getLsbD i).toNat = s.arg0
      rw [hvalue, if_pos rfl, zext64_eq_one_toNat hbit]
    · show zext64 ((replaceBit s.fwvValue i s.arg0).getLsbD j).toNat = zext64 (s.fwvValue.getLsbD j).toNat
      rw [hvalue, if_neg hne]
  · refine exec_fwvInit_wide ⟨h1, by omega⟩ (le_of_eq ?_)
    rw [ha, BitVec.toNat_ofNat, Nat.mod_eq_of_lt (Nat.pow_lt_pow_right (by decide) (by omega))]

end Sys2Proof.Machine

/-! ## Independence of the FWV unit (40_fwv.md R124) -/

namespace Sys2Proof.Machine

/-- The state with other contents in the FWV unit. -/
def State.setFwv (s : State) (x : Word) (w : Len) (r : Word) : State :=
  { s with fwvValue := x, fwvWidth := w, result := r }

section
variable {s : State} {x r : Word} {w : Len}

theorem noteReads_setFwv (b : Bool) : (s.setFwv x w r).noteReads b = (s.noteReads b).setFwv x w r := by
  cases b <;> rfl

theorem raise_setFwv (a : Cause) (info : Word) : raise a info (s.setFwv x w r) = (raise a info s).setFwv x w r := rfl

theorem inArray_setFwv (pass : ReadPass) (n : Nat) : (s.setFwv x w r).inArray pass n = s.inArray pass n := rfl

/-- An array result does not depend on the FWV unit and leaves it alone. -/
theorem storeOut_noteReads_setFwv (d : List Word) (b : Bool) :
    succeed (storeOut d ((s.setFwv x w r).noteReads b)) = (succeed (storeOut d (s.noteReads b))).setFwv x w r := by
  rw [noteReads_setFwv]; rfl

/-- A check that does not read the FWV unit, before a rest that does not. -/
theorem check_setFwv {p : Prop} [Decidable p] {a : Cause} {info : Word} {s' u u' : State}
    (hs : s' = s.setFwv x w r) (hu : u' = u.setFwv x w r) :
    (if p then raise a info s' else u') = (if p then raise a info s else u).setFwv x w r := by
  subst hs hu
  split
  · exact raise_setFwv a info
  · rfl

theorem decodeBlock_setFwv (m : Nat) (out : List Word → List Word) :
    decodeBlock m out (s.setFwv x w r) = (decodeBlock m out s).setFwv x w r :=
  check_setFwv rfl (check_setFwv rfl (check_setFwv (noteReads_setFwv _) (storeOut_noteReads_setFwv _ _)))

end

/-- Only the FWV commands read the FWV unit: with other contents there, any other command ends in the same state with
those contents, but that CLR leaves 0 in RESULT. Each case follows the command's checks, in their order, to the state
it completes with. -/
theorem exec_setFwv {i : Instr} {s t : State} (hinit : ∀ a, i ≠ .fwvInit a) (hget : ∀ a, i ≠ .fwvGet a)
    (hset : ∀ a, i ≠ .fwvSet a) (hshin : i ≠ .fwvShin) (h : exec i s = .next t) (x r : Word) (w : Len) :
    exec i (s.setFwv x w r) = .next (t.setFwv x w (if i = .clr then 0 else r)) := by
  cases i with
  | nop => cases h; rfl
  | clr =>
    cases h
    -- Record updates only: `rfl` would evaluate the 65 writes of CLR.
    simp only [exec, execClr, State.setFwv, succeed, State.markOk, if_true]
  | xfer =>
    cases h
    simp only [exec, execXfer, noteOut_def, noteReads_setFwv]
    rfl
  | fwvInit a => exact absurd rfl (hinit a)
  | fwvGet a => exact absurd rfl (hget a)
  | fwvSet a => exact absurd rfl (hset a)
  | fwvShin => exact absurd rfl hshin
  | bptFwd n w =>
    cases h
    exact congrArg Host.Outcome.next (check_setFwv rfl (check_setFwv rfl (storeOut_noteReads_setFwv _ _)))
  | smpPack m => cases h; exact congrArg Host.Outcome.next (check_setFwv rfl (storeOut_noteReads_setFwv _ _))
  | smpUnpack m => cases h; exact congrArg Host.Outcome.next (check_setFwv rfl (decodeBlock_setFwv _ _))
  | blkEnc n b =>
    cases h
    refine congrArg Host.Outcome.next (check_setFwv rfl (check_setFwv rfl ?_))
    rw [inArray_setFwv]
    cases firstWide b (s.inArray .check n) with
    | none => exact storeOut_noteReads_setFwv _ _
    | some j => exact (congrArg _ (noteReads_setFwv _)).trans (raise_setFwv _ _)
  | blkDec n b =>
    cases h
    exact congrArg Host.Outcome.next (check_setFwv rfl (check_setFwv rfl (decodeBlock_setFwv _ _)))

/-- Settles O43: by `exec_setFwv`, whose case of the contents found says that they are kept. -/
theorem fwvUnitIsIndependent : Obligations.FwvUnitIsIndependent := by
  intro i s x r w hinit hget hset hshin
  obtain ⟨t, ht⟩ := exec_total i s
  have other := exec_setFwv hinit hget hset hshin ht
  have kept : t.setFwv s.fwvValue s.fwvWidth (if i = .clr then 0 else s.result) = t :=
    Host.Outcome.next.inj ((other s.fwvValue s.result s.fwvWidth).symm.trans ht)
  refine ⟨t, ht, (congrArg State.fwvValue kept).symm, (congrArg State.fwvWidth kept).symm, fun hclr => ?_,
    other x r w⟩
  rw [← kept]
  exact if_neg hclr

end Sys2Proof.Machine

/-! ## The bit-plane transpose (41_bpt.md R140, R141) -/

namespace Sys2Proof.Machine

/-- Transposing twice keeps the low `w` bits of every source word and clears the others. -/
theorem transpose_transpose_eq_map (src : List Word) (w : Nat) (hn : src.length ≤ 64) (hw : w ≤ 64) :
    transpose (transpose src w) src.length = src.map fun x => zext64 (x.toNat % 2 ^ w) := by
  refine List.ext_getElem (by simp) fun p hp hp' => BitVec.eq_of_getLsbD_eq fun i hi => ?_
  have hsrc : p < src.length := by simpa using hp
  rw [List.getElem_map, zext64_getLsbD, Nat.testBit_mod_two_pow, BitVec.testBit_toNat,
    ← List.getD_eq_getElem _ 0#64 hp, transpose_getLsbD _ _ _ _ (by simpa using hw) hsrc, transpose_length]
  by_cases hiw : i < w
  · rw [transpose_getLsbD _ _ _ _ hn hiw]
    simp [hsrc, hi]
  · simp [hiw]

theorem read_eq_inArray_of_written {s : State} {pass : ReadPass} {n p : Nat} (h : Memory.Written s.inBuf n)
    (hp : p < n) : Memory.read s.inBuf p = (s.inArray pass n)[p]? := by
  obtain ⟨x, hx⟩ := (written_iff _ _).1 h p hp
  simp [State.inArray, hp, inAt_of_read hx, hx]

/-- What the planes of a transpose leave in OUT. -/
theorem read_storeOut_transpose (src : List Word) {w : Nat} (s : State) (j : Nat) (hw : w ≤ 64) :
    Memory.read (storeOut (transpose src w) s).outBuf j =
      if j < w then (transpose src w)[j]? else Memory.read s.outBuf j := by
  rw [read_storeOut _ _ _ (by rw [transpose_length]; omega), transpose_length]

/-- BPT.FWD on the words of a list: its planes go to OUT, and the mark is left alone. -/
theorem exec_bptFwd_of_reads {src : List Word} {n w : Nat} {s : State} (hlen : src.length = n) (hn : InRange n)
    (hw : InRange w) (h : ∀ p, p < n → Memory.read s.inBuf p = src[p]?) :
    exec (.bptFwd n w) s = .next (succeed (storeOut (transpose src w) s)) := by
  subst hlen
  rw [exec, execBptFwd_written hn hw (written_of_reads h), inArray_of_reads h]

/-- Settles O44: each error by the checks of BPT.FWD, in their order, and the planes by `execBptFwd_transposes`, whose
end state is the one array result. -/
theorem bptFwdTransposes : Obligations.BptFwdTransposes := by
  refine fun n w s hn7 hw7 => ⟨fun v => ?_, fun h => congrArg _ (if_pos h), fun hn h => ?_, fun x hn hw h => ?_⟩
  · exact decode_eq_ok_iff (i := .bptFwd n w) (by simp [Instr.wellFormed, fitsField, hn7, hw7]) v
  · rw [exec, execBptFwd, if_neg (not_not.2 hn), if_pos h]; rfl
  · have hin : Memory.Written s.inBuf n := fun p hp => by simp [h p hp]
    have hexec := execBptFwd_written hn hw hin
    obtain ⟨t, ht, -, hlen, hplanes⟩ := execBptFwd_transposes hn hw h
    obtain rfl := Host.Outcome.next.inj (ht.symm.trans hexec)
    exact ⟨_, _, hlen, hexec, hplanes, fun i hi =>
      (read_storeOut_transpose _ s i hw.2).trans (if_neg (not_lt.2 hi))⟩

/-- Settles O45: XFER hands the planes to the second transpose, and transposing twice keeps the low `w` bits. -/
theorem transposeInvolution : Obligations.TransposeInvolution := by
  intro n w s hn hn' hw hw' hin
  have hlen := inArray_length s .operand n
  have hplanes := transpose_length (s.inArray .operand n) w
  have hback : transpose (transpose (s.inArray .operand n) w) n =
      (s.inArray .operand n).map fun x => zext64 (x.toNat % 2 ^ w) := by
    simpa only [hlen] using transpose_transpose_eq_map (s.inArray .operand n) w (by omega) hw'
  refine ⟨_, _, _, exec_bptFwd_of_reads hlen ⟨hn, hn'⟩ ⟨hw, hw'⟩ fun p => read_eq_inArray_of_written hin,
    execXfer_of_result (by omega), exec_bptFwd_of_reads hplanes ⟨hw, hw'⟩ ⟨hn, hn'⟩ fun i hi =>
      reads_of_store (by omega) i (by omega), rfl, rfl, ?_, rfl, fun p x hp hx => ?_⟩
  · rw [succeed_outLen, storeOut_outLen_toNat _ _ (by rw [transpose_length]; omega), transpose_length]
  · have hread : (s.inArray .operand n)[p]? = some x := (read_eq_inArray_of_written hin hp).symm.trans hx
    rw [succeed_outBuf, read_storeOut_transpose _ _ _ hn', if_pos hp, hback, List.getElem?_map, hread]
    exact ⟨rfl, fun hlt => by simp [zext64, Nat.mod_eq_of_lt hlt]⟩

end Sys2Proof.Machine

/-! ## The sparse-mask packer (42_smp.md R160 to R163) -/

namespace Sys2Proof.Machine

/-! ### The mask word and the length of a packed array -/

/-- Bits that are 0 add nothing to a popcount. -/
theorem popcount_of_lt_two_pow {v m : Nat} (hv : v < 2 ^ m) {n : Nat} (hmn : m ≤ n) : popcount n v = popcount m v := by
  induction n, hmn using Nat.le_induction with
  | base => rfl
  | succ n hmn ih =>
    have hbit : v.testBit n = false := Nat.testBit_lt_two_pow (hv.trans_le (Nat.pow_le_pow_right (by decide) hmn))
    rw [popcount, hbit, ih, Bool.toNat_false, Nat.zero_add]

/-- Mask bit m-1-i tells whether element `i` is not 0. -/
theorem zext64_presenceMask_getLsbD {src : List Word} (h : src.length ≤ 64) {i : Nat} (hi : i < src.length) :
    (zext64 (presenceMask src)).getLsbD (src.length - 1 - i) = decide (src[i] ≠ 0#64) := by
  have hindex : src.length - 1 - (src.length - 1 - i) = i := by omega
  rw [zext64_getLsbD, presenceMask_testBit, hindex, List.getD_eq_getElem _ _ hi, decide_eq_true (by omega),
    decide_eq_true (by omega), Bool.true_and, Bool.true_and]

/-- The mask bits from m on are 0. -/
theorem zext64_presenceMask_getLsbD_of_le {src : List Word} {j : Nat} (h : src.length ≤ j) :
    (zext64 (presenceMask src)).getLsbD j = false := by
  rw [zext64_getLsbD, presenceMask_testBit, decide_eq_false (not_lt.2 h), Bool.false_and, Bool.and_false]

/-- The mask word of a packed array counts the words stored after it. -/
theorem popcount_zext64_presenceMask {src : List Word} (h : src.length ≤ 64) :
    popcount 64 (zext64 (presenceMask src)).toNat = (src.filter fun x => decide (x ≠ 0#64)).length := by
  rw [zext64_presenceMask src h, popcount_of_lt_two_pow (presenceMask_lt src) h, popcount_presenceMask]

theorem pack_length_eq_popcount {src : List Word} (h : src.length ≤ 64) :
    (pack src).length = 1 + popcount 64 (zext64 (presenceMask src)).toNat := by
  rw [popcount_zext64_presenceMask h, pack, List.length_cons, Nat.add_comm]

theorem pack_length_le_65 {src : List Word} (h : src.length ≤ 64) : (pack src).length ≤ 65 := by
  have := pack_length_le src
  omega

/-! ### The two commands on written words -/

/-- SMP.PACK on the words of a list: its packed form goes to OUT, and the mark is left alone. -/
theorem exec_smpPack_of_reads {src : List Word} {m : Nat} {s : State} (hlen : src.length = m) (hm : InRange m)
    (h : ∀ p, p < m → Memory.read s.inBuf p = src[p]?) :
    exec (.smpPack m) s = .next (succeed (storeOut (pack src) s)) := by
  subst hlen
  rw [exec, execSmpPack_written hm (written_of_reads h), inArray_of_reads h]

section
variable {m : Nat} {out : List Word → List Word} {s : State}

/-- A written mask that counts more elements than the block holds raises CorruptionError 0x21. -/
theorem decodeBlock_maskCount {mask : Word} (hL : 1 ≤ s.inLen.toNat ∧ s.inLen.toNat ≤ 65)
    (h0 : Memory.read s.inBuf 0 = some mask) (hc : s.inLen.toNat - 1 < popcount m mask.toNat) :
    decodeBlock m out s = raise .maskCount (zext64 (popcount m mask.toNat)) s := by
  have hin : Memory.Written s.inBuf 1 := fun i hi => by simp [Nat.lt_one_iff.1 hi, h0]
  rw [decodeBlock, inAt_of_read h0, if_neg (by omega), if_neg (by omega), if_pos hc, noteIn_of_written hin]

/-- A written block whose mask counts no more elements than it holds is unpacked from its mask word and its elements
alone. -/
theorem decodeBlock_of_reads {mask : Word} {x : Nat → Word} (hL : 1 ≤ s.inLen.toNat ∧ s.inLen.toNat ≤ 65)
    (h0 : Memory.read s.inBuf 0 = some mask) (hc : popcount m mask.toNat ≤ s.inLen.toNat - 1)
    (hx : ∀ r, 1 ≤ r → r ≤ popcount m mask.toNat → Memory.read s.inBuf r = some (x r)) :
    decodeBlock m out s = succeed (storeOut (out (unpackFrom mask x m 1)) s) := by
  have hmask : ∀ pass, s.inAt pass 0 = mask := fun _ => inAt_of_read h0
  have hin : Memory.Written s.inBuf (1 + popcount m mask.toNat) := by
    refine (written_iff _ _).2 fun i hi => ?_
    rcases Nat.eq_zero_or_pos i with rfl | hpos
    · exact ⟨mask, h0⟩
    · exact ⟨x i, hx i hpos (by omega)⟩
  have helems : unpack m (s.blockWord s.inLen.toNat) = unpackFrom mask x m 1 := by
    rw [unpack, blockWord_of_read (by omega) h0]
    exact unpackFrom_congr _ _ _ _ _ fun k h1 hk => blockWord_of_read (by omega) (hx k h1 (by omega))
  rw [decodeBlock_written hL (by rwa [hmask]) (by rwa [hmask]), helems]

/-- Decoding the packed form of a list gives the list back, with no raise. -/
theorem decodeBlock_pack {src : List Word} (h : src.length ≤ 64) (hL : s.inLen.toNat = (pack src).length)
    (hr : ∀ i, i < (pack src).length → Memory.read s.inBuf i = (pack src)[i]?) :
    decodeBlock src.length out s = succeed (storeOut (out src) s) := by
  have hle := pack_length_le_65 h
  have hcount : (pack src).length = 1 + popcount src.length (zext64 (presenceMask src)).toNat := by
    rw [zext64_presenceMask src h, pack_length]
  have hreads : ∀ i, i < (pack src).length → Memory.read s.inBuf i = some ((pack src).getD i 0#64) := fun i hi => by
    rw [hr i hi, List.getD_eq_getElem _ _ hi, List.getElem?_eq_getElem hi]
  have h0 : Memory.read s.inBuf 0 = some (zext64 (presenceMask src)) := hreads 0 (by omega)
  have hback : unpackFrom (zext64 (presenceMask src)) (fun i => (pack src).getD i 0#64) src.length 1 = src :=
    unpack_pack src (fun i => (pack src).getD i 0#64) h fun _ _ => rfl
  rw [decodeBlock_of_reads (by omega) h0 (by omega) fun r _ hrc => hreads r (by omega), hback]

theorem exec_smpUnpack_of_inRange (hm : InRange m) : exec (.smpUnpack m) s = .next (decodeBlock m id s) :=
  congrArg _ (if_neg (not_not.2 hm))

end

/-- SMP.UNPACK on the packed form of a list: the list goes to OUT, and the mark is left alone. -/
theorem exec_smpUnpack_pack {src : List Word} {s : State} (hm : InRange src.length)
    (hL : s.inLen.toNat = (pack src).length)
    (hr : ∀ i, i < (pack src).length → Memory.read s.inBuf i = (pack src)[i]?) :
    exec (.smpUnpack src.length) s = .next (succeed (storeOut src s)) := by
  rw [exec_smpUnpack_of_inRange hm, decodeBlock_pack hm.2 hL hr, id]

/-! ### The obligations -/

/-- Settles O46: on the words of a list SMP.PACK is one array result, the list's packed form, whose mask and length the
lemmas on Pack give. -/
theorem smpPackDropsZeros : Obligations.SmpPackDropsZeros := by
  refine fun m s hm7 => ⟨fun v => ?_, fun h => congrArg _ (if_pos h), fun x hm h => ?_⟩
  · simpa [Instr.opc, Instr.p1, Instr.p2] using decode_eq_ok_iff (i := .smpPack m) (decide_eq_true hm7) v
  · have hsrc : ∀ p, p < m → ((List.range m).map x)[p]? = some (x p) := fun p hp => by simp [hp]
    have hlen : ((List.range m).map x).length = m := by simp
    generalize (List.range m).map x = src at hsrc hlen ⊢
    have h64 : src.length ≤ 64 := hlen.trans_le hm.2
    have hnz : (pack src).length = 1 + (src.filter fun e => decide (e ≠ 0)).length := Nat.add_comm _ 1
    have hout := fun j => read_storeOut (pack src) s j (pack_length_le_65 h64)
    refine ⟨_, _, _, _, rfl, (storeOut_outLen_toNat _ s (pack_length_le_65 h64)).trans hnz,
      exec_smpPack_of_reads hlen hm fun p hp => (h p hp).trans (hsrc p hp).symm, (hout 0).trans (if_pos (by omega)),
      fun i hi => ?_, fun j hj => zext64_presenceMask_getLsbD_of_le (hlen.trans_le hj),
      (popcount_zext64_presenceMask h64).symm, fun q hq => ?_, fun i hi => (hout i).trans (if_neg (by omega))⟩
    · obtain ⟨hi', hx⟩ := List.getElem?_eq_some_iff.1 (hsrc i hi)
      rw [← hlen, zext64_presenceMask_getLsbD h64 hi', hx]
      rfl
    · rw [Nat.add_comm 1 q]
      exact (hout (q + 1)).trans (if_pos (by omega))

/-- Settles O47: each error by the checks of SMP.UNPACK, in their order, and the elements by Unpack's closed form on the
words the block holds. -/
theorem smpUnpackRestores : Obligations.SmpUnpackRestores := by
  refine fun m s hm7 => ⟨fun v => ?_, fun h => congrArg _ (if_pos h), fun hm h => ?_, fun hm h => ?_,
    fun mask hm hL h0 hc => ?_, fun mask x hm hL h0 hc hx => ?_⟩
  · simpa [Instr.opc, Instr.p1, Instr.p2] using decode_eq_ok_iff (i := .smpUnpack m) (decide_eq_true hm7) v
  · exact (exec_smpUnpack_of_inRange hm).trans (congrArg _ (if_pos h))
  · exact (exec_smpUnpack_of_inRange hm).trans (congrArg _ ((if_neg (by omega)).trans (if_pos h)))
  · exact (exec_smpUnpack_of_inRange hm).trans (congrArg _ (decodeBlock_maskCount hL h0 hc))
  · have hlen : (unpackFrom mask x m 1).length = m := unpackFrom_length ..
    have hout := fun j => read_storeOut (unpackFrom mask x m 1) s j (by omega)
    refine ⟨_, _, (storeOut_outLen_toNat _ s (by omega)).trans hlen,
      (exec_smpUnpack_of_inRange hm).trans (congrArg _ (decodeBlock_of_reads hL h0 hc hx)), fun q hq => ?_,
      fun i hi => (hout i).trans (if_neg (by omega))⟩
    exact ((hout q).trans (if_pos (by omega))).trans (unpackFrom_getElem? mask x m 1 q hq)

/-- Settles O48: XFER hands the packed form to SMP.UNPACK, which gives its source back. -/
theorem packUnpackRoundTrip : Obligations.PackUnpackRoundTrip := by
  intro m s hm hm' hin
  have hread := fun p (hp : p < m) => read_eq_inArray_of_written (pass := .operand) hin hp
  have hlen := inArray_length s .operand m
  generalize s.inArray .operand m = src at hread hlen
  subst hlen
  have hle := pack_length_le_65 hm'
  refine ⟨_, _, _, exec_smpPack_of_reads rfl ⟨hm, hm'⟩ hread, execXfer_of_result hle,
    exec_smpUnpack_pack ⟨hm, hm'⟩ ?_ (reads_of_store hle), rfl, rfl, rfl, storeOut_outLen_toNat src s (by omega), rfl,
    fun p hp => ?_⟩
  · exact storeOut_outLen_toNat (pack src) s hle
  · exact ((read_storeOut src _ p (by omega)).trans (if_pos hp)).trans (hread p hp).symm

/-- Settles O49: the packed form has the length its mask counts, and at most one word more than its source. -/
theorem packedLength : Obligations.PackedLength := by
  intro m s t h he
  obtain ⟨hm, rfl⟩ := exec_smpPack_success h he
  have hlen := inArray_length s .operand m
  have h64 : (s.inArray .operand m).length ≤ 64 := by omega
  have hle := pack_length_le (s.inArray .operand m)
  have hOut := storeOut_outLen_toNat (pack (s.inArray .operand m)) (s.noteIn m) (pack_length_le_65 h64)
  refine ⟨_, (read_storeOut _ _ 0 (pack_length_le_65 h64)).trans (if_pos (Nat.succ_pos _)), ?_, ?_, by omega⟩
  · exact hOut.trans (pack_length_eq_popcount h64)
  · exact hOut.trans_le (by omega)

end Sys2Proof.Machine

/-! ## The block codec (43_blk.md R180, R181, R183, R184) -/

namespace Sys2Proof.Machine

/-! ### Pixels and planes -/

theorem inArray_getD_of_read {s : State} {pass : ReadPass} {n p : Nat} {x : Word} (hp : p < n)
    (h : Memory.read s.inBuf p = some x) : (s.inArray pass n).getD p 0#64 = x := by
  rw [inArray_getD _ _ _ _ hp, inAt_of_read h]

/-- A transposed word is below 2^k, with k the number of source words. -/
theorem transpose_getD_lt (src : List Word) {w i : Nat} (hi : i < w) :
    ((transpose src w).getD i 0#64).toNat < 2 ^ src.length := by
  have hplane : (transpose src w).getD i 0#64 = zext64 (plane src i) := by simp [transpose, hi]
  rw [hplane, zext64_toNat]
  exact (Nat.mod_le _ _).trans_lt (plane_lt src i)

/-- A plane is not 0 exactly where some source word has its bit set. -/
theorem zext64_plane_ne_zero_iff {src : List Word} (h : src.length ≤ 64) (i : Nat) :
    zext64 (plane src i) ≠ 0#64 ↔ ∃ p, p < src.length ∧ (src.getD p 0#64).getLsbD i = true := by
  have hplane : (zext64 (plane src i)).toNat = plane src i := by
    rw [zext64_toNat, Nat.mod_eq_of_lt ((plane_lt src i).trans_le (Nat.pow_le_pow_right (by decide) h))]
  rw [← BitVec.toNat_ne_iff_ne, hplane]
  constructor
  · intro hne
    obtain ⟨p, hp⟩ := Nat.exists_testBit_of_ne_zero hne
    exact ⟨p, by simpa [plane_testBit] using hp⟩
  · rintro ⟨p, hp⟩ h0
    have hbit : (plane src i).testBit p = true := by simpa [plane_testBit] using hp
    simp [h0] at hbit

/-- The planes that are not 0 are those with a set bit. -/
theorem transpose_filter_length {src : List Word} {x : Nat → Word} (h : src.length ≤ 64)
    (hx : ∀ p, p < src.length → src.getD p 0#64 = x p) (w : Nat) :
    ((transpose src w).filter fun e => decide (e ≠ 0#64)).length =
      (List.range w).countP fun i => (List.range src.length).any fun p => (x p).getLsbD i := by
  rw [transpose, List.filter_map, List.length_map, ← List.countP_eq_length_filter]
  refine List.countP_congr fun i _ => ?_
  simp only [Function.comp_apply, decide_eq_true_eq, List.any_eq_true, List.mem_range, zext64_plane_ne_zero_iff h]
  exact exists_congr fun p => and_congr_right fun hp => by rw [hx p hp]

/-- The first wide pixel of IN, from its own words and those before it. -/
theorem firstWide_inArray {n b j : Nat} {s : State} {x : Nat → Word} {pass : ReadPass} (hj : j < n)
    (h : ∀ p, p ≤ j → Memory.read s.inBuf p = some (x p)) (hwide : 2 ^ b ≤ (x j).toNat)
    (hleast : ∀ p, p < j → (x p).toNat < 2 ^ b) : firstWide b (s.inArray pass n) = some j := by
  have hpx : ∀ p (hp : p ≤ j), (s.inArray pass n)[p]'(by rw [inArray_length]; omega) = x p := fun p hp => by
    rw [← List.getD_eq_getElem _ 0#64, inArray_getD_of_read (by omega) (h p hp)]
  refine List.findIdx?_eq_some_iff_getElem.2 ⟨by rwa [inArray_length], ?_, fun p hp => ?_⟩
  · simpa [hpx j le_rfl] using hwide
  · simpa [hpx p hp.le] using hleast p hp

/-- Transposing the planes of written pixels below 2^b gives the pixels back. -/
theorem transpose_transpose_inArray {n b : Nat} {s : State} {pass : ReadPass} (hn : n ≤ 64) (hb : b ≤ 64)
    (h : ∀ p, p < n → ∃ x, Memory.read s.inBuf p = some x ∧ x.toNat < 2 ^ b) :
    transpose (transpose (s.inArray pass n) b) n = s.inArray pass n := by
  have hlen := inArray_length s pass n
  have hfit : ∀ p, p < n → ((s.inArray pass n).getD p 0#64).toNat < 2 ^ b := fun p hp => by
    obtain ⟨x, hx, hlt⟩ := h p hp
    rwa [inArray_getD_of_read hp hx]
  simpa only [hlen] using transpose_transpose (s.inArray pass n) b (by omega) hb (by rwa [hlen])

/-! ### A packed array in OUT -/

section
variable {src : List Word} (s : State) (h : src.length ≤ 64)
include h

theorem storeOut_pack_outLen :
    (storeOut (pack src) s).outLen.toNat = 1 + (src.filter fun e => decide (e ≠ 0#64)).length :=
  (storeOut_outLen_toNat _ s (pack_length_le_65 h)).trans (Nat.add_comm _ 1)

theorem read_storeOut_pack_mask :
    Memory.read (storeOut (pack src) s).outBuf 0 = some (zext64 (presenceMask src)) :=
  (read_storeOut _ s 0 (pack_length_le_65 h)).trans (if_pos (Nat.succ_pos _))

theorem read_storeOut_pack_element {q : Nat} (hq : q < (src.filter fun e => decide (e ≠ 0#64)).length) :
    Memory.read (storeOut (pack src) s).outBuf (1 + q) = (src.filter fun e => decide (e ≠ 0#64))[q]? := by
  rw [Nat.add_comm 1 q]
  exact (read_storeOut _ s (q + 1) (pack_length_le_65 h)).trans (if_pos (Nat.succ_lt_succ hq))

theorem read_storeOut_pack_past {i : Nat} (hi : 1 + (src.filter fun e => decide (e ≠ 0#64)).length ≤ i) :
    Memory.read (storeOut (pack src) s).outBuf i = Memory.read s.outBuf i := by
  have hlen : (pack src).length = 1 + (src.filter fun e => decide (e ≠ 0#64)).length := Nat.add_comm _ 1
  exact (read_storeOut _ s i (pack_length_le_65 h)).trans (if_neg (by omega))

end

/-- An array without a nonzero word has no mask bit set. -/
theorem presenceMask_eq_zero {src : List Word} (h : (src.filter fun e => decide (e ≠ 0#64)).length = 0) :
    presenceMask src = 0 := by
  have hzero : ∀ y ∈ src, y = 0#64 := by simpa using h
  refine Nat.eq_of_testBit_eq fun j => ?_
  rw [presenceMask_testBit, Nat.zero_testBit, Bool.and_eq_false_imp]
  intro hj
  have hindex : src.length - 1 - j < src.length := by have := of_decide_eq_true hj; omega
  rw [List.getD_eq_getElem _ _ hindex, hzero _ (List.getElem_mem hindex)]
  rfl

/-! ### What BLK.ENC does once its ranges are checked -/

section
variable {n b : Nat} {s : State} (hn : InRange n) (hb : InRange b)
include hn hb

/-- A wide pixel raises RangeError 0x07, with the least index of one. -/
theorem exec_blkEnc_of_firstWide {j : Nat} (h : firstWide b (s.inArray .check n) = some j) :
    exec (.blkEnc n b) s = .next (raise .pixel (zext64 j) (s.noteIn (j + 1))) := by
  rw [exec, execBlkEnc, if_neg (not_not.2 hn), if_neg (not_not.2 hb), h]

/-- Written pixels below 2^b are transposed and packed, and the mark is left alone. -/
theorem exec_blkEnc_of_fits (h : ∀ p, p < n → ∃ x, Memory.read s.inBuf p = some x ∧ x.toNat < 2 ^ b) :
    exec (.blkEnc n b) s = .next (succeed (storeOut (pack (transpose (s.inArray .operand n) b)) s)) := by
  have hin : Memory.Written s.inBuf n := (written_iff _ _).2 fun p hp => (h p hp).imp fun _ => And.left
  refine execBlkEnc_written hn hb hin ((firstWide_eq_none b _).2 fun y hy => ?_)
  obtain ⟨p, hp, rfl⟩ := List.mem_map.1 hy
  obtain ⟨x, hx, hfit⟩ := h p (List.mem_range.1 hp)
  rwa [inAt_of_read hx]

end

/-! ### What BLK.DEC does once its ranges are checked -/

theorem exec_blkDec_of_inRange {n b : Nat} {s : State} (hn : InRange n) (hb : InRange b) :
    exec (.blkDec n b) s = .next (decodeBlock b (fun planes => transpose planes n) s) := by
  rw [exec, execBlkDec, if_neg (not_not.2 hn), if_neg (not_not.2 hb)]

/-- BLK.DEC on the packed form of `b` planes: their transpose goes to OUT, and the mark is left alone. -/
theorem exec_blkDec_pack {planes : List Word} {n b : Nat} {s : State} (hlen : planes.length = b) (hn : InRange n)
    (hb : InRange b) (hL : s.inLen.toNat = (pack planes).length)
    (hr : ∀ i, i < (pack planes).length → Memory.read s.inBuf i = (pack planes)[i]?) :
    exec (.blkDec n b) s = .next (succeed (storeOut (transpose planes n) s)) := by
  subst hlen
  rw [exec_blkDec_of_inRange hn hb, decodeBlock_pack hb.2 hL hr]

/-! ### The obligations -/

/-- Settles O50: each error by the checks of BLK.ENC, in their order, and the block by the closed forms of Transpose and
Pack. -/
theorem blkEncEncodes : Obligations.BlkEncEncodes := by
  refine fun n b s hn7 hb7 => ⟨fun v => ?_, fun hn => congrArg _ (if_pos hn), fun hn hb => ?_,
    fun x j hn hb hj h hwide hleast => ?_, fun x hn hb h => ?_⟩
  · exact decode_eq_ok_iff (i := .blkEnc n b) (by simp [Instr.wellFormed, fitsField, hn7, hb7]) v
  · exact congrArg _ ((if_neg (not_not.2 hn)).trans (if_pos hb))
  · have hin : Memory.Written s.inBuf (j + 1) := fun p hp => by simp [h p (by omega)]
    rw [exec_blkEnc_of_firstWide hn hb (firstWide_inArray hj h hwide hleast), noteIn_of_written hin]
    rfl
  · have hplanes : (transpose (s.inArray .operand n) b).length = b := transpose_length ..
    have h64 : (transpose (s.inArray .operand n) b).length ≤ 64 := hplanes.trans_le hb.2
    refine ⟨_, _, _, transpose (s.inArray .operand n) b, _, hplanes, fun i hi p => ?_, rfl, storeOut_pack_outLen s h64,
      exec_blkEnc_of_fits hn hb fun p hp => ⟨_, h p hp⟩, read_storeOut_pack_mask s h64, fun i hi => ?_,
      fun j hj => zext64_presenceMask_getLsbD_of_le (hplanes.trans_le hj), fun q => read_storeOut_pack_element s h64,
      fun i => read_storeOut_pack_past s h64⟩
    · rw [BitVec.ofNat_eq_ofNat, transpose_getLsbD _ _ _ _ (by simpa using hn.2) hi, inArray_length]
      by_cases hp : p < n
      · rw [inArray_getD_of_read hp (h p hp).1]
      · simp [hp]
    · have hi' : i < (transpose (s.inArray .operand n) b).length := by omega
      have hbit := zext64_presenceMask_getLsbD h64 hi'
      rwa [hplanes, ← List.getD_eq_getElem _ 0#64 hi'] at hbit

/-- Settles O51: each error by the checks of BLK.DEC, in their order, and the pixels by the closed forms of Unpack and
Transpose on the words the block holds. -/
theorem blkDecDecodes : Obligations.BlkDecDecodes := by
  refine fun n b s hn7 hb7 => ⟨fun v => ?_, fun hn => congrArg _ (if_pos hn), fun hn hb => ?_, fun hn hb h => ?_,
    fun hn hb h => ?_, fun mask hn hb hL h0 hc => ?_, fun mask x hn hb hL h0 hc hx => ?_⟩
  · exact decode_eq_ok_iff (i := .blkDec n b) (by simp [Instr.wellFormed, fitsField, hn7, hb7]) v
  · exact congrArg _ ((if_neg (not_not.2 hn)).trans (if_pos hb))
  · exact (exec_blkDec_of_inRange hn hb).trans (congrArg _ (if_pos h))
  · exact (exec_blkDec_of_inRange hn hb).trans (congrArg _ ((if_neg (by omega)).trans (if_pos h)))
  · exact (exec_blkDec_of_inRange hn hb).trans (congrArg _ (decodeBlock_maskCount hL h0 hc))
  · have hplanes : (unpackFrom mask x b 1).length = b := unpackFrom_length ..
    have hpixels : (transpose (unpackFrom mask x b 1) n).length = n := transpose_length ..
    have hout := fun j => read_storeOut_transpose (unpackFrom mask x b 1) s j hn.2
    refine ⟨_, _, _, (storeOut_outLen_toNat _ s (by omega)).trans hpixels,
      (exec_blkDec_of_inRange hn hb).trans (congrArg _ (decodeBlock_of_reads hL h0 hc hx)), fun q => rfl,
      fun p hp => ⟨(transpose (unpackFrom mask x b 1) n).getD p 0#64, ?_, ?_, fun i => ?_⟩,
      fun i hi => (hout i).trans (if_neg (by omega))⟩
    · refine (hout p).trans ((if_pos hp).trans ?_)
      rw [List.getD_eq_getElem _ _ (by omega), List.getElem?_eq_getElem]
    · exact (transpose_getD_lt _ hp).trans_eq (by rw [hplanes])
    · rw [transpose_getLsbD _ _ _ _ (hplanes.trans_le hb.2) hp, hplanes]
      by_cases hi : i < b
      · rw [List.getD_eq_getElem?_getD, unpackFrom_getElem? _ _ _ _ _ hi]
        rfl
      · simp [hi]

/-- Settles O54: XFER hands the block to BLK.DEC, which gets the planes back from it and transposes them into the pixels;
and a wide pixel leaves BLK.ENC a least one to raise 0x07 at. -/
theorem encodeDecodeRoundTrip : Obligations.EncodeDecodeRoundTrip := by
  refine ⟨fun n b s hn hn' hb hb' h => ?_, fun n b s hn hn' hb hb' _ hwide => ?_⟩
  · have hin : Memory.Written s.inBuf n := (written_iff _ _).2 fun p hp => (h p hp).imp fun _ => And.left
    have hplanes := transpose_length (s.inArray .operand n) b
    have hle := pack_length_le_65 (hplanes.trans_le hb')
    refine ⟨_, _, _, exec_blkEnc_of_fits ⟨hn, hn'⟩ ⟨hb, hb'⟩ h, execXfer_of_result hle,
      exec_blkDec_pack hplanes ⟨hn, hn'⟩ ⟨hb, hb'⟩ ?_ (reads_of_store hle), rfl, rfl, ?_, rfl, fun p hp => ?_⟩
    · exact storeOut_outLen_toNat _ s hle
    · rw [succeed_outLen, storeOut_outLen_toNat _ _ (by rw [transpose_length]; omega), transpose_length]
    · rw [succeed_outBuf, read_storeOut_transpose _ _ _ hn', if_pos hp, transpose_transpose_inArray hn' hb' h,
        read_eq_inArray_of_written hin hp]
  · obtain ⟨p, x, hp, hx, hge⟩ := hwide
    cases hfirst : firstWide b (s.inArray .check n) with
    | none =>
      have hmem : s.inAt .check p ∈ s.inArray .check n := List.mem_map_of_mem (List.mem_range.2 hp)
      have hlt := (firstWide_eq_none b _).1 hfirst _ hmem
      rw [inAt_of_read hx] at hlt
      omega
    | some j => exact ⟨_, exec_blkEnc_of_firstWide ⟨hn, hn'⟩ ⟨hb, hb'⟩ hfirst, rfl, rfl⟩

/-- Settles O55: OUT_LEN counts the planes that are not 0, the planes with a set bit; where all of them are 0, so is the
mask. -/
theorem encodedLength : Obligations.EncodedLength := by
  intro n b s t x h he herr
  obtain ⟨hn, hb, -, rfl⟩ := exec_blkEnc_success he herr
  have hlen := inArray_length s .operand n
  have hpx : ∀ p, p < n → (s.inArray .operand n).getD p 0#64 = x p := fun p hp => inArray_getD_of_read hp (h p hp)
  generalize s.inArray .operand n = px at hlen hpx
  subst hlen
  have h64 : (transpose px b).length ≤ 64 := (transpose_length ..).trans_le hb.2
  have hcount := transpose_filter_length hn.2 hpx b
  have hlen := storeOut_pack_outLen (s.noteIn px.length) h64
  have hout := hlen.trans (congrArg (1 + ·) hcount)
  refine ⟨hout, hlen.trans_ge (Nat.le_add_right ..), ?_, fun hzero => ?_, fun hset => ?_⟩
  · exact hout.trans_le (Nat.add_le_add_left (List.countP_le_length.trans_eq List.length_range) 1)
  · have hnone := hcount.trans (List.countP_eq_zero.2 fun i _ => by simp +contextual [hzero])
    refine ⟨hlen.trans (congrArg (1 + ·) hnone), (read_storeOut_pack_mask _ h64).trans ?_⟩
    rw [presenceMask_eq_zero hnone]
    rfl
  · refine hout.trans (congrArg (1 + ·) ((List.countP_eq_length.2 fun i hi => ?_).trans List.length_range))
    simpa using hset i (List.mem_range.1 hi)

end Sys2Proof.Machine

/-! ## The housekeeping commands (44_control.md R200 to R202) -/

namespace Sys2Proof.Machine

/-! ### NOP and CLR -/

/-- Settles O35: NOP's encoding has no field, and NOP only completes. -/
theorem nopClearsErrOnly : Obligations.NopClearsErrOnly :=
  ⟨decode_eq_ok_iff rfl, fun _ => rfl⟩

/-- A buffer filled with 0 holds 0 at every index it has (10_state.md R36). -/
theorem Memory.read_fill_zero (m : Memory) {i : Nat} (hi : i ≤ 64) :
    Memory.read (Memory.writeAll m 0 (List.replicate 65 0)) i = some 0 := by
  have hlt : i < (List.replicate 65 (0 : Word)).length := by rw [List.length_replicate]; omega
  rw [reads_of_store List.length_replicate.le i hlt, List.getElem?_replicate_of_lt (by omega)]

/-- Settles O36: CLR's encoding has no field, and CLR fills both buffers with 0. -/
theorem clrClearsBuffersAndLengths : Obligations.ClrClearsBuffersAndLengths := by
  refine ⟨decode_eq_ok_iff rfl, fun s => ⟨_, _, ?_, fun i hi =>
    ⟨Memory.read_fill_zero s.inBuf hi, Memory.read_fill_zero s.outBuf hi⟩⟩⟩
  rw [exec, execClr, succeed, State.markOk]

/-! ### XFER -/

/-- Where the result in OUT is legal, XFER reads no unwritten word, so it is the copy alone. -/
theorem exec_xfer_of_outLegal {s : State} (h : s.OutLegal) :
    exec .xfer s = .next (succeed
      { s with inBuf := Memory.writeAll s.inBuf 0 (s.outArray s.outLen.toNat), inLen := s.outLen }) := by
  obtain ⟨-, hwritten⟩ := h
  rw [exec, execXfer, noteOut_of_written hwritten]

/-- A word of the array XFER copies is the OUT word at its index, where that is written. -/
theorem outArray_getElem?_of_written {s : State} {n i : Nat} (h : Memory.Written s.outBuf n) (hi : i < n) :
    (s.outArray n)[i]? = Memory.read s.outBuf i := by
  obtain ⟨x, hx⟩ := (written_iff _ _).1 h i hi
  rw [outArray_getElem? s n i hi, outAt_of_read hx, hx]

/-- Writing an array where it stands already changes nothing. -/
theorem Memory.writeAll_writeAll_same {m : Memory} (hm : Memory.wf m = true) (d : List Word) (i : Nat) :
    Memory.writeAll (Memory.writeAll m i d) i d = Memory.writeAll m i d := by
  have hwf := Memory.wf_writeAll m d i hm
  refine Memory.ext_of_wf _ _ (Memory.wf_writeAll _ d i hwf) hwf fun j => ?_
  rw [Memory.read_writeAll (Memory.writeAll m i d), Memory.read_writeAll]
  split <;> rfl

/-- Settles O37: XFER is the copy of OUT's array alone, and it leaves OUT, so a second XFER copies the same array over
itself. -/
theorem xferMovesOutToIn : Obligations.XferMovesOutToIn := by
  refine ⟨decode_eq_ok_iff rfl, fun s h => ?_, fun s t u hs hst htu => ?_⟩
  · obtain ⟨h65, hwritten⟩ := h
    have hlen := outArray_length s s.outLen.toNat
    refine ⟨_, exec_xfer_of_outLegal ⟨h65, hwritten⟩, fun i hi => ?_, fun i hi => ?_⟩
    · rw [reads_of_store (hlen.trans_le h65) i (hi.trans_eq hlen.symm), outArray_getElem?_of_written hwritten hi]
      exact ⟨rfl, hwritten i hi⟩
    · rw [Memory.read_store _ _ _ (hlen.trans_le h65), hlen, if_neg (not_lt.2 hi)]
  · obtain ⟨-, -, -, hout, hin, -⟩ := hs
    have ht := Host.Outcome.next.inj ((exec_xfer_of_outLegal hout).symm.trans hst)
    have htout : t.OutLegal := ht ▸ hout
    have hu := Host.Outcome.next.inj ((exec_xfer_of_outLegal htout).symm.trans htu)
    have hcopy := Memory.writeAll_writeAll_same hin (s.outArray s.outLen.toNat) 0
    rw [← hu, ← ht]
    exact congrArg (fun m => succeed { s with inBuf := m, inLen := s.outLen }) hcopy

end Sys2Proof.Machine

/-! ## Error recording and the cause table (60_exceptions.md R221, R222, R224)

`CauseRow` is R221's table for a decoded command, and `exec_raisedBy` says that a command raises by a row of it and in
no other way. -/

namespace Sys2Proof.Machine

/-! ### The rows of the cause table -/

/-- The rows of R221 that a decoded command can raise by: which commands, under which condition, with which cause and
info, and how many IN words the command has read by then. -/
inductive CauseRow (i : Instr) (s : State) : Cause → Word → Nat → Prop where
  | fwvWidth {w : Nat} (hi : i = .fwvInit w) (h : ¬ InRange w) : CauseRow i s .fwvWidth (zext64 w) 0
  | fwvValue {w : Nat} (hi : i = .fwvInit w) (h : 2 ^ w ≤ s.arg0.toNat) : CauseRow i s .fwvValue s.arg0 0
  | bitValue (hi : (∃ k, i = .fwvSet k) ∨ i = .fwvShin) (h : 1 < s.arg0.toNat) : CauseRow i s .bitValue s.arg0 0
  | fwvUninit (hi : (∃ k, i = .fwvGet k ∨ i = .fwvSet k) ∨ i = .fwvShin) (h : s.fwvWidth = 0) :
      CauseRow i s .fwvUninit 0 0
  | count {n : Nat} (hi : (∃ w, i = .bptFwd n w ∨ i = .blkEnc n w ∨ i = .blkDec n w) ∨ i = .smpPack n ∨
      i = .smpUnpack n) (h : ¬ InRange n) : CauseRow i s .count (zext64 n) 0
  | width {n w : Nat} (hi : i = .bptFwd n w ∨ i = .blkEnc n w ∨ i = .blkDec n w) (h : ¬ InRange w) :
      CauseRow i s .width (zext64 w) 0
  | pixel {n b j : Nat} (hi : i = .blkEnc n b) (hj : j < n) (hwide : 2 ^ b ≤ (s.inAt .check j).toNat)
      (hleast : ∀ p, p < j → (s.inAt .check p).toNat < 2 ^ b) : CauseRow i s .pixel (zext64 j) (j + 1)
  | bitIndex {k : Nat} (hi : i = .fwvGet k ∨ i = .fwvSet k) (h : s.fwvWidth.toNat ≤ k) :
      CauseRow i s .bitIndex (zext64 k) 0
  | inLen (hi : (∃ m, i = .smpUnpack m) ∨ ∃ n b, i = .blkDec n b) (h : 65 < s.inLen.toNat) :
      CauseRow i s .inLen (zext64 s.inLen.toNat) 0
  | noMask (hi : (∃ m, i = .smpUnpack m) ∨ ∃ n b, i = .blkDec n b) (h : s.inLen.toNat = 0) : CauseRow i s .noMask 0 0
  | maskCount {m : Nat} (hi : i = .smpUnpack m ∨ ∃ n, i = .blkDec n m)
      (h : s.inLen.toNat - 1 < popcount m (s.inAt .check 0).toNat) :
      CauseRow i s .maskCount (zext64 (popcount m (s.inAt .check 0).toNat)) 1

/-- Where the command leaves an error, it has raised by a row: the state before it with the row's cause and info, and
with the row's reads noted, which the host's duty covers. -/
def RaisedBy (i : Instr) (s t : State) : Prop :=
  t.err ≠ 0 → ∃ c info k, CauseRow i s c info k ∧ (DutyMet i s → Memory.Written s.inBuf k) ∧
    t = raise c info (s.noteIn k)

section
variable {i : Instr} {s : State}

theorem raisedBy_succeed (u : State) : RaisedBy i s (succeed u) := fun he => absurd (succeed_err u) he

theorem raisedBy_raise {c : Cause} {info : Word} {k : Nat} (hrow : CauseRow i s c info k)
    (hduty : DutyMet i s → Memory.Written s.inBuf k) : RaisedBy i s (raise c info (s.noteIn k)) :=
  fun _ => ⟨c, info, k, hrow, hduty, rfl⟩

/-- A check whose failure is a row that reads nothing, before a rest that raises by a row. -/
theorem raisedBy_check {p : Prop} [Decidable p] {c : Cause} {info : Word} {u : State} (hrow : p → CauseRow i s c info 0)
    (hu : ¬ p → RaisedBy i s u) : RaisedBy i s (if p then raise c info s else u) := by
  split
  next hp => exact raisedBy_raise (hrow hp) fun _ _ hj => absurd hj (Nat.not_lt_zero _)
  next hp => exact hu hp

theorem raisedBy_decodeBlock {m : Nat} {out : List Word → List Word} (hi : i = .smpUnpack m ∨ ∃ n, i = .blkDec n m)
    (hduty : DutyMet i s → BlockDuty m s) : RaisedBy i s (decodeBlock m out s) := by
  have hi' : (∃ m, i = .smpUnpack m) ∨ ∃ n b, i = .blkDec n b := hi.imp (⟨m, ·⟩) fun ⟨n, h⟩ => ⟨n, m, h⟩
  refine raisedBy_check (.inLen hi') fun h65 => raisedBy_check (.noMask hi') fun h0 => ?_
  split
  next hc =>
    exact raisedBy_raise (.maskCount hi hc) fun hd => (hduty hd (Nat.one_le_iff_ne_zero.2 h0) (not_lt.1 h65)).1
  next => exact raisedBy_succeed _

/-- The least wide pixel, through the reads of the pixel check (43_blk.md R180). -/
theorem firstWide_inArray_eq_some {n b j : Nat} {pass : ReadPass} (h : firstWide b (s.inArray pass n) = some j) :
    j < n ∧ 2 ^ b ≤ (s.inAt pass j).toNat ∧ ∀ p, p < j → (s.inAt pass p).toNat < 2 ^ b := by
  obtain ⟨hj, hwide, hleast⟩ := List.findIdx?_eq_some_iff_getElem.1 h
  rw [inArray_length] at hj
  refine ⟨hj, ?_, fun p hp => ?_⟩
  · simpa [State.inArray] using hwide
  · simpa [State.inArray] using hleast p hp

end

/-- A command raises by a row of the cause table and in no other way: each check in its order is a row. -/
theorem exec_raisedBy {i : Instr} {s t : State} (h : exec i s = .next t) : RaisedBy i s t := by
  cases i with
  | nop => cases h; exact raisedBy_succeed _
  | clr => cases h; exact raisedBy_succeed _
  | xfer => cases h; exact raisedBy_succeed _
  | fwvInit w =>
    cases h
    exact raisedBy_check (.fwvWidth rfl) fun _ => raisedBy_check (.fwvValue rfl) fun _ => raisedBy_succeed _
  | fwvGet k =>
    cases h
    exact raisedBy_check (.fwvUninit (.inl ⟨k, .inl rfl⟩)) fun _ =>
      raisedBy_check (.bitIndex (.inl rfl)) fun _ => raisedBy_succeed _
  | fwvSet k =>
    cases h
    exact raisedBy_check (.fwvUninit (.inl ⟨k, .inr rfl⟩)) fun _ =>
      raisedBy_check (.bitIndex (.inr rfl)) fun _ =>
        raisedBy_check (.bitValue (.inl ⟨k, rfl⟩)) fun _ => raisedBy_succeed _
  | fwvShin =>
    cases h
    exact raisedBy_check (.fwvUninit (.inr rfl)) fun _ =>
      raisedBy_check (.bitValue (.inr rfl)) fun _ => raisedBy_succeed _
  | bptFwd n w =>
    cases h
    exact raisedBy_check (.count (.inl ⟨w, .inl rfl⟩)) fun _ =>
      raisedBy_check (.width (.inl rfl)) fun _ => raisedBy_succeed _
  | smpPack m =>
    cases h
    exact raisedBy_check (.count (.inr (.inl rfl))) fun _ => raisedBy_succeed _
  | smpUnpack m =>
    cases h
    exact raisedBy_check (.count (.inr (.inr rfl))) fun hm =>
      raisedBy_decodeBlock (.inl rfl) fun hd => hd (not_not.1 hm)
  | blkEnc n b =>
    cases h
    refine raisedBy_check (.count (.inl ⟨b, .inr (.inl rfl)⟩)) fun hn =>
      raisedBy_check (.width (.inr (.inl rfl))) fun hb => ?_
    split
    next j hj =>
      obtain ⟨hjn, hwide, hleast⟩ := firstWide_inArray_eq_some hj
      exact raisedBy_raise (.pixel rfl hjn hwide hleast) fun hd p hp =>
        hd (not_not.1 hn) (not_not.1 hb) p (by omega)
    next => exact raisedBy_succeed _
  | blkDec n b =>
    cases h
    exact raisedBy_check (.count (.inl ⟨b, .inr (.inr rfl)⟩)) fun hn =>
      raisedBy_check (.width (.inr (.inr rfl))) fun hb =>
        raisedBy_decodeBlock (.inr ⟨n, rfl⟩) fun hd => hd (not_not.1 hn) (not_not.1 hb)

/-- Where the host has done its duty the row's reads leave no mark, so a raise is the row's record on the state
before. -/
theorem exec_raised_of_dutyMet {i : Instr} {s t : State} (hd : DutyMet i s) (h : exec i s = .next t) (he : t.err ≠ 0) :
    ∃ c info k, CauseRow i s c info k ∧ Memory.Written s.inBuf k ∧ t = raise c info s := by
  obtain ⟨c, info, k, hrow, hwritten, rfl⟩ := exec_raisedBy h he
  exact ⟨c, info, k, hrow, hwritten hd, by rw [noteIn_of_written (hwritten hd)]⟩

/-- Settles O56: a command raises on the state before it where the duty is met, and an illegal CMD value always. -/
theorem errorsArePrecise : Obligations.ErrorsArePrecise := by
  refine ⟨execute_total, fun v s t hduty h he => ?_, fun v s t h he => ?_⟩
  · rcases execute_eq v s with ⟨i, hi, hx⟩ | ⟨e, -, hx⟩ <;> rw [hx] at h
    · obtain ⟨c, info, -, -, -, rfl⟩ := exec_raised_of_dutyMet (hduty i hi) h he
      rfl
    · cases h
      rfl
  · rcases execute_next_cases h with ⟨c, info, b, rfl⟩ | ⟨u, rfl, -, hsticky, hinfo, -⟩
    · exact absurd he (raise_err_ne_zero _ _ _)
    · exact ⟨rfl, hsticky, hinfo⟩

/-! ### The table -/

/-- A written word is what every pass reads there. -/
theorem read_of_written {s : State} {pass : ReadPass} {n p : Nat} (h : Memory.Written s.inBuf n) (hp : p < n) :
    Memory.read s.inBuf p = some (s.inAt pass p) := by
  obtain ⟨x, hx⟩ := (written_iff _ _).1 h p hp
  rw [inAt_of_read hx, hx]

/-- Settles O58: a CMD value that encodes no command raises by one of the table's last three rows, and a command by its
`CauseRow`, whose reads find written words where the duty is met. -/
theorem causeTableIsComplete : Obligations.CauseTableIsComplete := by
  refine ⟨fun v s t h => ?_, fun v s t hduty h he => ?_⟩
  · rcases status_of_ending (execute_next_cases h) with ⟨-, he, hc⟩ | ⟨-, he, hc⟩
    · exact iff_of_true he hc
    · exact iff_of_false he hc
  · have hx := executeChecksThenPerforms v s
    split_ifs at hx with hrsv hopc hfield
    · cases h.symm.trans hx
      iterate 11 right
      exact .inl ⟨hrsv, rfl⟩
    · cases h.symm.trans hx
      iterate 13 right
      exact ⟨hfield, rfl⟩
    · obtain ⟨i, -, hdec, -, hexec, -⟩ := hx
      obtain ⟨c, info, k, hrow, hin, rfl⟩ := exec_raised_of_dutyMet (hduty i hdec) (hexec.symm.trans h) he
      simp only [hdec, Except.ok.injEq]
      cases hrow with
      | fwvWidth hi hw => exact .inl ⟨_, hi, hw, rfl⟩
      | fwvValue hi ha => exact .inr (.inl ⟨_, hi, ha, rfl⟩)
      | bitValue hi ha =>
        iterate 2 right
        exact .inl ⟨hi, ha, rfl⟩
      | fwvUninit hi hw =>
        iterate 3 right
        exact .inl ⟨hi, hw, rfl⟩
      | count hi hn =>
        iterate 4 right
        exact .inl ⟨_, hi, hn, rfl⟩
      | width hi hw =>
        iterate 5 right
        exact .inl ⟨_, _, hi, hw, rfl⟩
      | pixel hi hj hwide hleast =>
        iterate 6 right
        refine .inl ⟨_, _, _, _, hi, hj, read_of_written hin (Nat.lt_succ_self _), hwide, fun p y hp hy => ?_, rfl⟩
        exact inAt_of_read hy ▸ hleast p hp
      | bitIndex hi hk =>
        iterate 7 right
        exact .inl ⟨_, hi, hk, rfl⟩
      | inLen hi hL =>
        iterate 8 right
        exact .inl ⟨hi, hL, rfl⟩
      | noMask hi hL =>
        iterate 9 right
        exact .inl ⟨hi, hL, rfl⟩
      | maskCount hi hc =>
        iterate 10 right
        exact .inl ⟨_, _, hi, read_of_written hin Nat.one_pos, hc, rfl⟩
    · cases h.symm.trans hx
      iterate 12 right
      exact .inl ⟨hopc, rfl⟩

/-! ### The causes of each command (60_exceptions.md R222) -/

/-- The causes a command raises once it is decoded (60_exceptions.md R222). -/
def causesOf : Instr → List Cause
  | .nop => []
  | .clr => []
  | .xfer => []
  | .fwvInit _ => [.fwvWidth, .fwvValue]
  | .fwvGet _ => [.fwvUninit, .bitIndex]
  | .fwvSet _ => [.fwvUninit, .bitIndex, .bitValue]
  | .fwvShin => [.fwvUninit, .bitValue]
  | .bptFwd _ _ => [.count, .width]
  | .smpPack _ => [.count]
  | .smpUnpack _ => [.count, .inLen, .noMask, .maskCount]
  | .blkEnc _ _ => [.count, .width, .pixel]
  | .blkDec _ _ => [.count, .width, .inLen, .noMask, .maskCount]

/-- The commands a row names raise its cause. -/
theorem CauseRow.mem_causes {i : Instr} {s : State} {c : Cause} {info : Word} {k : Nat} (h : CauseRow i s c info k) :
    c ∈ causesOf i := by
  cases h with
  | fwvWidth hi => subst hi; simp [causesOf]
  | fwvValue hi => subst hi; simp [causesOf]
  | bitValue hi => rcases hi with ⟨_, rfl⟩ | rfl <;> simp [causesOf]
  | fwvUninit hi => rcases hi with ⟨_, rfl | rfl⟩ | rfl <;> simp [causesOf]
  | count hi => rcases hi with ⟨_, rfl | rfl | rfl⟩ | rfl | rfl <;> simp [causesOf]
  | width hi => rcases hi with rfl | rfl | rfl <;> simp [causesOf]
  | pixel hi => subst hi; simp [causesOf]
  | bitIndex hi => rcases hi with rfl | rfl <;> simp [causesOf]
  | inLen hi => rcases hi with ⟨_, rfl⟩ | ⟨_, _, rfl⟩ <;> simp [causesOf]
  | noMask hi => rcases hi with ⟨_, rfl⟩ | ⟨_, _, rfl⟩ <;> simp [causesOf]
  | maskCount hi => rcases hi with rfl | ⟨_, rfl⟩ <;> simp [causesOf]

/-- A command leaves CAUSE 0 or the code of one of its causes. -/
theorem exec_cause_mem {i : Instr} {s t : State} (h : exec i s = .next t) :
    t.cause ∈ 0x00 :: (causesOf i).map Cause.code := by
  rcases status_of_ending (exec_next_cases h) with ⟨-, -, hc⟩ | ⟨-, he, -⟩
  · exact List.mem_cons.2 (.inl hc)
  · obtain ⟨c, info, k, hrow, -, rfl⟩ := exec_raisedBy h he
    exact List.mem_cons_of_mem _ (List.mem_map_of_mem hrow.mem_causes)

/-- Settles O59: the bounds by `exec_cause_mem`, and each cause by a raise from reset with at most two fields
changed. -/
theorem causesByCommand : Obligations.CausesByCommand := by
  refine ⟨fun i s t h => ?_, fun v s t e hdec h => ?_, ?_⟩
  · have hmem := exec_cause_mem h
    cases i with
    | nop => exact List.mem_singleton.1 hmem
    | clr => exact List.mem_singleton.1 hmem
    | xfer => exact List.mem_singleton.1 hmem
    | _ => exact hmem
  · rw [execute_error hdec] at h
    cases h
    cases e with
    | rsvBits => exact .head _
    | badOpc => exact .tail _ (.head _)
    | badField => exact .tail _ (.tail _ (.head _))
  · simp only [List.forall_mem_cons, List.not_mem_nil, false_imp_iff, implies_true, and_true]
    refine ⟨
      -- FWV.INIT
      ⟨⟨0, State.reset, _, rfl, rfl⟩, ⟨1, { State.reset with arg0 := 2 }, _, rfl, rfl⟩⟩,
      -- FWV.GET, FWV.SET and FWV.SHIN
      ⟨⟨0, State.reset, _, rfl, rfl⟩, ⟨1, { State.reset with fwvWidth := 1 }, _, rfl, rfl⟩⟩,
      ⟨⟨0, State.reset, _, rfl, rfl⟩, ⟨1, { State.reset with fwvWidth := 1 }, _, rfl, rfl⟩,
        ⟨0, { State.reset with fwvWidth := 1, arg0 := 2 }, _, rfl, rfl⟩⟩,
      ⟨⟨State.reset, _, rfl, rfl⟩, ⟨{ State.reset with fwvWidth := 1, arg0 := 2 }, _, rfl, rfl⟩⟩,
      -- BPT.FWD and SMP.PACK
      ⟨⟨0, 1, State.reset, _, rfl, rfl⟩, ⟨1, 0, State.reset, _, rfl, rfl⟩⟩,
      ⟨0, State.reset, _, rfl, rfl⟩,
      -- SMP.UNPACK
      ⟨⟨0, State.reset, _, rfl, rfl⟩, ⟨1, { State.reset with inLen := 66 }, _, rfl, rfl⟩, ⟨1, State.reset, _, rfl, rfl⟩,
        ⟨1, { State.reset with inLen := 1, inBuf := [(0, 1)] }, _, rfl, rfl⟩⟩,
      -- BLK.ENC and BLK.DEC
      ⟨⟨0, 1, State.reset, _, rfl, rfl⟩, ⟨1, 0, State.reset, _, rfl, rfl⟩,
        ⟨1, 1, { State.reset with inBuf := [(0, 2)] }, _, rfl, rfl⟩⟩,
      ⟨⟨0, 1, State.reset, _, rfl, rfl⟩, ⟨1, 0, State.reset, _, rfl, rfl⟩,
        ⟨1, 1, { State.reset with inLen := 66 }, _, rfl, rfl⟩, ⟨1, 1, State.reset, _, rfl, rfl⟩,
        ⟨1, 1, { State.reset with inLen := 1, inBuf := [(0, 1)] }, _, rfl, rfl⟩⟩,
      -- CMD values that encode no command
      ⟨⟨0x400000, .rsvBits, State.reset, _, rfl, rfl, rfl⟩, ⟨0xFF, .badOpc, State.reset, _, rfl, rfl, rfl⟩,
        ⟨0x100, .badField, State.reset, _, rfl, rfl, rfl⟩⟩⟩

end Sys2Proof.Machine

/-! ## Encoding and decoding are inverse (30_encoding.md R91, R93) -/

namespace Sys2Proof

theorem opc_lt (i : Instr) : i.opc < 256 := by cases i <;> simp [Instr.opc]

theorem wellFormed_of_p1_p2 {i : Instr} (h1 : i.p1 < 128) (h2 : i.p2 < 128) : i.wellFormed = true := by
  cases i <;> simp_all [Instr.wellFormed, fitsField, Instr.p1, Instr.p2]

/-- Settles O29: the encoding keeps the three fields, and the opcode map reads them back. -/
theorem decodeEncodeRoundTrip : Obligations.DecodeEncodeRoundTrip := by
  intro i hi
  obtain ⟨h1, h2⟩ := p1_p2_of_wellFormed hi
  rw [encode_eq, decode_encodeFields _ _ _ (opc_lt i) h1 h2, decodeFields_instr]

/-- The fields of a decoded command are those of the CMD value, so they fit. -/
theorem wellFormed_of_decode {v : Word} {i : Instr} (h : decode v = .ok i) : i.wellFormed = true := by
  obtain ⟨hr, ho, hf, -, -⟩ := decode_eq_ok h
  obtain ⟨j, hopc, hp1, hp2⟩ := exists_instr ho hf
  have hj : decode v = .ok j := by rw [decode_of_rsv hr, ← hopc, ← hp1, ← hp2, decodeFields_instr]
  obtain rfl : j = i := Except.ok.inj (hj.symm.trans h)
  exact wellFormed_of_p1_p2 (hp1 ▸ p1Field_lt v) (hp2 ▸ p2Field_lt v)

/-- Settles O30: a CMD value that decodes has its reserved bits 0, so it is the encoding of its fields. -/
theorem decodedValuesAreEncodings : Obligations.DecodedValuesAreEncodings := by
  intro v i h
  obtain ⟨-, -, -, -, henc⟩ := decode_eq_ok h
  exact ⟨wellFormed_of_decode h, henc⟩

end Sys2Proof

/-! ## The assembler reads what is printed (30_encoding.md R98) -/

namespace Sys2Proof.Machine

/-- One printed number after a mnemonic is read back as its field. -/
theorem parseFields_single (a : Nat) : parseFields (toString a).toList = some [a] := by
  have hne : (toString a).toList ≠ [] := by rw [toList_toString]; exact Nat.toDigits_ne_nil
  have hcomma : ¬ (toString a).toList.contains ',' = true :=
    mt List.contains_iff_mem.1 (notMem_toString (by decide) a)
  rw [parseFields, trimBlanks_of_notMem (notMem_toString (by decide) a), if_neg hne, if_neg hcomma,
    parseNumber_toString, Option.map_some]

theorem mnemonic_ne_nil (i : Instr) : i.mnemonic.toList ≠ [] := by cases i <;> simp [Instr.mnemonic]

theorem blank_notMem_mnemonic (i : Instr) : ' ' ∉ i.mnemonic.toList := by cases i <;> simp [Instr.mnemonic]

/-- The mnemonic of a command with its fields spells the command. -/
theorem spelled_fieldsOf (i : Instr) : spelled i.mnemonic.toList (fieldsOf i) = some i := by
  cases i <;> simp [spelled, fieldsOf, Instr.mnemonic]

/-- A command writes at most two fields. -/
theorem fieldsOf_cases (i : Instr) : fieldsOf i = [] ∨ (∃ a, fieldsOf i = [a]) ∨ ∃ a b, fieldsOf i = [a, b] := by
  cases i <;> simp [fieldsOf]

theorem cutAt_of_notMem {sep : Char} {t : List Char} (h : sep ∉ t) : cutAt sep t = (t, []) := by
  induction t with
  | nil => rfl
  | cons c t ih =>
    rw [List.mem_cons, not_or] at h
    rw [cutAt, if_neg (Ne.symm h.1), ih h.2]

/-- A mnemonic alone is the command without fields that it spells. -/
theorem parseCommand_bare {m : List Char} {i : Instr} (hm : ' ' ∉ m) (hs : spelled m [] = some i)
    (hw : i.wellFormed = true) : parseCommand m = some i := by
  rw [parseCommand, skipBlanks_eq_self (head?_ne_of_notMem hm), cutAt_of_notMem hm]
  simp only [parseFields, trimBlanks, skipBlanks, List.reverse_nil, hs, hw, if_true]

/-- A well-formed command is read back from its text, however many fields it has. -/
theorem parseCommand_printCommand {i : Instr} (hw : i.wellFormed = true) :
    parseCommand (printCommand i).toList = some i := by
  have hm := blank_notMem_mnemonic i
  have hs := spelled_fieldsOf i
  rcases fieldsOf_cases i with hf | ⟨a, hf⟩ | ⟨a, b, hf⟩
  · rw [hf] at hs
    have ht : printCommand i = i.mnemonic := by rw [printCommand, hf]
    exact ht ▸ parseCommand_bare hm hs hw
  · rw [hf] at hs
    have ht : (printCommand i).toList = i.mnemonic.toList ++ ' ' :: (toString a).toList := by
      rw [printCommand, hf]; simp
    exact ht ▸ parseCommand_spelled (mnemonic_ne_nil i) hm (parseFields_single a) hs hw
  · rw [hf] at hs
    have ht : (printCommand i).toList =
        i.mnemonic.toList ++ ' ' :: ((toString a).toList ++ ',' :: ' ' :: (toString b).toList) := by
      rw [printCommand, hf]; simp
    exact ht ▸ parseCommand_spelled (mnemonic_ne_nil i) hm (parseFields_pair a b) hs hw

/-- Settles O34: the parser gives the command back, and the assembler encodes it. -/
theorem printedCommandsAssemble : Obligations.PrintedCommandsAssemble := by
  intro i hw
  rw [assemble, parseCommand_printCommand hw, Option.map_some]

end Sys2Proof.Machine

/-! ## What a completed command and an access without a command leave

`Completes` is every way a command ends without a raise, and `QuietAccess` is what an access that is not a CMD write
leaves. With `exec_raised` they say of every step what it writes. -/

namespace Sys2Proof

/-- The commands with an array result (20_memory.md R66). -/
def Instr.isArray : Instr → Bool
  | .bptFwd _ _ => true
  | .smpPack _ => true
  | .smpUnpack _ => true
  | .blkEnc _ _ => true
  | .blkDec _ _ => true
  | _ => false

end Sys2Proof

namespace Sys2Proof.Machine

/-! ### Commands -/

/-- How a command ends where it raises nothing: CLR, XFER, an array result, or a write of the FWV unit at most (NOP
and the FWV commands). -/
inductive Completes (s : State) : Instr → State → Prop where
  | clr : Completes s .clr (succeed
      { s with
        inBuf := Memory.writeAll s.inBuf 0 (List.replicate 65 0)
        outBuf := Memory.writeAll s.outBuf 0 (List.replicate 65 0)
        inLen := 0
        outLen := 0
        result := 0 })
  | xfer : Completes s .xfer (succeed
      { s.noteOut s.outLen.toNat with
        inBuf := Memory.writeAll s.inBuf 0 (s.outArray s.outLen.toNat)
        inLen := s.outLen })
  | array {i : Instr} {d : List Word} {k : Nat} (hi : i.isArray = true) (hd : d.length ≤ 65)
      (hduty : Memory.Written s.inBuf k ↔ DutyMet i s) : Completes s i (succeed (storeOut d (s.noteIn k)))
  | scalar {i : Instr} {x r : Word} {w : Len} (hi : i.isArray = false) (hclr : i ≠ .clr) (hxfer : i ≠ .xfer)
      (hw : (∀ a, i ≠ .fwvInit a) → w = s.fwvWidth)
      (hx : (∀ a, i ≠ .fwvInit a) → (∀ a, i ≠ .fwvSet a) → i ≠ .fwvShin → x = s.fwvValue) :
      Completes s i (succeed (s.setFwv x w r))

/-- The duty on a block whose checks pass is on its mask word and the elements its mask counts. -/
theorem blockDuty_iff {m : Nat} {s : State} (h1 : 1 ≤ s.inLen.toNat) (h65 : s.inLen.toNat ≤ 65)
    (hc : popcount m (s.inAt .check 0).toNat ≤ s.inLen.toNat - 1) :
    Memory.Written s.inBuf (1 + popcount m (s.inAt .check 0).toNat) ↔ BlockDuty m s :=
  ⟨fun h _ _ => ⟨fun i hi => h i (by omega), fun _ => h⟩, fun h => (h h1 h65).2 hc⟩

/-- A command that ends with ERR 0 has ended in one of the ways of `Completes`. -/
theorem exec_completes {i : Instr} {s t : State} (h : exec i s = .next t) (he : t.err = 0) : Completes s i t := by
  cases i with
  | nop => cases h; exact .scalar rfl nofun nofun (fun _ => rfl) fun _ _ _ => rfl
  | clr => cases h; exact .clr
  | xfer => cases h; exact .xfer
  | fwvInit a =>
    obtain ⟨-, -, rfl⟩ := exec_fwvInit_success h he
    exact .scalar rfl nofun nofun (fun hne => absurd rfl (hne a)) fun hne => absurd rfl (hne a)
  | fwvGet a =>
    obtain ⟨-, -, rfl⟩ := exec_fwvGet_success h he
    exact .scalar rfl nofun nofun (fun _ => rfl) fun _ _ _ => rfl
  | fwvSet a =>
    obtain ⟨-, -, -, rfl⟩ := exec_fwvSet_success h he
    exact .scalar rfl nofun nofun (fun _ => rfl) fun _ hne => absurd rfl (hne a)
  | fwvShin =>
    obtain ⟨-, -, rfl⟩ := exec_fwvShin_success h he
    exact .scalar rfl nofun nofun (fun _ => rfl) fun _ _ hne => absurd rfl hne
  | bptFwd n w =>
    obtain ⟨hn, hw, rfl⟩ := exec_bptFwd_success h he
    exact .array rfl (by rw [transpose_length]; omega) ⟨fun hin _ _ => hin, fun hd => hd hn hw⟩
  | smpPack m =>
    obtain ⟨hm, rfl⟩ := exec_smpPack_success h he
    exact .array rfl (pack_length_le_65 ((inArray_length ..).trans_le hm.2)) ⟨fun hin _ => hin, fun hd => hd hm⟩
  | smpUnpack m =>
    obtain ⟨hm, h1, h65, hc, rfl⟩ := exec_smpUnpack_success h he
    have hduty := blockDuty_iff h1 h65 hc
    exact .array rfl (by rw [unpack_length]; omega) ⟨fun hin _ => hduty.1 hin, fun hd => hduty.2 (hd hm)⟩
  | blkEnc n b =>
    obtain ⟨hn, hb, -, rfl⟩ := exec_blkEnc_success h he
    exact .array rfl (pack_length_le_65 ((transpose_length ..).trans_le hb.2)) ⟨fun hin _ _ => hin, fun hd => hd hn hb⟩
  | blkDec n b =>
    obtain ⟨hn, hb, h1, h65, hc, rfl⟩ := exec_blkDec_success h he
    have hduty := blockDuty_iff h1 h65 hc
    exact .array rfl (by rw [transpose_length]; omega) ⟨fun hin _ _ => hduty.1 hin, fun hd => hduty.2 (hd hn hb)⟩

/-- A command raises, or it completes. -/
theorem exec_raised_or_completes {i : Instr} {s t : State} (h : exec i s = .next t) :
    (∃ c info b, t = raise c info (s.noteReads b)) ∨ Completes s i t := by
  by_cases he : t.err = 0
  · exact .inr (exec_completes h he)
  · exact .inl (exec_raised h he)

/-- A CMD value's execution raises, or the command it encodes completes. -/
theorem execute_raised_or_completes {v : Word} {s t : State} (h : execute v s = .next t) :
    (∃ c info b, t = raise c info (s.noteReads b)) ∨ ∃ i, exec i s = .next t ∧ Completes s i t := by
  rcases execute_eq v s with ⟨i, -, hx⟩ | ⟨e, -, hx⟩ <;> rw [hx] at h
  · exact (exec_raised_or_completes h).imp_right fun hc => ⟨i, h, hc⟩
  · cases h
    exact .inl ⟨_, _, false, rfl⟩

/-! ### Accesses -/

/-- What an access `e` that runs no command leaves: only ARG0, IN_LEN, STICKY, a word of IN and the model's own fields
can have changed (20_memory.md R70, R71). -/
structure QuietAccess (e : HostEvent) (s t : State) : Prop where
  err : t.err = s.err
  cause : t.cause = s.cause
  errInfo : t.errInfo = s.errInfo
  arg0 : t.arg0 ≠ s.arg0 → e = .write 8 0x020 t.arg0
  outLen : t.outLen = s.outLen
  fwvValue : t.fwvValue = s.fwvValue
  fwvWidth : t.fwvWidth = s.fwvWidth
  inBuf : t.inBuf = s.inBuf ∨ ∃ i v, t.inBuf = Memory.write s.inBuf i v
  outBuf : t.outBuf = s.outBuf
  uninitReads : s.uninitReads ≤ t.uninitReads

/-- A host read changes the mark and the returned values at most. -/
theorem readWord_eq (s : State) (off : Offset) : s.readWord off =
    { s with
      uninitReads := s.uninitReads + (s.peek (targetAt off.toNat)).isNone.toNat
      returned := s.returned ++
        [(s.peek (targetAt off.toNat)).getD (Config.uninitWord s.uninitReads .operand off.toNat)] } := by
  rw [State.readWord, noteReads_eq]

/-- An access of the host runs a CMD value, or it is quiet. -/
theorem step_executes_or_quiet {s t : State} {e : HostEvent} {rest : List HostEvent} (hp : s.pending = e :: rest)
    (hr : e ≠ .reset) (h : step s = .next t) :
    (∃ v, e = .write 8 0x008 v ∧ execute v { s with pending := rest, cmd := v } = .next t) ∨ QuietAccess e s t := by
  rcases step_access_cases hp hr h with ⟨off, -, rfl⟩ | hcmd | ⟨v, -, rfl⟩ | ⟨v, rfl, rfl⟩ | ⟨v, -, rfl⟩ |
    ⟨off, i, v, -, rfl⟩ | ⟨off, v, -, rfl⟩
  · rw [readWord_eq]
    exact .inr ⟨rfl, rfl, rfl, fun hne => absurd rfl hne, rfl, rfl, rfl, .inl rfl, rfl, Nat.le_add_right _ _⟩
  · exact .inl hcmd
  · rw [writeStatus_eq]
    exact .inr ⟨rfl, rfl, rfl, fun hne => absurd rfl hne, rfl, rfl, rfl, .inl rfl, rfl, le_rfl⟩
  · exact .inr ⟨rfl, rfl, rfl, fun _ => rfl, rfl, rfl, rfl, .inl rfl, rfl, le_rfl⟩
  · exact .inr ⟨rfl, rfl, rfl, fun hne => absurd rfl hne, rfl, rfl, rfl, .inl rfl, rfl, le_rfl⟩
  · exact .inr ⟨rfl, rfl, rfl, fun hne => absurd rfl hne, rfl, rfl, rfl, .inr ⟨i, v, rfl⟩, rfl, le_rfl⟩
  · exact .inr ⟨rfl, rfl, rfl, fun hne => absurd rfl hne, rfl, rfl, rfl, .inl rfl, rfl, le_rfl⟩

theorem step_reset {s : State} {rest : List HostEvent} (hp : s.pending = .reset :: rest) :
    step s = .next (State.doReset { s with pending := rest }) := step_of_pending hp

/-- What reset, CMD writes and quiet accesses keep, every step keeps. -/
theorem step_keeps {P : State → Prop}
    (hreset : ∀ (rest : List HostEvent) (s : State), P s → P (State.doReset { s with pending := rest }))
    (hexec : ∀ (v : Word) (rest : List HostEvent) (s t : State), P s →
      execute v { s with pending := rest, cmd := v } = .next t → P t)
    (hquiet : ∀ (e : HostEvent) (s t : State), P s → QuietAccess e s t → P t) {s t : State} (hs : P s)
    (h : step s = .next t) : P t := by
  rcases step_cases s with ⟨-, hx⟩ | ⟨e, rest, hp, -⟩
  · cases hx.symm.trans h
    exact hs
  · by_cases hr : e = .reset
    · subst hr
      cases (step_reset hp).symm.trans h
      exact hreset rest s hs
    · rcases step_executes_or_quiet hp hr h with ⟨v, -, hv⟩ | hq
      · exact hexec v rest s t hs hv
      · exact hquiet e s t hs hq

end Sys2Proof.Machine

/-! ## The machine's invariant -/

namespace Sys2Proof.Machine

/-! ### Its parts -/

theorem raise_statusLegal (c : Cause) (info : Word) (s : State) : (raise c info s).StatusLegal := by
  cases c <;> simp [State.StatusLegal, legalStatus, Cause.kind, Cause.code]

theorem succeed_statusLegal (s : State) : (succeed s).StatusLegal := .head _

/-- An array result leaves OUT_LEN within its bound, and the words below it written. -/
theorem storeOut_outLegal {d : List Word} (s : State) (hd : d.length ≤ 65) : (storeOut d s).OutLegal := by
  have hlen := storeOut_outLen_toNat d s hd
  refine ⟨hlen.trans_le hd, hlen ▸ written_of_reads fun i hi => ?_⟩
  rw [read_storeOut d s i hd, if_pos hi]

/-- Every command keeps a legal width: only FWV.INIT writes it, with a width in its range. -/
theorem exec_widthLegal {i : Instr} {s t : State} (hs : s.WidthLegal) (h : exec i s = .next t) : t.WidthLegal := by
  rcases exec_raised_or_completes h with ⟨c, info, b, rfl⟩ | hc
  · simpa [State.WidthLegal] using hs
  · by_cases hi : ∃ a, i = .fwvInit a
    · obtain ⟨a, rfl⟩ := hi
      obtain ⟨⟨-, ha⟩, -, rfl⟩ := exec_fwvInit_success h (by cases hc <;> rfl)
      exact (Nat.mod_le a _).trans ha
    · cases hc with
      | clr => exact hs
      | xfer => simpa [State.WidthLegal] using hs
      | array => simpa [State.WidthLegal] using hs
      | scalar _ _ _ hw => exact hw (fun a ha => hi ⟨a, ha⟩) ▸ hs

theorem exec_outLegal {i : Instr} {s t : State} (hs : s.OutLegal) (h : exec i s = .next t) : t.OutLegal := by
  rcases exec_raised_or_completes h with ⟨c, info, b, rfl⟩ | hc
  · simpa [State.OutLegal] using hs
  · cases hc with
    | clr => exact ⟨Nat.zero_le _, fun _ hj => absurd hj (Nat.not_lt_zero _)⟩
    | xfer => simpa [State.OutLegal] using hs
    | array hi hd => exact storeOut_outLegal _ hd
    | scalar => exact hs

theorem exec_buffersWf {i : Instr} {s t : State} (hs : s.BuffersWf) (h : exec i s = .next t) : t.BuffersWf := by
  obtain ⟨hin, hout⟩ := hs
  rcases exec_raised_or_completes h with ⟨c, info, b, rfl⟩ | hc
  · simpa [State.BuffersWf] using ⟨hin, hout⟩
  · cases hc with
    | clr =>
      simp only [State.BuffersWf, succeed_inBuf, succeed_outBuf]
      exact ⟨Memory.wf_writeAll _ _ _ hin, Memory.wf_writeAll _ _ _ hout⟩
    | xfer => exact ⟨Memory.wf_writeAll _ _ _ hin, by simpa using hout⟩
    | array => exact ⟨by simpa using hin, by simpa using Memory.wf_writeAll _ _ _ hout⟩
    | scalar => exact ⟨hin, hout⟩

/-! ### The invariant -/

theorem doReset_inv (s : State) : s.doReset.Inv :=
  ⟨.head _, Nat.one_pos, Nat.zero_le _, ⟨Nat.zero_le _, fun _ hj => absurd hj (Nat.not_lt_zero _)⟩, rfl, rfl⟩

/-- Settles O14: reset is the state after a reset event. -/
theorem resetIsLegal : Obligations.ResetIsLegal := doReset_inv State.reset

theorem exec_inv {i : Instr} {s t : State} (hs : s.Inv) (h : exec i s = .next t) : t.Inv := by
  obtain ⟨-, hbound, hwidth, hout, hwf⟩ := hs
  refine ⟨?_, exec_fwvBound hbound h, exec_widthLegal hwidth h, exec_outLegal hout h, exec_buffersWf hwf h⟩
  rcases exec_next_cases h with ⟨c, info, b, rfl⟩ | ⟨u, rfl, -⟩
  · exact raise_statusLegal c info _
  · exact succeed_statusLegal u

theorem execute_inv {v : Word} {s t : State} (hs : s.Inv) (h : execute v s = .next t) : t.Inv := by
  rcases execute_eq v s with ⟨i, -, hx⟩ | ⟨e, -, hx⟩ <;> rw [hx] at h
  · exact exec_inv hs h
  · cases h
    exact ⟨raise_statusLegal _ _ _, hs.2⟩

/-- A quiet access writes no register the invariant reads, and a word of IN at most. -/
theorem QuietAccess.inv {e : HostEvent} {s t : State} (hs : s.Inv) (h : QuietAccess e s t) : t.Inv := by
  obtain ⟨hstatus, hbound, hwidth, hout, hwfIn, hwfOut⟩ := hs
  simp only [State.Inv, State.StatusLegal, State.FwvBound, State.WidthLegal, State.OutLegal, State.BuffersWf, h.err,
    h.cause, h.fwvValue, h.fwvWidth, h.outLen, h.outBuf]
  refine ⟨hstatus, hbound, hwidth, hout, ?_, hwfOut⟩
  rcases h.inBuf with hin | ⟨i, v, hin⟩ <;> rw [hin]
  · exact hwfIn
  · exact Memory.wf_write _ i v hwfIn

/-- Settles O13: reset establishes the invariant, and every command and every quiet access keeps it. -/
theorem everyStepKeepsTheMachineLegal : Obligations.EveryStepKeepsTheMachineLegal :=
  fun _ _ hs h => step_keeps (P := State.Inv) (fun _ _ _ => doReset_inv _)
    (fun v rest s _ hs hv => execute_inv (s := { s with pending := rest, cmd := v }) hs hv)
    (fun _ _ _ hs hq => hq.inv hs) hs h

end Sys2Proof.Machine

/-! ## The registers and who writes them (10_state.md R23 to R32, R40) -/

namespace Sys2Proof.Machine

/-! ### Reset, CMD and STATUS -/

/-- Settles O1: the reset column by computation. -/
theorem resetHoldsTheResetColumn : Obligations.ResetHoldsTheResetColumn :=
  ⟨rfl, rfl, rfl, rfl, rfl, rfl, rfl, rfl, rfl, rfl, rfl, rfl, fun _ => ⟨rfl, rfl⟩, fun _ => rfl, rfl, rfl, rfl⟩

/-- Settles O2: the step performs the reset event. -/
theorem resetEventRestoresTheRecord : Obligations.ResetEventRestoresTheRecord := fun _ _ hp => step_reset hp

/-- Settles O27: a CMD write is `execute` on the state with CMD set, and a refused value has one of three causes. -/
theorem stepRunsTheDecodedCommand : Obligations.StepRunsTheDecodedCommand := by
  refine ⟨fun s v rest hp => ⟨fun i hi => ⟨wellFormed_of_decode hi, ?_⟩, fun e he => ⟨(decodeCause e).code, ?_, ?_⟩⟩,
    fun s => rfl, fun s hp => ?_⟩
  · exact (step_write hp rfl).trans (execute_ok hi _)
  · cases e <;> simp [decodeCause, Cause.code]
  · rw [step_write hp rfl]
    refine (execute_error he _).trans ?_
    cases e <;> rfl
  · rw [step, advance, hp]

/-- STATUS as a number: its three fields at their places (10_state.md R24). -/
theorem statusWord_toNat (s : State) :
    s.statusWord.toNat = s.sticky.toNat * 2 ^ 16 + s.cause.toNat * 2 ^ 8 + s.err.toNat := by
  have hsticky := s.sticky.isLt
  have hcause := s.cause.isLt
  have herr := s.err.isLt
  have e1 : (s.sticky.setWidth 64 <<< 16).toNat = s.sticky.toNat <<< 16 := by
    rw [BitVec.toNat_shiftLeft, BitVec.toNat_setWidth]; simp only [Nat.shiftLeft_eq]; omega
  have e2 : (s.cause.setWidth 64 <<< 8).toNat = s.cause.toNat <<< 8 := by
    rw [BitVec.toNat_shiftLeft, BitVec.toNat_setWidth]; simp only [Nat.shiftLeft_eq]; omega
  have e3 : (s.err.setWidth 64).toNat = s.err.toNat := by rw [BitVec.toNat_setWidth]; omega
  have h1 : s.cause.toNat <<< 8 ||| s.err.toNat = s.cause.toNat * 2 ^ 8 + s.err.toNat := by
    rw [← Nat.shiftLeft_add_eq_or_of_lt (by omega), Nat.shiftLeft_eq]
  rw [State.statusWord, BitVec.or_assoc, BitVec.toNat_or, BitVec.toNat_or, e1, e2, e3, h1,
    ← Nat.shiftLeft_add_eq_or_of_lt (by omega), Nat.shiftLeft_eq, Nat.add_assoc]

/-- A field of a word is a digit of it as a number. -/
theorem extractLsb'_eq_of_toNat {v : Word} {lo w : Nat} {x : BitVec w} (h : v.toNat / 2 ^ lo % 2 ^ w = x.toNat) :
    v.extractLsb' lo w = x := by
  apply BitVec.eq_of_toNat_eq
  rw [BitVec.extractLsb'_toNat, Nat.shiftRight_eq_div_pow, h]

/-- Settles O4: the fields are digits of STATUS as a number. -/
theorem statusWordShowsItsFields : Obligations.StatusWordShowsItsFields := by
  intro s
  have hword := statusWord_toNat s
  have hsticky := s.sticky.isLt
  have hcause := s.cause.isLt
  have herr := s.err.isLt
  exact ⟨s.statusWord, rfl, extractLsb'_eq_of_toNat (by omega),
    extractLsb'_eq_of_toNat (by rw [BitVec.toNat_ofNat]; omega), extractLsb'_eq_of_toNat (by omega),
    extractLsb'_eq_of_toNat (by omega), extractLsb'_eq_of_toNat (by rw [BitVec.toNat_ofNat]; omega)⟩

/-! ### ERRINFO and ARG0 -/

theorem exec_errInfo_of_err_eq_zero {i : Instr} {s t : State} (h : exec i s = .next t) (he : t.err = 0) :
    t.errInfo = s.errInfo := by
  rcases exec_next_cases h with ⟨c, info, b, rfl⟩ | ⟨u, rfl, -, -, hinfo, -⟩
  · exact absurd he (raise_err_ne_zero _ _ _)
  · exact hinfo

theorem exec_arg0 {i : Instr} {s t : State} (h : exec i s = .next t) : t.arg0 = s.arg0 := by
  rcases exec_next_cases h with ⟨c, info, b, rfl⟩ | ⟨u, rfl, -, -, -, harg0, -⟩
  · simp
  · exact harg0

/-- Settles O6: a completion keeps ERRINFO, a quiet access too, and a raise writes the info of its row of the cause
table. -/
theorem errInfoChangesOnlyOnErrors : Obligations.ErrInfoChangesOnlyOnErrors := by
  obtain ⟨-, -, hcompleted⟩ := errorsArePrecise
  refine ⟨fun i s t => exec_errInfo_of_err_eq_zero, fun s t e rest hp hr h hne => ?_, fun v s t e hdec h => ?_,
    fun i s t h he => ?_, fun s v rest hp => step_write hp rfl, rfl, fun s => rfl⟩
  · rcases step_executes_or_quiet hp hr h with ⟨v, rfl, hv⟩ | hq
    · exact ⟨⟨v, rfl⟩, fun he => hne (hcompleted v _ t hv he).2.2⟩
    · exact absurd hq.errInfo hne
  · cases (execute_error hdec s).symm.trans h
    rfl
  · obtain ⟨c, info, k, hrow, -, rfl⟩ := exec_raisedBy h he
    clear h he
    cases hrow with
    | fwvWidth hi => subst hi; rfl
    | fwvValue hi => subst hi; rfl
    | bitValue hi => rcases hi with ⟨_, rfl⟩ | rfl <;> rfl
    | fwvUninit hi => rcases hi with ⟨_, rfl | rfl⟩ | rfl <;> rfl
    | count hi =>
      rcases hi with ⟨_, rfl | rfl | rfl⟩ | rfl | rfl
      · rfl
      · exact ⟨0, nofun, rfl⟩
      · exact ⟨s.inAt .check 0, fun _ => inAt_of_read, rfl⟩
      · rfl
      · exact ⟨s.inAt .check 0, fun _ => inAt_of_read, rfl⟩
    | width hi =>
      rcases hi with rfl | rfl | rfl
      · rfl
      · exact ⟨0, nofun, rfl⟩
      · exact ⟨s.inAt .check 0, fun _ => inAt_of_read, rfl⟩
    | pixel hi hj hwide hleast =>
      subst hi
      exact ⟨_, fun _ => ⟨hj, fun x hx => inAt_of_read hx ▸ hwide, fun p x hp hx => inAt_of_read hx ▸ hleast p hp⟩, rfl⟩
    | bitIndex hi => rcases hi with rfl | rfl <;> rfl
    | inLen hi => rcases hi with ⟨_, rfl⟩ | ⟨_, _, rfl⟩ <;> exact ⟨s.inAt .check 0, fun _ => inAt_of_read, rfl⟩
    | noMask hi => rcases hi with ⟨_, rfl⟩ | ⟨_, _, rfl⟩ <;> exact ⟨s.inAt .check 0, fun _ => inAt_of_read, rfl⟩
    | maskCount hi => rcases hi with rfl | ⟨_, rfl⟩ <;> exact ⟨s.inAt .check 0, fun _ => inAt_of_read, rfl⟩

/-- Settles O7: no command writes ARG0, and a host write of it reaches it. -/
theorem arg0IsTheHosts : Obligations.Arg0IsTheHosts :=
  ⟨fun _ _ _ hp => step_write hp rfl, fun _ _ _ => exec_arg0, fun _ => rfl, rfl⟩

/-! ### IN_LEN -/

/-- The state with another IN_LEN. -/
def State.setInLen (s : State) (l : Len) : State := { s with inLen := l }

section
variable {s : State} {l : Len}

theorem noteReads_setInLen (b : Bool) : (s.setInLen l).noteReads b = (s.noteReads b).setInLen l := by cases b <;> rfl

theorem inArray_setInLen (pass : ReadPass) (n : Nat) : (s.setInLen l).inArray pass n = s.inArray pass n := rfl

theorem storeOut_noteReads_setInLen (d : List Word) (b : Bool) :
    succeed (storeOut d ((s.setInLen l).noteReads b)) = (succeed (storeOut d (s.noteReads b))).setInLen l := by
  rw [noteReads_setInLen]; rfl

/-- A check that does not read IN_LEN, before a rest that does not. -/
theorem check_setInLen {p : Prop} [Decidable p] {a : Cause} {info : Word} {u u' : State} (hu : u' = u.setInLen l) :
    (if p then raise a info (s.setInLen l) else u') = (if p then raise a info s else u).setInLen l := by
  rw [hu, apply_ite (State.setInLen · l)]
  rfl

end

/-- Only SMP.UNPACK and BLK.DEC read IN_LEN: with another one there, any other command ends in the same state with that
one, but that XFER and CLR write their own. Each case follows the command's checks, in their order. -/
theorem exec_setInLen {i : Instr} {s t : State} (hunpack : ∀ m, i ≠ .smpUnpack m) (hdec : ∀ n b, i ≠ .blkDec n b)
    (h : exec i s = .next t) (l : Len) :
    exec i (s.setInLen l) = .next (t.setInLen (if i = .xfer ∨ i = .clr then t.inLen else l)) := by
  cases i with
  | nop => cases h; rfl
  | clr =>
    cases h
    -- Record updates only: `rfl` would evaluate the 65 writes of CLR.
    simp only [exec, execClr, State.setInLen, succeed, State.markOk, or_true, if_true]
  | xfer =>
    cases h
    simp only [exec, execXfer, noteOut_def, noteReads_setInLen]
    rfl
  | fwvInit a => cases h; exact congrArg Host.Outcome.next (check_setInLen (check_setInLen rfl))
  | fwvGet a => cases h; exact congrArg Host.Outcome.next (check_setInLen (check_setInLen rfl))
  | fwvSet a => cases h; exact congrArg Host.Outcome.next (check_setInLen (check_setInLen (check_setInLen rfl)))
  | fwvShin => cases h; exact congrArg Host.Outcome.next (check_setInLen (check_setInLen rfl))
  | bptFwd n w =>
    cases h
    exact congrArg Host.Outcome.next (check_setInLen (check_setInLen (storeOut_noteReads_setInLen _ _)))
  | smpPack m => cases h; exact congrArg Host.Outcome.next (check_setInLen (storeOut_noteReads_setInLen _ _))
  | smpUnpack m => exact absurd rfl (hunpack m)
  | blkEnc n b =>
    cases h
    refine congrArg Host.Outcome.next (check_setInLen (check_setInLen ?_))
    rw [inArray_setInLen]
    cases firstWide b (s.inArray .check n) with
    | none => exact storeOut_noteReads_setInLen _ _
    | some j => exact congrArg (raise .pixel (zext64 j)) (noteReads_setInLen _)
  | blkDec n b => exact absurd rfl (hdec n b)

theorem exec_inLen {i : Instr} {s t : State} (h : exec i s = .next t) (hxfer : i ≠ .xfer) (hclr : i ≠ .clr) :
    t.inLen = s.inLen := by
  rcases exec_raised_or_completes h with ⟨c, info, b, rfl⟩ | hc
  · simp
  · cases hc with
    | clr => exact absurd rfl hclr
    | xfer => exact absurd rfl hxfer
    | array => simp
    | scalar => rfl

/-- Settles O9: the writers by how a command ends, and the readers by `exec_setInLen`. -/
theorem inLenReadersAndWriters : Obligations.InLenReadersAndWriters := by
  refine ⟨fun s v rest hp => ?_, fun s => congrArg some (BitVec.ofNat_toNat ..).symm, fun i s t => exec_inLen,
    fun s t h => ?_, fun s t h => ?_, fun i s l hunpack hdec => ?_, rfl⟩
  · have hlow : v.extractLsb' 0 7 = BitVec.ofNat 7 (v.toNat % 128) :=
      extractLsb'_eq_of_toNat (by rw [BitVec.toNat_ofNat]; omega)
    rw [step_write hp rfl, ← hlow]
    rfl
  · cases h; rfl
  · cases h; rfl
  · obtain ⟨t, ht⟩ := exec_total i s
    exact ⟨t, ht, exec_setInLen hunpack hdec ht l⟩

/-! ### OUT_LEN -/

theorem exec_outLen_of_err_ne_zero {i : Instr} {s t : State} (h : exec i s = .next t) (he : t.err ≠ 0) :
    t.outLen = s.outLen := by
  obtain ⟨c, info, b, rfl⟩ := exec_raised h he
  simp

/-- What SMP.PACK and BLK.ENC leave in OUT_LEN: one word for the mask and one for each bit of it. -/
theorem storeOut_pack_outLen_mask {src : List Word} (s : State) (h : src.length ≤ 64) :
    (∃ mask, Memory.read (storeOut (pack src) s).outBuf 0 = some mask ∧
      (storeOut (pack src) s).outLen.toNat = 1 + popcount 64 mask.toNat) ∧
    (storeOut (pack src) s).outLen.toNat ≤ 1 + src.length := by
  have hlen := storeOut_outLen_toNat (pack src) s (pack_length_le_65 h)
  exact ⟨⟨_, read_storeOut_pack_mask s h, hlen.trans (pack_length_eq_popcount h)⟩, hlen.trans_le (pack_length_le src)⟩

/-- The words that SMP.PACK keeps are the written operands that are not 0. -/
theorem inArray_filter_length {s : State} {m : Nat} {x : Nat → Word}
    (h : ∀ p, p < m → Memory.read s.inBuf p = some (x p)) :
    ((s.inArray .operand m).filter fun e => decide (e ≠ 0#64)).length =
      (List.range m).countP fun p => decide (x p ≠ 0) := by
  rw [State.inArray, List.filter_map, List.length_map, ← List.countP_eq_length_filter]
  refine List.countP_congr fun p hp => ?_
  rw [Function.comp_apply, inAt_of_read (h p (List.mem_range.1 hp))]
  exact Iff.rfl

/-- A CMD value's execution keeps OUT_LEN at most 65. -/
theorem execute_outLen_le {v : Word} {s t : State} (hs : s.outLen.toNat ≤ 65) (h : execute v s = .next t) :
    t.outLen.toNat ≤ 65 := by
  rcases execute_raised_or_completes h with ⟨c, info, b, rfl⟩ | ⟨i, -, hc⟩
  · simpa using hs
  · cases hc with
    | clr => exact Nat.zero_le _
    | xfer => simpa using hs
    | @array _ _ k _ hd => exact (storeOut_outLegal (s.noteIn k) hd).1
    | scalar => exact hs

/-- Settles O10: each array command by the length of its result, and the bound by what reaches OUT_LEN. -/
theorem outLenWriters : Obligations.OutLenWriters := by
  refine ⟨fun i s t h => ⟨exec_outLen_of_err_ne_zero h, fun he => ?_⟩, fun s t h hs => ?_,
    fun s t e rest hp hr hcmd h => ?_, fun s v rest hp => step_write hp rfl, fun s => congrArg some (BitVec.ofNat_toNat ..).symm, rfl⟩
  · cases i with
    | nop => cases h; rfl
    | clr => cases h; rfl
    | xfer => cases h; simp
    | fwvInit w => obtain ⟨-, -, rfl⟩ := exec_fwvInit_success h he; rfl
    | fwvGet j => obtain ⟨-, -, rfl⟩ := exec_fwvGet_success h he; rfl
    | fwvSet j => obtain ⟨-, -, -, rfl⟩ := exec_fwvSet_success h he; rfl
    | fwvShin => obtain ⟨-, -, rfl⟩ := exec_fwvShin_success h he; rfl
    | bptFwd n w =>
      obtain ⟨-, hw, rfl⟩ := exec_bptFwd_success h he
      rw [succeed_outLen, storeOut_outLen_toNat _ _ (by rw [transpose_length]; omega), transpose_length]
    | smpPack m =>
      obtain ⟨hm, rfl⟩ := exec_smpPack_success h he
      have hlen := inArray_length s .operand m
      have h64 : (s.inArray .operand m).length ≤ 64 := by omega
      obtain ⟨hmask, hle⟩ := storeOut_pack_outLen_mask (s.noteIn m) h64
      exact ⟨hmask, hle.trans_eq (congrArg _ hlen), fun x hx =>
        (storeOut_pack_outLen (s.noteIn m) h64).trans (congrArg _ (inArray_filter_length hx))⟩
    | smpUnpack m =>
      obtain ⟨hm, -, -, -, rfl⟩ := exec_smpUnpack_success h he
      rw [succeed_outLen, storeOut_outLen_toNat _ _ (by rw [unpack_length]; omega), unpack_length]
    | blkEnc n b =>
      obtain ⟨-, hb, -, ht⟩ := exec_blkEnc_success h he
      have hlen := transpose_length (s.inArray .operand n) b
      obtain ⟨hmask, hle⟩ := storeOut_pack_outLen_mask (s.noteIn n) (hlen.trans_le hb.2)
      subst ht
      exact ⟨hmask, hle.trans_eq (congrArg _ hlen), fun x hx => (encodedLength n b s _ x hx h he).1⟩
    | blkDec n b =>
      obtain ⟨hn, -, -, -, -, rfl⟩ := exec_blkDec_success h he
      rw [succeed_outLen, storeOut_outLen_toNat _ _ (by rw [transpose_length]; omega), transpose_length]
  · exact step_keeps (P := fun u => u.outLen.toNat ≤ 65) (fun _ _ _ => Nat.zero_le _)
      (fun v rest u _ hu hv => execute_outLen_le (s := { u with pending := rest, cmd := v }) hu hv)
      (fun _ _ _ hu hq => hq.outLen ▸ hu) hs h
  · rcases step_executes_or_quiet hp hr h with ⟨v, hv, -⟩ | hq
    · exact absurd hv (hcmd v)
    · exact hq.outLen

/-! ### The FWV registers -/

theorem exec_fwvInit_width {w : Nat} {s t : State} (h : exec (.fwvInit w) s = .next t) (he : t.err = 0) :
    t.fwvWidth.toNat = w ∧ InRange w := by
  obtain ⟨hw, -, rfl⟩ := exec_fwvInit_success h he
  exact ⟨Nat.mod_eq_of_lt (by omega), hw⟩

/-- A command that is not FWV.INIT keeps FWV_WIDTH, and one that is no FWV command with a value keeps FWV_VALUE. -/
theorem exec_fwv_kept {i : Instr} {s t : State} (h : exec i s = .next t) :
    ((∀ w, i ≠ .fwvInit w) → t.fwvWidth = s.fwvWidth) ∧
    ((∀ w, i ≠ .fwvInit w) → (∀ j, i ≠ .fwvSet j) → i ≠ .fwvShin → t.fwvValue = s.fwvValue) := by
  rcases exec_raised_or_completes h with ⟨c, info, b, rfl⟩ | hc
  · simp
  · cases hc with
    | clr => exact ⟨fun _ => rfl, fun _ _ _ => rfl⟩
    | xfer => simp
    | array => simp
    | scalar _ _ _ hw hx => exact ⟨hw, hx⟩

/-- A CMD value's execution never makes a width 0. -/
theorem execute_fwvWidth_ne_zero {v : Word} {s t : State} (hs : s.fwvWidth ≠ 0) (h : execute v s = .next t) :
    t.fwvWidth ≠ 0 := by
  rcases execute_raised_or_completes h with ⟨c, info, b, rfl⟩ | ⟨i, hi, hc⟩
  · simpa using hs
  · by_cases hinit : ∃ w, i = .fwvInit w
    · obtain ⟨w, rfl⟩ := hinit
      obtain ⟨hw, h1, -⟩ := exec_fwvInit_width hi (by cases hc <;> rfl)
      exact fwvWidth_ne_zero_of_lt (i := 0) (by omega)
    · rw [(exec_fwv_kept hi).1 fun w hw => hinit ⟨w, hw⟩]
      exact hs

/-- Settles O11: the writers by how a command ends, and the rest of the port is quiet or read-only there. -/
theorem fwvRegisterWriters : Obligations.FwvRegisterWriters := by
  refine ⟨fun i s t => exec_fwv_kept, fun w s t => exec_fwvInit_width, fun s t e rest hp hr h hs => ?_,
    fun s v off rest hoff hp => ?_, fun s => ⟨rfl, congrArg some (BitVec.ofNat_toNat ..).symm⟩, rfl, rfl⟩
  · rcases step_executes_or_quiet hp hr h with ⟨v, -, hv⟩ | hq
    · exact execute_fwvWidth_ne_zero (s := { s with pending := rest, cmd := v }) hs hv
    · exact hq.fwvWidth ▸ hs
  · rcases hoff with rfl | rfl <;> exact step_write hp rfl

end Sys2Proof.Machine

/-! ## The buffers and who writes them (10_state.md R34 to R36) -/

namespace Sys2Proof.Machine

/-! ### Reads after writes -/

theorem Memory.read_write_ne_none {m : Memory} {i j : Nat} {v : Word} (h : Memory.read m j ≠ none) :
    Memory.read (Memory.write m i v) j ≠ none := by
  rw [Memory.read_write]
  split
  · exact Option.some_ne_none v
  · exact h

/-- An array write makes no written word unwritten. -/
theorem Memory.read_writeAll_ne_none {m : Memory} {d : List Word} {i j : Nat} (h : Memory.read m j ≠ none) :
    Memory.read (Memory.writeAll m i d) j ≠ none := by
  induction d generalizing m i with
  | nil => exact h
  | cons x d ih => exact ih (Memory.read_write_ne_none h)

/-- The offsets of the buffer words do not wrap in the window. -/
theorem bufferOffset_toNat {base i : Nat} (hbase : base ≤ 0x800) (hi : i ≤ 64) :
    (BitVec.ofNat 12 (base + 8 * i)).toNat = base + 8 * i := by
  rw [BitVec.toNat_ofNat]; omega

/-! ### IN -/

theorem exec_inBuf {i : Instr} {s t : State} (h : exec i s = .next t) (hxfer : i ≠ .xfer) (hclr : i ≠ .clr) :
    t.inBuf = s.inBuf := by
  rcases exec_raised_or_completes h with ⟨c, info, b, rfl⟩ | hc
  · simp
  · cases hc with
    | clr => exact absurd rfl hclr
    | xfer => exact absurd rfl hxfer
    | array => simp
    | scalar => rfl

/-- Settles O15: the port's write by the law of a read after a write, and the commands by how they end. -/
theorem inBufferWriters : Obligations.InBufferWriters := by
  refine ⟨fun s i v rest hi hp => ⟨Memory.write s.inBuf i v, ?_, fun j => ?_⟩, fun s i hi => ?_,
    fun i s t => exec_inBuf, fun i => rfl⟩
  · have hoff := bufferOffset_toNat (base := 0x400) (by decide) hi
    rw [step_write hp (by omega), hoff, targetAt_in i hi]
    rfl
  · simp [Memory.read_write, Nat.lt_succ_of_le hi]
  · rw [targetAt_in i hi]
    rfl

/-! ### OUT -/

/-- An array command that completes has written OUT below OUT_LEN, and nothing else of the buffers. -/
theorem exec_array_buffers {i : Instr} {s t : State} (hi : i.isArray = true) (h : exec i s = .next t) (he : t.err = 0) :
    (∀ j, j < t.outLen.toNat → Memory.read t.outBuf j ≠ none) ∧
    (∀ j, t.outLen.toNat ≤ j → Memory.read t.outBuf j = Memory.read s.outBuf j) ∧ t.inBuf = s.inBuf := by
  cases exec_completes h he with
  | clr => cases hi
  | xfer => cases hi
  | scalar hi' => cases hi.symm.trans hi'
  | @array _ d k _ hd =>
    obtain ⟨-, hwritten⟩ := storeOut_outLegal (s.noteIn k) hd
    refine ⟨hwritten, fun j hj => ?_, by simp⟩
    rw [succeed_outLen, storeOut_outLen_toNat _ _ hd] at hj
    rw [succeed_outBuf, read_storeOut _ _ _ hd, if_neg (not_lt.2 hj), noteIn_def, noteReads_outBuf]

theorem exec_outBuf {i : Instr} {s t : State} (h : exec i s = .next t) (hi : i.isArray = false) (hclr : i ≠ .clr) :
    t.outBuf = s.outBuf := by
  rcases exec_raised_or_completes h with ⟨c, info, b, rfl⟩ | hc
  · simp
  · cases hc with
    | clr => exact absurd rfl hclr
    | xfer => simp
    | array hi' => cases hi.symm.trans hi'
    | scalar => rfl

/-- Settles O16: the port ignores the write, a raise writes no buffer, and a command by whether it has an array
result. -/
theorem outBufferWriters : Obligations.OutBufferWriters := by
  refine ⟨fun s i v rest hi hp => ?_, fun s i hi => ?_, fun i s t h => ⟨fun he => ?_, fun he => ?_⟩, fun i => rfl⟩
  · have hoff := bufferOffset_toNat (base := 0x800) (by decide) hi
    rw [step_write hp (by omega), hoff, targetAt_out i hi]
    rfl
  · rw [targetAt_out i hi]
    rfl
  · obtain ⟨c, info, b, rfl⟩ := exec_raised h he
    simp
  · cases i with
    | clr =>
      obtain ⟨m, m', hx, hzero⟩ := clrClearsBuffersAndLengths.2 s
      cases hx.symm.trans h
      exact fun j hj => (hzero j hj).2
    | bptFwd n w => exact exec_array_buffers rfl h he
    | smpPack m => exact exec_array_buffers rfl h he
    | smpUnpack m => exact exec_array_buffers rfl h he
    | blkEnc n b => exact exec_array_buffers rfl h he
    | blkDec n b => exact exec_array_buffers rfl h he
    | _ => exact exec_outBuf h rfl nofun

/-! ### Written words stay written (70_reset_and_hazards.md R261) -/

/-- A CMD value's execution makes no written word unwritten. -/
theorem execute_keeps_written {v : Word} {s t : State} (h : execute v s = .next t) (j : Nat) :
    (Memory.read s.inBuf j ≠ none → Memory.read t.inBuf j ≠ none) ∧
    (Memory.read s.outBuf j ≠ none → Memory.read t.outBuf j ≠ none) := by
  rcases execute_raised_or_completes h with ⟨c, info, b, rfl⟩ | ⟨i, -, hc⟩
  · simp
  · cases hc with
    | clr =>
      simp only [succeed_inBuf, succeed_outBuf]
      exact ⟨Memory.read_writeAll_ne_none, Memory.read_writeAll_ne_none⟩
    | xfer =>
      simp only [succeed_inBuf, succeed_outBuf, noteOut_def, noteReads_outBuf]
      exact ⟨Memory.read_writeAll_ne_none, id⟩
    | array =>
      simp only [succeed_inBuf, succeed_outBuf, storeOut_inBuf, storeOut_outBuf, noteIn_def, noteReads_inBuf,
        noteReads_outBuf]
      exact ⟨id, Memory.read_writeAll_ne_none⟩
    | scalar => exact ⟨id, id⟩

/-- No CMD value's execution writes ARG0. -/
theorem execute_arg0 {v : Word} {s t : State} (h : execute v s = .next t) : t.arg0 = s.arg0 := by
  rcases execute_eq v s with ⟨i, -, hx⟩ | ⟨e, -, hx⟩ <;> rw [hx] at h
  · exact exec_arg0 h
  · cases h; rfl

theorem QuietAccess.keeps_written {e : HostEvent} {s t : State} (h : QuietAccess e s t) (j : Nat) :
    (Memory.read s.inBuf j ≠ none → Memory.read t.inBuf j ≠ none) ∧
    (Memory.read s.outBuf j ≠ none → Memory.read t.outBuf j ≠ none) := by
  refine ⟨fun hj => ?_, fun hj => h.outBuf ▸ hj⟩
  rcases h.inBuf with hin | ⟨i, v, hin⟩ <;> rw [hin]
  · exact hj
  · exact Memory.read_write_ne_none hj

/-- Settles O24: commands and quiet accesses only write words, and CLR fills the buffers. -/
theorem onlyResetUnwrites : Obligations.OnlyResetUnwrites := by
  refine ⟨fun s t e rest hp hr h => ?_, fun s t h => ?_⟩
  · rcases step_executes_or_quiet hp hr h with ⟨v, -, hv⟩ | hq
    · exact ⟨fun j => (execute_keeps_written hv j).1, fun j => (execute_keeps_written hv j).2,
        fun hne => absurd (execute_arg0 hv) hne⟩
    · exact ⟨fun j => (hq.keeps_written j).1, fun j => (hq.keeps_written j).2, hq.arg0⟩
  · obtain ⟨m, m', hx, hzero⟩ := clrClearsBuffersAndLengths.2 s
    cases hx.symm.trans h
    exact ⟨rfl, rfl, rfl, rfl, rfl, hzero⟩

end Sys2Proof.Machine

/-! ## Reads, and the UninitRead mark (20_memory.md R70, R71, 60_exceptions.md R229) -/

namespace Sys2Proof.Machine

/-! ### Host reads -/

theorem readWord_of_peek_eq_some {s : State} {off : Offset} {v : Word} (h : s.peek (targetAt off.toNat) = some v) :
    s.readWord off = { s with returned := s.returned ++ [v] } := by
  rw [readWord_eq, h]; rfl

theorem readWord_of_peek_eq_none {s : State} {off : Offset} (h : s.peek (targetAt off.toNat) = none) :
    s.readWord off =
      { s with
        uninitReads := s.uninitReads + 1
        returned := s.returned ++ [Config.uninitWord s.uninitReads .operand off.toNat] } := by
  rw [readWord_eq, h]; rfl

/-- A read of a word that has a value returns it. -/
theorem step_read_of_peek_eq_some {s : State} {off : Offset} {v : Word} {rest : List HostEvent}
    (hp : s.pending = .read 8 off :: rest) (ha : off.toNat % 8 = 0) (h : s.peek (targetAt off.toNat) = some v) :
    step s = .next { s with pending := rest, returned := s.returned ++ [v] } := by
  rw [step_read hp ha, readWord_of_peek_eq_some (s := { s with pending := rest }) h]

theorem core_run_two {s t u : State} (hst : step s = .next t) (htu : step t = .next u) : core.run 2 s = .next u := by
  have hs : core.step s = .next t := hst
  have ht : core.step t = .next u := htu
  simp only [Host.Core.run, hs, ht]

/-- Settles O20: a read changes the returned values alone, so the second finds the same word. -/
theorem readsAreIdempotent : Obligations.ReadsAreIdempotent := by
  refine fun s off v rest ha h => ⟨fun hp => step_read_of_peek_eq_some hp ha h, fun hp => ?_⟩
  have hsecond := step_read_of_peek_eq_some (rest := rest)
    (s := { s with pending := .read 8 off :: rest, returned := s.returned ++ [v] }) rfl ha h
  rw [List.append_assoc] at hsecond
  exact core_run_two (step_read_of_peek_eq_some hp ha h) hsecond

/-! ### The fault reading -/

theorem strictStep_of_step {s t : State} (h : step s = .next t) :
    strictStep s = if t.uninitReads = s.uninitReads then .next t else .fault .uninitRead := by
  have ha : advance s = .next t := h
  rw [strictStep, strictAdvance, ha]

/-- Settles O21: the read adds one to the mark, at which the fault reading stops. -/
theorem unwrittenHostReadIsMarked : Obligations.UnwrittenHostReadIsMarked := by
  intro s off rest ha h hp
  have hstep := step_read hp ha
  rw [readWord_of_peek_eq_none (s := { s with pending := rest }) h] at hstep
  refine ⟨?_, _, hstep⟩
  rw [strictStep_of_step hstep, if_neg (Nat.succ_ne_self _)]

theorem execute_uninitReads_le {v : Word} {s t : State} (h : execute v s = .next t) :
    s.uninitReads ≤ t.uninitReads := by
  rcases execute_next_cases h with ⟨c, info, b, rfl⟩ | ⟨u, rfl, -, -, -, -, -, -, hle⟩
  · simp
  · exact hle

/-- The mark is never taken back, by reset either (93_implementation_defined.md U2). -/
theorem step_uninitReads_le {s t : State} (h : step s = .next t) : s.uninitReads ≤ t.uninitReads :=
  step_keeps (P := fun u => s.uninitReads ≤ u.uninitReads) (fun _ _ hu => hu)
    (fun v rest u _ hu hv => hu.trans (execute_uninitReads_le (s := { u with pending := rest, cmd := v }) hv))
    (fun _ _ _ hu hq => hu.trans hq.uninitReads) le_rfl h

/-- Settles O22: the fault reading compares the mark before and after the step. -/
theorem strictStepStopsAtUninitReads : Obligations.StrictStepStopsAtUninitReads := by
  intro s t h
  refine ⟨step_uninitReads_le h, fun heq => ?_, fun hne => ?_⟩
  · rw [strictStep_of_step h, if_pos heq]
  · rw [strictStep_of_step h, if_neg hne]

/-- Settles O23: a raise by its row of the cause table, whose reads the duty covers, and a completion by the words it
has read. -/
theorem dutyKeepsRunsClean : Obligations.DutyKeepsRunsClean := by
  intro i s t hduty hout h
  by_cases he : t.err = 0
  · cases exec_completes h he with
    | clr => rfl
    | xfer => rw [noteOut_of_written hout.2]; rfl
    | array _ _ hk => rw [noteIn_of_written (hk.2 hduty)]; rfl
    | scalar => rfl
  · obtain ⟨c, info, k, -, -, rfl⟩ := exec_raised_of_dutyMet hduty h he
    rfl

end Sys2Proof.Machine

/-! ## The block codec as a composition (43_blk.md R182) -/

namespace Sys2Proof.Machine

/-- Settles O52: the planes go through IN to SMP.PACK, which packs what BLK.ENC packs. -/
theorem encodeIsTransposeThenPack : Obligations.EncodeIsTransposeThenPack := by
  intro n b s hn hn' hb hb' h
  have hin : Memory.Written s.inBuf n := (written_iff _ _).2 fun p hp => (h p hp).imp fun _ => And.left
  have henc := exec_blkEnc_of_fits ⟨hn, hn'⟩ ⟨hb, hb'⟩ h
  have hfwd := exec_bptFwd_of_reads (inArray_length s .operand n) ⟨hn, hn'⟩ ⟨hb, hb'⟩ fun p =>
    read_eq_inArray_of_written hin
  have hlen := transpose_length (s.inArray .operand n) b
  generalize transpose (s.inArray .operand n) b = planes at henc hfwd hlen
  subst hlen
  have h65 : planes.length ≤ 65 := by omega
  have hpack := pack_length_le_65 hb'
  have hout := storeOut_outLen_toNat (pack planes) s hpack
  refine ⟨_, _, _, _, henc, hfwd, execXfer_of_result h65,
    exec_smpPack_of_reads (src := planes) rfl ⟨hb, hb'⟩ (reads_of_store h65), rfl, rfl, rfl, rfl, fun i hi => ?_,
    fun i hi => ?_, fun i hi _ => ?_, rfl, rfl, storeOut_outLen_toNat planes s h65, fun i hi => ?_⟩
  · have hi' := hi.trans_eq hout
    exact (reads_of_store hpack i hi').trans (reads_of_store hpack i hi').symm
  · exact (read_storeOut _ s i hpack).trans (if_neg (not_lt.2 (hout.symm.trans_le hi)))
  · exact (read_storeOut _ _ i hpack).trans (if_neg (not_lt.2 (hout.symm.trans_le hi)))
  · exact (reads_of_store h65 i hi).trans (reads_of_store h65 i hi).symm

/-- Settles O53: the planes go through IN to the transpose, which makes of them what BLK.DEC makes. -/
theorem decodeIsUnpackThenTranspose : Obligations.DecodeIsUnpackThenTranspose := by
  intro n b s e h he hduty
  obtain ⟨hn, hb, h1, h65, hc, rfl⟩ := exec_blkDec_success h he
  have hin := (blockDuty_iff h1 h65 hc).2 (hduty hn hb)
  have hunpack := (exec_smpUnpack_of_inRange hb).trans
    (congrArg Host.Outcome.next (decodeBlock_written (out := id) ⟨h1, h65⟩ hc hin))
  have hlen := unpack_length b (s.blockWord s.inLen.toNat)
  clear h he
  rw [noteIn_of_written hin]
  rw [id] at hunpack
  generalize unpack b (s.blockWord s.inLen.toNat) = planes at hunpack hlen ⊢
  subst hlen
  have h65 : planes.length ≤ 65 := by omega
  have hpx : (transpose planes n).length = n := transpose_length ..
  have hout := fun (u : State) i => read_storeOut_transpose planes u i hn.2
  refine ⟨_, _, _, hunpack, execXfer_of_result h65,
    exec_bptFwd_of_reads (src := planes) rfl hb hn (reads_of_store h65), rfl, rfl, rfl,
    (storeOut_outLen_toNat _ s (by omega)).trans hpx, fun i hi => ?_, fun i hi _ => ?_, fun i hi => ?_, rfl, rfl,
    storeOut_outLen_toNat planes s h65, fun i hi => ?_⟩
  · exact ((hout _ i).trans (if_pos hi)).trans ((hout _ i).trans (if_pos hi)).symm
  · exact (hout _ i).trans (if_neg (not_lt.2 hi))
  · exact (hout _ i).trans (if_neg (not_lt.2 hi))
  · exact (reads_of_store h65 i hi).trans (reads_of_store h65 i hi).symm

end Sys2Proof.Machine

/-! ## Commands on unwritten words (60_exceptions.md R229, 93_implementation_defined.md U2)

A command that reads unwritten words runs as from IN filled with the values it reads there, and adds to the mark. -/

namespace Sys2Proof.Machine

/-! ### Filling IN -/

/-- IN can be filled: its unwritten words with the free values an operand read gives there. -/
theorem exists_filled (s : State) : ∃ m : Memory,
    (∀ j x, Memory.read s.inBuf j = some x → Memory.read m j = some x) ∧
    ∀ j, j ≤ 64 → Memory.read m j = some (s.inAt .operand j) := by
  have hread : ∀ j, Memory.read (Memory.writeAll s.inBuf 0 (s.inArray .operand 65)) j =
      if j < 65 then some (s.inAt .operand j) else Memory.read s.inBuf j := fun j => by
    rw [Memory.read_store _ _ _ (inArray_length ..).le, inArray_length]
    split
    next hj => simp [State.inArray, hj]
    next => rfl
  refine ⟨_, fun j x hx => ?_, fun j hj => (hread j).trans (if_pos (Nat.lt_succ_of_le hj))⟩
  rw [hread]
  split
  · rw [inAt_of_read hx]
  · exact hx

/-- A command runs as from `m` in IN, and adds one to the mark where it has read an unwritten word. -/
def RunsAsFrom (m : Memory) (i : Instr) (s : State) : Prop :=
  ∃ (t t' : State) (k : Nat), exec i { s with inBuf := m } = .next t' ∧ exec i s = .next t ∧
    t = { t' with inBuf := s.inBuf, uninitReads := s.uninitReads + k } ∧ k ≤ 1 ∧ (t.err = 0 → (k = 0 ↔ DutyMet i s))

section
variable {m : Memory} {i : Instr} {s : State}

/-- A raise that reads no IN word does not depend on them. -/
theorem runsAsFrom_of_raise {c : Cause} {info : Word}
    (h : ∀ m, exec i { s with inBuf := m } = .next (raise c info { s with inBuf := m })) : RunsAsFrom m i s :=
  ⟨_, _, 0, h m, h s.inBuf, rfl, Nat.zero_le 1, fun he => absurd he (raise_err_ne_zero c info s)⟩

/-- An array result of `n` operand words is the one of the filled words, with the mark of the words read. -/
theorem runsAsFrom_of_result {d : List Word} {n : Nat}
    (hfilled : exec i { s with inBuf := m } = .next (succeed (storeOut d { s with inBuf := m })))
    (h : exec i s = .next (succeed (storeOut d (s.noteIn n)))) (hduty : Memory.Written s.inBuf n ↔ DutyMet i s) :
    RunsAsFrom m i s := by
  refine ⟨_, _, (Memory.someUnwritten s.inBuf n).toNat, hfilled, h, ?_, Bool.toNat_le _, fun _ =>
    (someUnwritten_toNat_eq_zero _ _).trans hduty⟩
  rw [noteIn_def, noteReads_eq]
  rfl

variable (hm : ∀ j, j ≤ 64 → Memory.read m j = some (s.inAt .operand j))
include hm

/-- The array operand read from the filled words is the one read from IN. -/
theorem reads_of_filled {n : Nat} (hn : n ≤ 64) (p : Nat) (hp : p < n) :
    Memory.read m p = (s.inArray .operand n)[p]? := by
  rw [hm p (by omega)]
  simp [State.inArray, hp]

theorem bptFwd_runsAsFrom (n w : Nat) : RunsAsFrom m (.bptFwd n w) s := by
  by_cases hn : InRange n
  · by_cases hw : InRange w
    · refine runsAsFrom_of_result (exec_bptFwd_of_reads (inArray_length s .operand n) hn hw
        (reads_of_filled hm hn.2)) ?_ ⟨fun hin _ _ => hin, fun hd => hd hn hw⟩
      rw [exec, execBptFwd, if_neg (not_not.2 hn), if_neg (not_not.2 hw)]
    · exact runsAsFrom_of_raise fun m => congrArg _ ((if_neg (not_not.2 hn)).trans (if_pos hw))
  · exact runsAsFrom_of_raise fun m => congrArg _ (if_pos hn)

theorem smpPack_runsAsFrom (n : Nat) : RunsAsFrom m (.smpPack n) s := by
  by_cases hn : InRange n
  · refine runsAsFrom_of_result (exec_smpPack_of_reads (inArray_length s .operand n) hn (reads_of_filled hm hn.2)) ?_
      ⟨fun hin _ => hin, fun hd => hd hn⟩
    rw [exec, execSmpPack, if_neg (not_not.2 hn)]
  · exact runsAsFrom_of_raise fun m => congrArg _ (if_pos hn)

end

/-! ### Which reads are marked -/

/-- The words a row of the cause table has read meet the duty, but for a wide pixel, which is found before the words
after it are read. -/
theorem CauseRow.dutyMet {i : Instr} {s : State} {c : Cause} {info : Word} {k : Nat} (hrow : CauseRow i s c info k)
    (hc : c ≠ .pixel) (hin : Memory.Written s.inBuf k) : DutyMet i s := by
  cases hrow with
  | fwvWidth hi => subst hi; trivial
  | fwvValue hi => subst hi; trivial
  | bitValue hi => rcases hi with ⟨_, rfl⟩ | rfl <;> trivial
  | fwvUninit hi => rcases hi with ⟨_, rfl | rfl⟩ | rfl <;> trivial
  | bitIndex hi => rcases hi with rfl | rfl <;> trivial
  | count hi hn => rcases hi with ⟨_, rfl | rfl | rfl⟩ | rfl | rfl <;> exact fun hn' => absurd hn' hn
  | width hi hw => rcases hi with rfl | rfl | rfl <;> exact fun _ hw' => absurd hw' hw
  | pixel => exact absurd rfl hc
  | inLen hi hL =>
    have hblock : ∀ m, BlockDuty m s := fun _ _ h65 => absurd hL (not_lt.2 h65)
    rcases hi with ⟨m, rfl⟩ | ⟨n, b, rfl⟩
    · exact fun _ => hblock m
    · exact fun _ _ => hblock b
  | noMask hi hL =>
    have hblock : ∀ m, BlockDuty m s := fun _ h1 => absurd hL (Nat.one_le_iff_ne_zero.1 h1)
    rcases hi with ⟨m, rfl⟩ | ⟨n, b, rfl⟩
    · exact fun _ => hblock m
    · exact fun _ _ => hblock b
  | @maskCount m hi hcount =>
    have hblock : BlockDuty m s := fun _ _ => ⟨hin, fun hle => absurd hcount (not_lt.2 hle)⟩
    rcases hi with rfl | ⟨n, rfl⟩
    · exact fun _ => hblock
    · exact fun _ _ => hblock

/-- BLK.ENC looks for a wide pixel among at most 64. -/
theorem inRange_of_pixel {n b : Nat} {s t : State} (h : exec (.blkEnc n b) s = .next t) (hc : t.cause = 0x07) :
    InRange n := by
  by_contra hn
  have hraise : exec (.blkEnc n b) s = .next (raise .count (zext64 n) s) := congrArg _ (if_pos hn)
  cases hraise.symm.trans h
  cases hc

/-- A wide pixel is found after the words up to it are read, and ERRINFO names it. -/
theorem CauseRow.pixel_reads {i : Instr} {s t : State} {c : Cause} {info : Word} {k : Nat}
    (hrow : CauseRow i s c info k) (h : exec i s = .next t) (ht : t = raise c info (s.noteIn k)) (hc : t.cause = 0x07) : t.errInfo.toNat + 1 = k := by
  subst ht
  cases hrow with
  | pixel hi hj =>
    subst hi
    obtain ⟨-, hn⟩ := inRange_of_pixel h hc
    rw [raise_errInfo, zext64_toNat, Nat.mod_eq_of_lt (by omega)]
  | _ => cases hc

/-- What an array command leaves, and which of its reads the mark counts. -/
theorem exec_array_unwritten {i : Instr} (hi : i.isArray = true) (s : State) :
    ∃ (t : State) (k : Nat), exec i s = .next t ∧ k ≤ 1 ∧
      (t.err ≠ 0 → t = { recorded t.err t.cause t.errInfo s with uninitReads := s.uninitReads + k }) ∧
      (t.err = 0 → t = { s with
        outBuf := t.outBuf, outLen := t.outLen, err := 0, cause := 0, uninitReads := s.uninitReads + k } ∧
        ∀ j, t.outLen.toNat ≤ j → Memory.read t.outBuf j = Memory.read s.outBuf j) ∧
      (t.cause ≠ 0x07 → (k = 0 ↔ DutyMet i s)) ∧
      (t.cause = 0x07 → (k = 0 ↔ Memory.Written s.inBuf (t.errInfo.toNat + 1))) := by
  obtain ⟨t, ht⟩ := exec_total i s
  by_cases he : t.err = 0
  · have hout := (exec_array_buffers hi ht he).2.1
    cases exec_completes ht he with
    | clr => cases hi
    | xfer => cases hi
    | scalar hi' => cases hi.symm.trans hi'
    | @array _ d n _ _ hduty =>
      refine ⟨_, (Memory.someUnwritten s.inBuf n).toNat, ht, Bool.toNat_le _, fun hne => absurd he hne,
        fun _ => ⟨?_, hout⟩, fun _ => (someUnwritten_toNat_eq_zero _ _).trans hduty, nofun⟩
      rw [noteIn_def, noteReads_eq]
      rfl
  · obtain ⟨c, info, k, hrow, hduty, hraise⟩ := exec_raisedBy ht he
    refine ⟨t, (Memory.someUnwritten s.inBuf k).toNat, ht, Bool.toNat_le _, fun _ => ?_,
      fun h0 => absurd h0 he, fun hc => ?_, fun hc => ?_⟩
    · rw [hraise, noteIn_def, noteReads_eq]
      rfl
    · have hpixel : c ≠ .pixel := fun hp => hc (by rw [hraise, hp]; rfl)
      exact (someUnwritten_toNat_eq_zero _ _).trans ⟨hrow.dutyMet hpixel, hduty⟩
    · rw [hrow.pixel_reads ht hraise hc]
      exact someUnwritten_toNat_eq_zero _ _

/-- Settles O57: BPT.FWD and SMP.PACK on the filled words, every array command by how it ends, and XFER by its reads of
OUT. -/
theorem unwrittenOperandsAreFreeValues : Obligations.UnwrittenOperandsAreFreeValues := by
  refine ⟨fun i s hi => ?_, fun i s hnop hclr hxfer hinit hget hset hshin => ?_, fun s => ?_⟩
  · obtain ⟨m, hkept, hm⟩ := exists_filled s
    have hruns : RunsAsFrom m i s := by
      rcases hi with ⟨n, w, rfl⟩ | ⟨n, rfl⟩
      · exact bptFwd_runsAsFrom hm n w
      · exact smpPack_runsAsFrom hm n
    obtain ⟨t, t', k, hruns⟩ := hruns
    exact ⟨m, t, t', k, hkept, fun j hj => by simp [hm j hj], hruns⟩
  · refine exec_array_unwritten ?_ s
    cases i with
    | nop => exact absurd rfl hnop
    | clr => exact absurd rfl hclr
    | xfer => exact absurd rfl hxfer
    | fwvInit w => exact absurd rfl (hinit w)
    | fwvGet j => exact absurd rfl (hget j)
    | fwvSet j => exact absurd rfl (hset j)
    | fwvShin => exact absurd rfl hshin
    | _ => rfl
  · exact ⟨_, (Memory.someUnwritten s.outBuf s.outLen.toNat).toNat, rfl, noteReads_uninitReads _ _, Bool.toNat_le _,
      someUnwritten_toNat_eq_zero _ _⟩

end Sys2Proof.Machine
